-- ==== Sys2Proof/Word.lean ====
section
/-!
DEFINITION. The word types of HFJ-BSC whose width no parameter of spec/00_scope.md R5 changes; those that a parameter sets are in
Sys2Proof/Config.lean.
-/
namespace Sys2Proof

/-- A byte of the sink or the source: 8 bits (20_memory.md R40). -/
abbrev Byte := BitVec 8

/-- A host register, a command word, a node word, an error code: 32 bits (20_memory.md R41, 30_encoding.md R60, R66). `BUS_W` has
no other value that these rules leave (`Params.busW_eq`). -/
abbrev Word := BitVec 32

/-- A code length: 6 bits, as `MAXLEN`, `ACC_LEN` and `CT[s].LEN` are held in every build (10_state.md R20, R24, R27). -/
abbrev CodeLen := BitVec 6

end Sys2Proof
end

