-- ==== Sys2Proof/Config.lean ====
section
/-!
DEFINITION. The build-time parameters of spec/00_scope.md R5, arguments of the model with R5's defaults, and the types whose
width they set (notes/assumptions/1.md). They are no state (10_state.md R37): the state is indexed by them. The hardware draws
no value of its own (50_invariants_and_properties.md R171), so there is no free value here; what the environment answers is
data of State (notes/assumptions/2.md).
-/
namespace Sys2Proof

/-- The parameters of a build (00_scope.md R5). The bounds are what the register layouts of 20_memory.md R41, R42 and 30_encoding.md
R60, R61, R66, R67 hold: a build that enlarges a parameter is outside the spec (93_implementation_defined.md U13), one that shrinks
it is inside (20_memory.md R42). -/
structure Params where
  /-- `SYM_W`: bits in a symbol. -/
  symW : Nat
  /-- `LMAX`: the largest code length the table, `MAXLEN` and `ACC_RAW` can hold. -/
  lmax : Nat
  /-- `N_NODES`: entries in the node store. -/
  nNodes : Nat
  /-- `NIDX_W`: bits in a node index. -/
  nidxW : Nat
  /-- `CNT_W`: bits in a running counter. -/
  cntW : Nat
  /-- `BUS_W`: width of a host register. -/
  busW : Nat
  /-- A symbol fits in `ARG` (30_encoding.md R61) and the code table below its bound (20_memory.md R42). -/
  symW_le : symW ≤ 8
  /-- `RAW` and `ACC_RAW` fit in a host register (20_memory.md R42). -/
  lmax_le : lmax ≤ 32
  /-- `N_NODES = 2^NIDX_W` (00_scope.md R5). -/
  nNodes_eq : nNodes = 2 ^ nidxW
  /-- A node index fits in `LEFT` and `RIGHT` (30_encoding.md R66), the node store below the code table (20_memory.md R42). -/
  nidxW_le : nidxW ≤ 9
  /-- A counter fits in a host register (20_memory.md R42). -/
  cntW_le : cntW ≤ 32
  /-- Host registers, command words and node words are 32 bits (20_memory.md R41, 30_encoding.md R60, R66). -/
  busW_eq : busW = 32
  deriving DecidableEq, Repr

/-- The defaults of 00_scope.md R5. -/
abbrev Params.default : Params where
  symW := 8
  lmax := 32
  nNodes := 512
  nidxW := 9
  cntW := 32
  busW := 32
  symW_le := by decide
  lmax_le := by decide
  nNodes_eq := by decide
  nidxW_le := by decide
  cntW_le := by decide
  busW_eq := by decide

/-- Entries in the code table: 2^`SYM_W` (10_state.md R27). -/
abbrev Params.nSyms (p : Params) : Nat := 2 ^ p.symW

/-- A symbol: `SYM_W` bits (00_scope.md R5). -/
abbrev Sym (p : Params := .default) := BitVec p.symW

/-- An index of the node store: `NIDX_W` bits (00_scope.md R5). -/
abbrev NodeIdx (p : Params := .default) := BitVec p.nidxW

/-- A code or an accumulator: `LMAX` bits (10_state.md R20, R27). -/
abbrev RawCode (p : Params) := BitVec p.lmax

/-- A running counter: `CNT_W` bits, wrapping (00_scope.md R5, 50_invariants_and_properties.md R169). -/
abbrev Counter (p : Params) := BitVec p.cntW

end Sys2Proof
end

