-- ==== Sys2Proof/Syntax.lean ====
section
/-!
DEFINITION. The twelve commands (spec/30_encoding.md R62), their operand classes (R61) and the fields of a command
word (R60).
-/
namespace Sys2Proof

/-- The commands of 30_encoding.md R62, one constructor per row of spec/opcode_table.json, operands already pulled
out of `ARG`. -/
inductive Instr where
  /-- `WOPEN`: begin a write pass (40_bitwriter.md R81); `leave` is `ARG[0]`, leave-open mode. -/
  | wopen (leave : Bool)
  /-- `WBIT`: write one bit (R82); `b` is `ARG[0]`. -/
  | wbit (b : Bool)
  /-- `WBYTE`: write eight bits, most significant first (R83); `v` is `ARG[7:0]`. -/
  | wbyte (v : Byte)
  /-- `WCLOSE`: flush, release, end the write pass (R84). -/
  | wclose
  /-- `ROPEN`: begin a read pass (41_bitreader.md R101); `leave` is `ARG[0]`. -/
  | ropen (leave : Bool)
  /-- `RBIT`: read one bit (R102). -/
  | rbit
  /-- `RBYTE`: read eight bits (R103). -/
  | rbyte
  /-- `RCLOSE`: release the source, end the read pass (R104). -/
  | rclose
  /-- `ENCSYM`: encode one symbol (42_encoder.md R121); `s` is `ARG`, whose bits `SYM_W`-1:0 are the symbol and whose other bits
  are 0 in every word that decodes (R61 d). -/
  | encsym (s : Byte)
  /-- `ENCODE`: encode the whole symbol input and close (R122). -/
  | encode
  /-- `DECSYM`: decode one symbol (43_decoder.md R138). -/
  | decsym
  /-- `DECODE`: decode to the end of the input or to the expected count (R139). -/
  | decode
  deriving DecidableEq, Repr

/-- The operations `OP` can name (30_encoding.md R62). -/
inductive Op where
  | wopen | wbit | wbyte | wclose | ropen | rbit | rbyte | rclose | encsym | encode | decsym | decode
  deriving DecidableEq, Repr

/-- How `ARG` is used (30_encoding.md R61). -/
inductive ArgUse where
  /-- (a) `ARG` must be 0. -/
  | none
  /-- (b) `ARG[0]` is the operand, `ARG[7:1]` must be 0. -/
  | flag
  /-- (c) `ARG[7:0]` is an unsigned value used as it stands. -/
  | byte
  /-- (d) `ARG[SYM_W-1:0]` is a symbol, the bits of `ARG` above it must be 0; with `SYM_W` = 8 there are none. -/
  | sym
  deriving DecidableEq, Repr

/-- The four fields of the one command format `CMD32` (30_encoding.md R60). -/
structure CmdFields where
  /-- bits 31:16, must be 0 -/
  z1 : BitVec 16
  /-- bits 15:12 -/
  op : BitVec 4
  /-- bits 11:8, must be 0 -/
  z0 : BitVec 4
  /-- bits 7:0 -/
  arg : BitVec 8
  deriving DecidableEq, Repr

end Sys2Proof
end

