-- ==== Sys2Proof/Decode.lean ====
section
/-!
DEFINITION. Decoding a command word (spec/30_encoding.md R60 to R63), total, rejecting by name; then the encoder; then the
opcode map as R62 lists it; then the host's view of the decoder. A command is one whole 32-bit word; a register word has
no byte order (20_memory.md R41).
-/
namespace Sys2Proof

/-- Why a word is no command: the sub-causes of `BadCommand` (30_encoding.md R63, 60_exceptions.md R182). -/
inductive WordError where
  /-- `OP` is 0x0, 0xD, 0xE or 0xF. -/
  | rsvdOp
  /-- A legal `OP`, but `Z1`, `Z0` or a must-be-zero part of `ARG` is not 0. -/
  | rsvdBits
  deriving DecidableEq, Repr

/-- The operation a value of `OP` names (30_encoding.md R62); 0x0, 0xD, 0xE and 0xF name none (R63). -/
def Op.ofBits : BitVec 4 → Option Op
  | 0x1#4 => some .wopen
  | 0x2#4 => some .wbit
  | 0x3#4 => some .wbyte
  | 0x4#4 => some .wclose
  | 0x5#4 => some .ropen
  | 0x6#4 => some .rbit
  | 0x7#4 => some .rbyte
  | 0x8#4 => some .rclose
  | 0x9#4 => some .encsym
  | 0xA#4 => some .encode
  | 0xB#4 => some .decsym
  | 0xC#4 => some .decode
  | _ => none

/-- The `ARG` use column of 30_encoding.md R62. -/
def Op.argUse : Op → ArgUse
  | .wopen | .wbit | .ropen => .flag
  | .wbyte => .byte
  | .encsym => .sym
  | .wclose | .rbit | .rbyte | .rclose | .encode | .decsym | .decode => .none

/-- The must-be-zero part of `ARG` is 0 for this use of it, in a build with symbols of `symW` bits (30_encoding.md R61). -/
def ArgUse.mbzOk (u : ArgUse) (symW : Nat) (arg : BitVec 8) : Bool :=
  match u with
  | .none => arg == 0#8
  | .flag => arg &&& 0xFE#8 == 0#8
  | .byte => true
  | .sym => arg >>> symW == 0#8

/-- The fields of a word (30_encoding.md R60). -/
def CmdFields.ofWord (w : Word) : CmdFields where
  z1 := w.extractLsb' 16 16
  op := w.extractLsb' 12 4
  z0 := w.extractLsb' 8 4
  arg := w.extractLsb' 0 8

/-- A field of a word, `v` placed with its bit 0 at bit `lo`, all other bits 0 (00_scope.md R6). -/
def placeAt {n : Nat} (v : BitVec n) (lo : Nat) : Word := v.setWidth 32 <<< lo

/-- The word with these fields (30_encoding.md R60). -/
def CmdFields.toWord (f : CmdFields) : Word :=
  placeAt f.z1 16 ||| placeAt f.op 12 ||| placeAt f.z0 8 ||| placeAt f.arg 0

/-- The command of an operation with its operand taken from `ARG` (30_encoding.md R61, R62). -/
def Op.instr (op : Op) (arg : BitVec 8) : Instr :=
  match op with
  | .wopen => .wopen (arg.getLsbD 0)
  | .wbit => .wbit (arg.getLsbD 0)
  | .wbyte => .wbyte arg
  | .wclose => .wclose
  | .ropen => .ropen (arg.getLsbD 0)
  | .rbit => .rbit
  | .rbyte => .rbyte
  | .rclose => .rclose
  | .encsym => .encsym arg
  | .encode => .encode
  | .decsym => .decsym
  | .decode => .decode

/-- Decode a command word: `RsvdOp` is tested before `RsvdBits` (30_encoding.md R63, 60_exceptions.md R187). Of the parameters
only `SYM_W` matters, to `ENCSYM` (R61 d). -/
def decodeWord (w : Word) (p : Params := .default) : Except WordError Instr :=
  let f := CmdFields.ofWord w
  match Op.ofBits f.op with
  | none => .error .rsvdOp
  | some op => if f.z1 == 0#16 && f.z0 == 0#4 && op.argUse.mbzOk p.symW f.arg then .ok (op.instr f.arg)
    else .error .rsvdBits

/-- The `OP` column of 30_encoding.md R62. -/
def Op.bits : Op → BitVec 4
  | .wopen => 0x1#4
  | .wbit => 0x2#4
  | .wbyte => 0x3#4
  | .wclose => 0x4#4
  | .ropen => 0x5#4
  | .rbit => 0x6#4
  | .rbyte => 0x7#4
  | .rclose => 0x8#4
  | .encsym => 0x9#4
  | .encode => 0xA#4
  | .decsym => 0xB#4
  | .decode => 0xC#4

/-- The operation of a command. -/
def Instr.op : Instr → Op
  | .wopen _ => .wopen
  | .wbit _ => .wbit
  | .wbyte _ => .wbyte
  | .wclose => .wclose
  | .ropen _ => .ropen
  | .rbit => .rbit
  | .rbyte => .rbyte
  | .rclose => .rclose
  | .encsym _ => .encsym
  | .encode => .encode
  | .decsym => .decsym
  | .decode => .decode

/-- `ARG` of a command (30_encoding.md R61): a flag in bit 0, a byte or the operand of `ENCSYM` as it stands, else 0. -/
def Instr.arg : Instr → BitVec 8
  | .wopen leave => (BitVec.ofBool leave).setWidth 8
  | .wbit b => (BitVec.ofBool b).setWidth 8
  | .wbyte v => v
  | .ropen leave => (BitVec.ofBool leave).setWidth 8
  | .encsym s => s
  | .wclose | .rbit | .rbyte | .rclose | .encode | .decsym | .decode => 0#8

/-- The word of a command (30_encoding.md R60 to R62). -/
def encodeWord (i : Instr) : Word :=
  CmdFields.toWord { z1 := 0#16, op := i.op.bits, z0 := 0#4, arg := i.arg }

/-- One row of the opcode map: a word `w` is the command of the row exactly when `w &&& mask = pattern`
(30_encoding.md R62; its column "match" is `pattern` here). -/
structure OpcodeRow where
  op : Op
  pattern : Word
  mask : Word
  deriving DecidableEq, Repr

/-- The opcode map, transcribed from 30_encoding.md R62: the mask of `ENCSYM` is the one of `SYM_W` = 8. -/
def opcodeRows : List OpcodeRow :=
  [ ⟨.wopen, 0x00001000#32, 0xFFFFFFFE#32⟩,
    ⟨.wbit, 0x00002000#32, 0xFFFFFFFE#32⟩,
    ⟨.wbyte, 0x00003000#32, 0xFFFFFF00#32⟩,
    ⟨.wclose, 0x00004000#32, 0xFFFFFFFF#32⟩,
    ⟨.ropen, 0x00005000#32, 0xFFFFFFFE#32⟩,
    ⟨.rbit, 0x00006000#32, 0xFFFFFFFF#32⟩ ] ++
  [ ⟨.rbyte, 0x00007000#32, 0xFFFFFFFF#32⟩,
    ⟨.rclose, 0x00008000#32, 0xFFFFFFFF#32⟩,
    ⟨.encsym, 0x00009000#32, 0xFFFFFF00#32⟩,
    ⟨.encode, 0x0000A000#32, 0xFFFFFFFF#32⟩,
    ⟨.decsym, 0x0000B000#32, 0xFFFFFFFF#32⟩,
    ⟨.decode, 0x0000C000#32, 0xFFFFFFFF#32⟩ ]

/-- The word is the command of the row (30_encoding.md R62). -/
def OpcodeRow.accepts (r : OpcodeRow) (w : Word) : Bool := w &&& r.mask == r.pattern

/-- No word matches both rows: they differ on a bit that both masks look at. -/
def OpcodeRow.disjoint (r q : OpcodeRow) : Bool := (r.pattern ^^^ q.pattern) &&& r.mask &&& q.mask != 0#32

/-- The instruction this decoder reads from an instruction whose bits are `w`, `nbits` of them, bit 0 the least
significant bit of the one 32-bit word, in the build with the default parameters; a longer value is no command word (30_encoding.md R60). -/
def decodeTableWord (nbits w : Nat) : Option Instr :=
  if w % 2 ^ nbits < 2 ^ Params.default.busW then
    match decodeWord (BitVec.ofNat 32 (w % 2 ^ nbits)) with
    | .ok i => some i
    | .error _ => none
  else none

end Sys2Proof
end

