-- ==== Sys2Proof/Machine/State.lean ====
section
/-!
DEFINITION. Everything the machine holds, as plain data: the unit's state (spec/10_state.md R10), the environment behind
the ports (20_memory.md R49) and the host's side (00_scope.md R2); the reasons a step can stop; the state after reset.
-/
namespace Sys2Proof.Machine

variable {p : Params}

/-- The writer (10_state.md R13 to R15). -/
structure Writer (p : Params) where
  /-- `WBUF`: the partial byte, its `WCNT` bits at the top. -/
  wbuf : Byte
  /-- `WCNT`: bits accumulated and not yet emitted, 0 to 7. -/
  wcnt : BitVec 3
  /-- `WBITS`: bits accepted since `WOPEN`. -/
  wbits : Counter p
  /-- `WBYTES`: bytes the sink accepted since `WOPEN`. -/
  wbytes : Counter p
  /-- `WOPENF`: the writer wraps a sink. -/
  wopenf : Bool
  /-- `WLEAVE`: leave-open mode. -/
  wleave : Bool
  deriving DecidableEq, Repr

/-- The reader (10_state.md R16 to R19). -/
structure Reader (p : Params) where
  /-- `RBUF`: the last byte pulled. -/
  rbuf : Byte
  /-- `RCNT`: bits of `RBUF` not yet delivered, 0 to 8. -/
  rcnt : BitVec 4
  /-- `REOF`: the source has answered `EndOfInput`. -/
  reof : Bool
  /-- `RBITS`: bits delivered since `ROPEN`. -/
  rbits : Counter p
  /-- `RBYTES`: bytes pulled since `ROPEN`. -/
  rbytes : Counter p
  /-- `ROPENF`: the reader wraps a source. -/
  ropenf : Bool
  /-- `RLEAVE`: leave-open mode. -/
  rleave : Bool
  deriving DecidableEq, Repr

/-- The decoder (10_state.md R20 to R22). -/
structure Decoder (p : Params) where
  /-- `ACC_RAW`: the accumulated bits, the oldest most significant. -/
  accRaw : RawCode p
  /-- `ACC_LEN`: how many bits are accumulated. -/
  accLen : CodeLen
  /-- `CUR`: the node the walk stands at. -/
  cur : NodeIdx p
  /-- `DCOUNT`: symbols emitted since `ROPEN`. -/
  dcount : Counter p
  deriving DecidableEq, Repr

/-- The configuration registers (10_state.md R23 to R25). -/
structure Conf (p : Params) where
  /-- `ROOT`. -/
  root : NodeIdx p
  /-- `MAXLEN`. -/
  maxlen : CodeLen
  /-- `DLIMIT`: expected number of symbols, 0 for no limit. -/
  dlimit : Word
  deriving DecidableEq, Repr

/-- One entry of the code table, as its two words hold it (10_state.md R27, 30_encoding.md R67). -/
structure CodeEntry (p : Params) where
  /-- `VALID`: the symbol is in the table. -/
  valid : Bool
  /-- `LEN`: the length of its code. -/
  len : CodeLen
  /-- `CT_RAW`: the word last written, all 32 bits of it (20_memory.md R43); `RAW` is its bits `LMAX`-1:0 (`CodeEntry.raw`). -/
  rawWord : Word
  deriving DecidableEq, Repr

/-- An addressed store as data: (index, content) pairs, indexes strictly rising, none listed whose content is what an
unlisted index reads as (notes/assumptions/12.md). -/
abbrev Cells (α : Type) := List (Nat × α)

/-- What a node nothing has written reads as: an Internal node with no child present (10_state.md R36). -/
def Cells.nodeAtReset : Word := 0x00000000#32

/-- What a code-table entry nothing has written reads as: absent (10_state.md R36). -/
def Cells.codeAtReset : CodeEntry p := { valid := false, len := 0#6, rawWord := 0#32 }

/-- The stores the host loads: `NODE` (10_state.md R26) and `CT` (R27). -/
structure Memory (p : Params) where
  node : Cells Word
  ct : Cells (CodeEntry p)
  deriving DecidableEq, Repr

/-- The command and result registers (10_state.md R28 to R32). -/
structure Regs where
  /-- `CMD`: the last word written to it. -/
  cmd : Word
  /-- `STATUS`: the outcome of the last command. -/
  status : Word
  /-- `RESULT`: the value a command returns. -/
  result : Word
  /-- `FAULTS`: sticky record of the error kinds. -/
  faults : Word
  /-- `IOINFO`: the code of the last `IoError`. -/
  ioinfo : Word
  deriving DecidableEq, Repr

/-- The ports (00_scope.md R7, 20_memory.md R45 to R48). -/
inductive Port where
  | sinkWrite | sinkRelease | sourceRead | sourceRelease | symRead | symWrite
  deriving DecidableEq, Repr

/-- How the environment answers one call of a byte port (92_eei_decisions.md P1). -/
inductive PortAnswer where
  /-- It does what an error-free environment does (20_memory.md R49). -/
  | ok
  /-- It answers `IoError(e)`; `e` is opaque (00_scope.md R7). -/
  | ioError (e : Word)
  /-- It never answers (93_implementation_defined.md U7). -/
  | never
  deriving DecidableEq, Repr

/-- How the environment answers one call of a symbol port, which cannot fail (20_memory.md R47, R48). -/
inductive SymAnswer where
  | ok
  | never
  deriving DecidableEq, Repr

/-- One call of a port, with the value handed over. -/
inductive PortCall (p : Params) where
  | sinkWrite (b : Byte)
  | sinkRelease
  | sourceRead
  | sourceRelease
  | symRead
  | symWrite (s : Sym p)
  deriving DecidableEq, Repr

/-- The environment behind the ports (20_memory.md R49). The answer lists are what the environment will answer to the
next calls of each port, in order; past the end of its list a port answers as the error-free environment does
(notes/assumptions/2.md). -/
structure Env (p : Params) where
  /-- The bytes the sink has accepted, in order. -/
  sink : List Byte
  /-- `SinkRelease` has been called on this sink. -/
  sinkReleased : Bool
  /-- The bytes the source has still to give. -/
  source : List Byte
  /-- `SourceRelease` has been called on this source. -/
  sourceReleased : Bool
  /-- The symbols still to come on the symbol input. -/
  symIn : List (Sym p)
  /-- The symbols delivered on the symbol output, in order. -/
  symOut : List (Sym p)
  sinkWriteAns : List PortAnswer
  sinkReleaseAns : List PortAnswer
  sourceReadAns : List PortAnswer
  sourceReleaseAns : List PortAnswer
  symReadAns : List SymAnswer
  symWriteAns : List SymAnswer
  /-- The port calls made so far, oldest first; nothing reads it (notes/assumptions/13.md). -/
  calls : List (PortCall p)
  deriving DecidableEq, Repr

/-- What the host does next: a register access (20_memory.md R41), a reset (70_reset_and_hazards.md R200), or presenting
what stands behind a port (R203, R204; notes/assumptions/5.md). -/
inductive HostAction (p : Params) where
  /-- `MemWrite(addr, 4, v)`. -/
  | write (addr : Nat) (v : Word)
  /-- `MemRead(addr, 4)`. -/
  | read (addr : Nat)
  /-- The reset input. -/
  | reset
  /-- Present a sink that already holds some bytes. -/
  | presentSink (held : List Byte) (writeAns releaseAns : List PortAnswer)
  /-- Present a source. -/
  | presentSource (bytes : List Byte) (readAns releaseAns : List PortAnswer)
  /-- Present a symbol input. -/
  | presentSymIn (syms : List (Sym p)) (ans : List SymAnswer)
  /-- Present a symbol output that already holds some symbols. -/
  | presentSymOut (held : List (Sym p)) (ans : List SymAnswer)
  deriving DecidableEq, Repr

/-- The host's side: its actions still to happen and the words its reads have returned, both oldest first
(notes/assumptions/4.md, 13.md). -/
structure HostSide (p : Params) where
  pending : List (HostAction p)
  reads : List Word
  deriving DecidableEq, Repr

/-- The whole machine of a build; without a build named, of the one with the default parameters (00_scope.md R5,
notes/assumptions/1.md). The first six fields are the unit's state (10_state.md R10); `env` and `host` are outside it. -/
structure State (p : Params := .default) where
  writer : Writer p
  reader : Reader p
  decoder : Decoder p
  conf : Conf p
  mem : Memory p
  regs : Regs
  env : Env p
  host : HostSide p
  deriving DecidableEq, Repr

/-- Why the machine is stuck. The unit's own errors are no faults: they are next states with `STATUS` written
(60_exceptions.md R184). -/
inductive Fault where
  /-- Raised by every command that calls a port the environment never answers: the command never completes, the write to
  `CMD` never returns, no later command runs (70_reset_and_hazards.md R212, 93_implementation_defined.md U7). Safe: there
  is no later state of which anything could be claimed. -/
  | portNeverAnswered (p : Port)
  deriving DecidableEq, Repr

/-- What has no meaning in the model. -/
inductive Refusal where
  /-- An instruction rejected by name in Machine/Dispatch.lean because it has no meaning yet. Raised by no step while no arm
  is such. Safe. -/
  | notModelled (mnemonic : String)
  /-- Raised by a host access whose offset is no multiple of 4: the register bus has no such access (20_memory.md R41,
  92_eei_decisions.md D31, 93_implementation_defined.md U3). Safe: the model stops where a platform might go on. -/
  | unalignedAccess (addr : Nat)
  deriving DecidableEq, Repr

/-- The writer after reset (10_state.md R36). -/
def Writer.atReset : Writer p :=
  { wbuf := 0#8, wcnt := 0#3, wbits := 0#_, wbytes := 0#_, wopenf := false, wleave := false }

/-- The reader after reset (10_state.md R36). -/
def Reader.atReset : Reader p :=
  { rbuf := 0#8, rcnt := 0#4, reof := false, rbits := 0#_, rbytes := 0#_, ropenf := false, rleave := false }

/-- The decoder after reset (10_state.md R36). -/
def Decoder.atReset : Decoder p :=
  { accRaw := 0#_, accLen := 0#6, cur := 0#_, dcount := 0#_ }

/-- The configuration registers after reset (10_state.md R36); `MAXLEN` = 0 is illegal on purpose. -/
def Conf.atReset : Conf p := { root := 0#_, maxlen := 0#6, dlimit := 0#32 }

/-- The stores after reset: nothing listed, so every node and every entry is what R36 gives (10_state.md). -/
def Memory.atReset : Memory p := { node := [], ct := [] }

/-- The command and result registers after reset (10_state.md R36). -/
def Regs.atReset : Regs := { cmd := 0#32, status := 0#32, result := 0#32, faults := 0#32, ioinfo := 0#32 }

/-- An environment with empty streams that answers every call without error (notes/assumptions/11.md). -/
def Env.atReset : Env p :=
  { sink := [], sinkReleased := false, source := [], sourceReleased := false, symIn := [], symOut := [],
    sinkWriteAns := [], sinkReleaseAns := [], sourceReadAns := [], sourceReleaseAns := [],
    symReadAns := [], symWriteAns := [], calls := [] }

/-- The machine of a build right after reset (10_state.md R36, 70_reset_and_hazards.md R201), in an empty environment with a
host that has asked for nothing yet (notes/assumptions/11.md). -/
def State.resetOf (p : Params) : State p :=
  { writer := Writer.atReset, reader := Reader.atReset, decoder := Decoder.atReset, conf := Conf.atReset,
    mem := Memory.atReset, regs := Regs.atReset, env := Env.atReset, host := { pending := [], reads := [] } }

/-- The machine right after reset, in the build with the default parameters (00_scope.md R5, 10_state.md R36). -/
def State.reset : State := State.resetOf .default

end Sys2Proof.Machine
end

