-- ==== Sys2Proof/Machine/Flags.lean ====
section
/-!
DEFINITION. Error kinds, result kinds and sub-causes with their codes, the `STATUS` and `FAULTS` words, the view words
(spec/30_encoding.md R68 to R70, 60_exceptions.md R181, R182).
-/
namespace Sys2Proof.Machine

variable {p : Params}

/-- The error kinds (60_exceptions.md R181). This block raises neither `emptyAlphabet` nor `invalidTable`. -/
inductive ErrKind where
  | ok | emptyAlphabet | unknownSymbol | corruptStream | invalidTable | ioError | badCommand | badState | badConfig
  deriving DecidableEq, Repr

/-- The `ERR` code of a kind (30_encoding.md R68, 60_exceptions.md R181). -/
def ErrKind.code : ErrKind → BitVec 4
  | .ok => 0#4
  | .emptyAlphabet => 1#4
  | .unknownSymbol => 2#4
  | .corruptStream => 3#4
  | .invalidTable => 4#4
  | .ioError => 5#4
  | .badCommand => 6#4
  | .badState => 7#4
  | .badConfig => 8#4

/-- The result kinds of a command that completes (30_encoding.md R68). -/
inductive ResKind where
  | none | value | endOfInput | limit
  deriving DecidableEq, Repr

/-- The `RES` code (30_encoding.md R68). -/
def ResKind.code : ResKind → BitVec 2
  | .none => 0#2
  | .value => 1#2
  | .endOfInput => 2#2
  | .limit => 3#2

/-- Sub-causes of `CorruptStream` (60_exceptions.md R182). -/
inductive CorruptSub where
  | truncated | tooLong | noChild
  deriving DecidableEq, Repr

/-- Sub-causes of `IoError`: the port call that failed (60_exceptions.md R182). -/
inductive IoSub where
  | sinkWrite | sinkRelease | sourceRead | sourceRelease
  deriving DecidableEq, Repr

/-- Sub-causes of `BadState` (60_exceptions.md R182). -/
inductive StateSub where
  | writerNotOpen | writerAlreadyOpen | readerNotOpen | readerAlreadyOpen
  deriving DecidableEq, Repr

/-- Sub-causes of `BadConfig` (60_exceptions.md R182). -/
inductive ConfigSub where
  | badMaxLen | rootIsLeaf | badCodeLen
  deriving DecidableEq, Repr

/-- What a command can raise, with its sub-cause and, for an I/O error, the port's code (60_exceptions.md R182). -/
inductive Raise where
  | unknownSymbol
  | corrupt (c : CorruptSub)
  | io (c : IoSub) (e : Word)
  | badCommand (c : WordError)
  | badState (c : StateSub)
  | badConfig (c : ConfigSub)
  deriving DecidableEq, Repr

/-- The kind of what was raised (60_exceptions.md R181). -/
def Raise.kind : Raise → ErrKind
  | .unknownSymbol => .unknownSymbol
  | .corrupt _ => .corruptStream
  | .io _ _ => .ioError
  | .badCommand _ => .badCommand
  | .badState _ => .badState
  | .badConfig _ => .badConfig

/-- The `SUB` code of what was raised (60_exceptions.md R182). -/
def Raise.sub : Raise → BitVec 3
  | .unknownSymbol => 0#3
  | .corrupt .truncated => 1#3
  | .corrupt .tooLong => 2#3
  | .corrupt .noChild => 3#3
  | .io .sinkWrite _ => 1#3
  | .io .sinkRelease _ => 2#3
  | .io .sourceRead _ => 3#3
  | .io .sourceRelease _ => 4#3
  | .badCommand .rsvdOp => 1#3
  | .badCommand .rsvdBits => 2#3
  | .badState .writerNotOpen => 1#3
  | .badState .writerAlreadyOpen => 2#3
  | .badState .readerNotOpen => 3#3
  | .badState .readerAlreadyOpen => 4#3
  | .badConfig .badMaxLen => 1#3
  | .badConfig .rootIsLeaf => 2#3
  | .badConfig .badCodeLen => 3#3

/-- The `STATUS` word: `ERR` in 3:0, `RES` in 5:4, `SUB` in 10:8, all else 0 (30_encoding.md R68). -/
def statusWord (err : BitVec 4) (res : BitVec 2) (sub : BitVec 3) : Word :=
  placeAt err 0 ||| placeAt res 4 ||| placeAt sub 8

/-- `STATUS` of a command that completes with this result kind (60_exceptions.md R184). -/
def statusOk (k : ResKind) : Word := statusWord ErrKind.ok.code k.code 0#3

/-- `STATUS` of a command that raised: `RES` = `None` (60_exceptions.md R184). -/
def statusOf (r : Raise) : Word := statusWord r.kind.code ResKind.none.code r.sub

/-- The `ERR` field of a `STATUS` word (30_encoding.md R68). -/
def errField (status : Word) : BitVec 4 := status.extractLsb' 0 4

/-- The `RES` field of a `STATUS` word (30_encoding.md R68). -/
def resField (status : Word) : BitVec 2 := status.extractLsb' 4 2

/-- The `SUB` field of a `STATUS` word (30_encoding.md R68). -/
def subField (status : Word) : BitVec 3 := status.extractLsb' 8 3

/-- The bit of `FAULTS` that records a kind: bit `k` for `ERR` = `k` (10_state.md R31, 30_encoding.md R69). -/
def faultBit (k : ErrKind) : Word := 1#32 <<< k.code.toNat

/-- `WSTATE`: bit 0 `WOPENF`, bit 1 `WLEAVE`, bits 6:4 `WCNT`, bits 15:8 `WBUF` (30_encoding.md R70). -/
def wstate (w : Writer p) : Word :=
  placeAt (BitVec.ofBool w.wopenf) 0 ||| placeAt (BitVec.ofBool w.wleave) 1 ||| placeAt w.wcnt 4 ||| placeAt w.wbuf 8

/-- `RSTATE`: bit 0 `ROPENF`, bit 1 `RLEAVE`, bit 2 `REOF`, bits 7:4 `RCNT`, bits 15:8 `RBUF` (30_encoding.md R70). -/
def rstate (r : Reader p) : Word :=
  placeAt (BitVec.ofBool r.ropenf) 0 ||| placeAt (BitVec.ofBool r.rleave) 1 ||| placeAt (BitVec.ofBool r.reof) 2 |||
    placeAt r.rcnt 4 ||| placeAt r.rbuf 8

/-- `ACCSTATE`: bits 5:0 `ACC_LEN`, bits 24:16 `CUR` (30_encoding.md R70). -/
def accstate (d : Decoder p) : Word := placeAt d.accLen 0 ||| placeAt d.cur 16

end Sys2Proof.Machine
end

