-- ==== Sys2Proof/Machine/Operands.lean ====
section
/-!
DEFINITION. The stored operands of the commands: node words and code-table entries, their fields, their words
(spec/30_encoding.md R66, R67; 43_decoder.md R137).
-/
namespace Sys2Proof.Machine

variable {p : Params}

/-- `isLeaf(n) = n[31]` (30_encoding.md R66). -/
def isLeaf (n : Word) : Bool := n.getLsbD 31

/-- `sym(n) = n[SYM_W-1:0]` (30_encoding.md R66). -/
def symOf (n : Word) (p : Params := .default) : Sym p := n.extractLsb' 0 p.symW

/-- `LV`: the left child is present (30_encoding.md R66). -/
def leftPresent (n : Word) : Bool := n.getLsbD 9

/-- `LEFT`: the index of the left child, `NIDX_W` bits (30_encoding.md R66; notes/assumptions/1.md). -/
def leftIdx (n : Word) (p : Params := .default) : NodeIdx p := n.extractLsb' 0 p.nidxW

/-- `RV`: the right child is present (30_encoding.md R66). -/
def rightPresent (n : Word) : Bool := n.getLsbD 25

/-- `RIGHT`: the index of the right child, `NIDX_W` bits (30_encoding.md R66; notes/assumptions/1.md). -/
def rightIdx (n : Word) (p : Params := .default) : NodeIdx p := n.extractLsb' 16 p.nidxW

/-- A node's present children, left before right (43_decoder.md R137). -/
def presentChildren (n : Word) (p : Params := .default) : List (NodeIdx p) :=
  (if leftPresent n then [leftIdx n p] else []) ++ (if rightPresent n then [rightIdx n p] else [])

/-- `child(n, b)`: the present child whose position is `b`, if there is one (43_decoder.md R137). A lone child, in either
slot, is selected by 0 (90_conflicts.md C1). -/
def child (n : Word) (b : Bool) (p : Params := .default) : Option (NodeIdx p) := (presentChildren n p)[b.toNat]?

/-- The Leaf word of a symbol, ignored bits 0 (30_encoding.md R64 `.leaf`, R66). -/
def leafWord (s : Sym p) : Word := placeAt 1#1 31 ||| placeAt s 0

/-- One child of an Internal word, its index at bit `idx` and its presence bit at `present` (30_encoding.md R66). -/
def childField (c : Option (NodeIdx p)) (idx present : Nat) : Word :=
  match c with
  | none => 0#32
  | some i => placeAt i idx ||| placeAt 1#1 present

/-- The Internal word with these children, ignored bits 0 (30_encoding.md R64 `.int`, R66). -/
def intWord (l r : Option (NodeIdx p)) : Word := childField l 0 9 ||| childField r 16 25

/-- `CT_LEN` of an entry: bit 31 `VALID`, bits 5:0 `LEN`, the rest 0 (30_encoding.md R67). -/
def ctLenWord (e : CodeEntry p) : Word := placeAt (BitVec.ofBool e.valid) 31 ||| placeAt e.len 0

/-- An entry with `VALID` and `LEN` taken from a word written to `CT_LEN`; bits 30:6 are dropped (20_memory.md R43). -/
def setCtLen (e : CodeEntry p) (v : Word) : CodeEntry p :=
  { e with valid := v.getLsbD 31, len := v.extractLsb' 0 6 }

/-- `RAW`: bits `LMAX`-1:0 of `CT_RAW` (10_state.md R27, 20_memory.md R42, 30_encoding.md R67). -/
def CodeEntry.raw (e : CodeEntry p) : RawCode p := e.rawWord.setWidth p.lmax

/-- An entry with `CT_RAW` written: all 32 bits are stored (20_memory.md R43, 92_eei_decisions.md D28). -/
def setCtRaw (e : CodeEntry p) (v : Word) : CodeEntry p := { e with rawWord := v }

/-- `LEN` = 0 or `LEN` > `LMAX`: no length of a Code (42_encoder.md R121). -/
def badCodeLen (e : CodeEntry p) : Bool := e.len.toNat == 0 || p.lmax < e.len.toNat

end Sys2Proof.Machine
end

