-- ==== Sys2Proof/Machine/Ops.lean ====
section
/-!
DEFINITION. The shared operations: updates of State, the stores, how a command body runs, the port calls
(spec/20_memory.md R45 to R49), and the execution frame with error entry (60_exceptions.md R184).
-/
namespace Sys2Proof.Machine

variable {p : Params}

/-! ## Updates -/

def State.setWriter (s : State p) (w : Writer p) : State p := { s with writer := w }
def State.setReader (s : State p) (r : Reader p) : State p := { s with reader := r }
def State.setDecoder (s : State p) (d : Decoder p) : State p := { s with decoder := d }
def State.setConf (s : State p) (c : Conf p) : State p := { s with conf := c }
def State.setMem (s : State p) (m : Memory p) : State p := { s with mem := m }
def State.setRegs (s : State p) (r : Regs) : State p := { s with regs := r }
def State.setEnv (s : State p) (e : Env p) : State p := { s with env := e }
def State.setHost (s : State p) (h : HostSide p) : State p := { s with host := h }

/-- `RESULT <- v` (10_state.md R30). -/
def State.setResult (s : State p) (v : Word) : State p := s.setRegs { s.regs with result := v }

/-- `STATUS <- v` (10_state.md R29). -/
def State.setStatus (s : State p) (v : Word) : State p := s.setRegs { s.regs with status := v }

/-- `CMD <- v` (10_state.md R28). -/
def State.setCmd (s : State p) (v : Word) : State p := s.setRegs { s.regs with cmd := v }

/-! ## The stores -/

/-- What index `i` holds: the content of the first pair with that index, else what an unlisted index reads as. -/
def Cells.get {α : Type} (dflt : α) : Cells α → Nat → α
  | [], _ => dflt
  | (k, v) :: m, i => if k = i then v else Cells.get dflt m i

/-- The store without index `i`. -/
def Cells.erase {α : Type} (m : Cells α) (i : Nat) : Cells α := List.filter (fun c => c.1 != i) m

/-- The store with a pair put before the first larger index. -/
def Cells.insert {α : Type} (i : Nat) (v : α) : Cells α → Cells α
  | [] => [(i, v)]
  | (k, w) :: m => if i < k then (i, v) :: (k, w) :: m else (k, w) :: Cells.insert i v m

/-- The store with `v` at index `i`, in canonical form: writing what an unlisted index reads as unlists it. -/
def Cells.put {α : Type} [DecidableEq α] (dflt : α) (m : Cells α) (i : Nat) (v : α) : Cells α :=
  if v = dflt then Cells.erase m i else Cells.insert i v (Cells.erase m i)

/-- The canonical form: indexes strictly rising and below `bound`, no content listed that an unlisted index reads as. -/
def Cells.wf {α : Type} [DecidableEq α] (dflt : α) (bound : Nat) : Cells α → Bool
  | [] => true
  | (k, v) :: m => decide (k < bound) && decide (v ≠ dflt) && m.all (fun c => decide (k < c.1)) && Cells.wf dflt bound m

/-- Both stores are in canonical form (notes/assumptions/12.md). -/
def Memory.wf (m : Memory p) : Bool :=
  Cells.wf Cells.nodeAtReset p.nNodes m.node && Cells.wf Cells.codeAtReset p.nSyms m.ct

/-- `NODE[i]` (00_scope.md R6, 10_state.md R26). -/
def Memory.nodeAt (m : Memory p) (i : NodeIdx p) : Word := Cells.get Cells.nodeAtReset m.node i.toNat

/-- `CT[s]` (00_scope.md R6, 10_state.md R27). -/
def Memory.codeAt (m : Memory p) (s : Sym p) : CodeEntry p := Cells.get Cells.codeAtReset m.ct s.toNat

/-- `NODE[i] <- v`: all 32 bits are stored (20_memory.md R43). -/
def Memory.setNode (m : Memory p) (i : NodeIdx p) (v : Word) : Memory p :=
  { m with node := Cells.put Cells.nodeAtReset m.node i.toNat v }

/-- `CT[s] <- e`. -/
def Memory.setCode (m : Memory p) (s : Sym p) (e : CodeEntry p) : Memory p :=
  { m with ct := Cells.put Cells.codeAtReset m.ct s.toNat e }

/-! ## How a command body runs -/

/-- What running a body, or a sub-step of one, comes to. A `raise` keeps the state it was raised in: nothing written before
it is undone (00_scope.md R6, 60_exceptions.md R184, R185). -/
inductive Run (p : Params) (α : Type) where
  /-- It returns. -/
  | done (a : α) (s : State p)
  /-- It raises; the whole command ends there. -/
  | raise (r : Raise) (s : State p)
  /-- It waits for a port that never answers. -/
  | never (port : Port)
  deriving DecidableEq, Repr

/-- One sub-step after another (00_scope.md R6: a `raise` inside a sub-step ends the whole command). -/
def Run.bind {α β : Type} (x : Run p α) (f : α → State p → Run p β) : Run p β :=
  match x with
  | .done a s => f a s
  | .raise r s => .raise r s
  | .never p => .never p

/-! ## Error entry and the execution frame -/

/-- Error entry, the unit's one way of taking an error (60_exceptions.md R184): with `IoError` the port's code goes to
`IOINFO` unchanged, `STATUS` is written with `RES` = `None`, the kind's bit of `FAULTS` is set. Nothing is saved and nothing
switched, so there is no return to model (R186). -/
def takeError (r : Raise) (s : State p) : State p :=
  s.setRegs { s.regs with
    ioinfo := match r with
      | .io _ e => e
      | _ => s.regs.ioinfo
    status := statusOf r
    faults := s.regs.faults ||| faultBit r.kind }

/-- Normal completion with result kind `k` (60_exceptions.md R184). -/
def complete (k : ResKind) (s : State p) : State p := s.setStatus (statusOk k)

/-- The end of a command whose body has run (60_exceptions.md R184). -/
def finish : Run p ResKind → Host.Outcome (State p) Fault Refusal
  | .done k s => .next (complete k s)
  | .raise r s => .next (takeError r s)
  | .never p => .fault (.portNeverAnswered p)

/-- The execution frame after the word is decoded: the precondition, then the body, then `STATUS`
(60_exceptions.md R184, R187). `pre` is the sub-cause of `BadState` if the precondition fails. -/
def runCommand (pre : Option StateSub) (body : State p → Run p ResKind) (s : State p) : Host.Outcome (State p) Fault Refusal :=
  match pre with
  | some c => .next (takeError (.badState c) s)
  | none => finish (body s)

/-- `WOPENF` = 1, the precondition of `WBIT`, `WBYTE`, `WCLOSE`, `ENCSYM`, `ENCODE` (40_bitwriter.md R80, 42_encoder.md R120). -/
def needWriterOpen (s : State p) : Option StateSub :=
  if s.writer.wopenf then none else some .writerNotOpen

/-- `WOPENF` = 0, the precondition of `WOPEN` (40_bitwriter.md R80). -/
def needWriterClosed (s : State p) : Option StateSub :=
  if s.writer.wopenf then some .writerAlreadyOpen else none

/-- `ROPENF` = 1, the precondition of `RBIT`, `RBYTE`, `RCLOSE`, `DECSYM`, `DECODE` (41_bitreader.md R100). -/
def needReaderOpen (s : State p) : Option StateSub :=
  if s.reader.ropenf then none else some .readerNotOpen

/-- `ROPENF` = 0, the precondition of `ROPEN` (41_bitreader.md R100). -/
def needReaderClosed (s : State p) : Option StateSub :=
  if s.reader.ropenf then some .readerAlreadyOpen else none

/-! ## The ports -/

/-- The environment's answer to the next call of a byte port: the head of its list, `ok` past its end
(notes/assumptions/2.md). -/
def nextAnswer : List PortAnswer → PortAnswer
  | [] => .ok
  | a :: _ => a

/-- The environment's answer to the next call of a symbol port. -/
def nextSymAnswer : List SymAnswer → SymAnswer
  | [] => .ok
  | a :: _ => a

/-- What a sink or a release answers (20_memory.md R45, R46). -/
inductive Reply where
  | ok
  | ioError (e : Word)
  deriving DecidableEq, Repr

/-- What `SourceRead` answers (20_memory.md R46). -/
inductive SourceReply where
  | byte (b : Byte)
  | endOfInput
  | ioError (e : Word)
  deriving DecidableEq, Repr

/-- `SinkWrite(b)`: on `Ok` the byte is the next byte of the output stream, on `IoError` it is not part of it
(20_memory.md R45; notes/assumptions/7.md). -/
def sinkWrite (b : Byte) (s : State p) : Run p Reply :=
  let called := { s.env with sinkWriteAns := s.env.sinkWriteAns.tail, calls := s.env.calls ++ [.sinkWrite b] }
  match nextAnswer s.env.sinkWriteAns with
  | .ok => .done .ok (s.setEnv { called with sink := s.env.sink ++ [b] })
  | .ioError e => .done (.ioError e) (s.setEnv called)
  | .never => .never .sinkWrite

/-- `SinkRelease()` (20_memory.md R45; notes/assumptions/6.md). -/
def sinkRelease (s : State p) : Run p Reply :=
  let called := { s.env with
    sinkReleased := true, sinkReleaseAns := s.env.sinkReleaseAns.tail, calls := s.env.calls ++ [.sinkRelease] }
  match nextAnswer s.env.sinkReleaseAns with
  | .ok => .done .ok (s.setEnv called)
  | .ioError e => .done (.ioError e) (s.setEnv called)
  | .never => .never .sinkRelease

/-- `SourceRead()`: the next byte, or `EndOfInput` when none is left; `IoError` consumes nothing
(20_memory.md R46, R49, 41_bitreader.md R102 case d; notes/assumptions/8.md). -/
def sourceRead (s : State p) : Run p SourceReply :=
  let called := { s.env with sourceReadAns := s.env.sourceReadAns.tail, calls := s.env.calls ++ [.sourceRead] }
  match nextAnswer s.env.sourceReadAns with
  | .ok =>
    match s.env.source with
    | [] => .done .endOfInput (s.setEnv called)
    | b :: rest => .done (.byte b) (s.setEnv { called with source := rest })
  | .ioError e => .done (.ioError e) (s.setEnv called)
  | .never => .never .sourceRead

/-- `SourceRelease()` (20_memory.md R46; notes/assumptions/6.md). -/
def sourceRelease (s : State p) : Run p Reply :=
  let called := { s.env with
    sourceReleased := true, sourceReleaseAns := s.env.sourceReleaseAns.tail, calls := s.env.calls ++ [.sourceRelease] }
  match nextAnswer s.env.sourceReleaseAns with
  | .ok => .done .ok (s.setEnv called)
  | .ioError e => .done (.ioError e) (s.setEnv called)
  | .never => .never .sourceRelease

/-- `SymRead()`: the next symbol, or none for `EndOfSymbols`; it cannot fail (20_memory.md R47, R49). -/
def symRead (s : State p) : Run p (Option (Sym p)) :=
  let called := { s.env with symReadAns := s.env.symReadAns.tail, calls := s.env.calls ++ [.symRead] }
  match nextSymAnswer s.env.symReadAns with
  | .ok =>
    match s.env.symIn with
    | [] => .done none (s.setEnv called)
    | x :: rest => .done (some x) (s.setEnv { called with symIn := rest })
  | .never => .never .symRead

/-- `SymWrite(x)`: appends to the symbol output; it cannot fail (20_memory.md R48, R49). -/
def symWrite (x : Sym p) (s : State p) : Run p Unit :=
  match nextSymAnswer s.env.symWriteAns with
  | .ok => .done () (s.setEnv { s.env with
      symOut := s.env.symOut ++ [x], symWriteAns := s.env.symWriteAns.tail, calls := s.env.calls ++ [.symWrite x] })
  | .never => .never .symWrite

end Sys2Proof.Machine
end

