-- ==== Sys2Proof/Machine/BitReader.lean ====
section
/-!
DEFINITION. The BitReader commands `ROPEN`, `RBIT`, `RBYTE`, `RCLOSE` (spec/41_bitreader.md).
-/
namespace Sys2Proof.Machine

variable {p : Params}

/-- The reader of a new pass (41_bitreader.md R101). -/
def openedReader (leave : Bool) : Reader p :=
  { rbuf := 0#8, rcnt := 0#4, reof := false, rbits := 0#_, rbytes := 0#_, ropenf := true, rleave := leave }

/-- Body of `ROPEN`: reader and decoder state of the new pass, `CUR` from `ROOT`; no byte is pulled
(41_bitreader.md R101). -/
def ropenBody (leave : Bool) (s : State p) : Run p ResKind :=
  .done .none ((s.setReader (openedReader leave)).setDecoder
    { accRaw := 0#_, accLen := 0#6, cur := s.conf.root, dcount := 0#_ })

/-- What a bit read returns (41_bitreader.md R100, R102). -/
inductive BitResult where
  | bit (b : Bool)
  | endOfInput
  deriving DecidableEq, Repr

/-- `RBUF[RCNT - 1]` (41_bitreader.md R102); bit 7 of a byte first (R102 case a; notes/assumptions/15.md). -/
def nextBit (r : Reader p) : Bool := r.rbuf.getLsbD (r.rcnt.toNat - 1)

/-- The reader with one bit delivered (41_bitreader.md R102). -/
def bitDelivered (r : Reader p) : Reader p := { r with rcnt := r.rcnt - 1, rbits := r.rbits + 1 }

/-- The reader with a byte just pulled (41_bitreader.md R102). -/
def bytePulled (r : Reader p) (x : Byte) : Reader p := { r with rbuf := x, rcnt := 8#4, rbytes := r.rbytes + 1 }

/-- Deliver the next held bit (41_bitreader.md R102). -/
def deliverBit (s : State p) : Run p BitResult :=
  .done (.bit (nextBit s.reader)) (s.setReader (bitDelivered s.reader))

/-- The sub-step `RBIT()` (41_bitreader.md R102): the source is asked only when no bit is held and it has not answered
`EndOfInput` before. -/
def readBit (s : State p) : Run p BitResult :=
  if s.reader.rcnt = 0#4 then
    if s.reader.reof then .done .endOfInput s
    else (sourceRead s).bind fun r s =>
      match r with
      | .ioError e => .raise (.io .sourceRead e) s
      | .endOfInput => .done .endOfInput (s.setReader { s.reader with reof := true })
      | .byte x => deliverBit (s.setReader (bytePulled s.reader x))
  else deliverBit s

/-- What `RBIT` does as a command with the outcome of its sub-step (41_bitreader.md R102). -/
def bitToResult (r : BitResult) (s : State p) : Run p ResKind :=
  match r with
  | .bit b => .done .value (s.setResult ((BitVec.ofBool b).setWidth 32))
  | .endOfInput => .done .endOfInput (s.setResult 0#32)

/-- The loop of `RBYTE`: `n` more bits into `v`, the first read most significant; end-of-input ends the command with
`RESULT` = 0 (41_bitreader.md R103). -/
def readByteLoop : Nat → Byte → State p → Run p ResKind
  | 0, v, s => .done .value (s.setResult (v.setWidth 32))
  | n + 1, v, s => (readBit s).bind fun r s =>
    match r with
    | .endOfInput => .done .endOfInput (s.setResult 0#32)
    | .bit b => readByteLoop n (v ||| (BitVec.ofBool b).setWidth 8 <<< n) s

/-- Body of `RCLOSE` (41_bitreader.md R104): the reader ends closed even when the release fails. -/
def closeReader (s : State p) : Run p ResKind :=
  if s.reader.rleave then .done .none (s.setReader { s.reader with ropenf := false })
  else (sourceRelease s).bind fun r s =>
    let closed := s.setReader { s.reader with ropenf := false }
    match r with
    | .ok => .done .none closed
    | .ioError e => .raise (.io .sourceRelease e) closed

/-- `ROPEN`: begin a read pass (41_bitreader.md R101). -/
def execRopen (leave : Bool) (s : State p) : Host.Outcome (State p) Fault Refusal :=
  runCommand (needReaderClosed s) (ropenBody leave) s

/-- `RBIT`: read one bit (41_bitreader.md R102). -/
def execRbit (s : State p) : Host.Outcome (State p) Fault Refusal :=
  runCommand (needReaderOpen s) (fun s => (readBit s).bind bitToResult) s

/-- `RBYTE`: read eight bits (41_bitreader.md R103). -/
def execRbyte (s : State p) : Host.Outcome (State p) Fault Refusal :=
  runCommand (needReaderOpen s) (readByteLoop 8 0#8) s

/-- `RCLOSE`: release the source, end the pass (41_bitreader.md R104). -/
def execRclose (s : State p) : Host.Outcome (State p) Fault Refusal :=
  runCommand (needReaderOpen s) closeReader s

end Sys2Proof.Machine
end

