-- ==== Sys2Proof/Machine/BitWriter.lean ====
section
/-!
DEFINITION. The BitWriter commands `WOPEN`, `WBIT`, `WBYTE`, `WCLOSE` (spec/40_bitwriter.md).
-/
namespace Sys2Proof.Machine

variable {p : Params}

/-- The writer of a new pass (40_bitwriter.md R81). -/
def openedWriter (leave : Bool) : Writer p :=
  { wbuf := 0#8, wcnt := 0#3, wbits := 0#_, wbytes := 0#_, wopenf := true, wleave := leave }

/-- Body of `WOPEN` (40_bitwriter.md R81). -/
def wopenBody (leave : Bool) (s : State p) : Run p ResKind := .done .none (s.setWriter (openedWriter leave))

/-- `WBUF | (zext_8(b) << (7 - WCNT))` (40_bitwriter.md R82). -/
def placeBit (w : Writer p) (b : Bool) : Byte := w.wbuf ||| (BitVec.ofBool b).setWidth 8 <<< (7 - w.wcnt.toNat)

/-- The sub-step `WBIT(b)` (40_bitwriter.md R82). On `IoError` the bit stays counted and the full byte is lost. -/
def writeBit (b : Bool) (s : State p) : Run p Unit :=
  let w := s.writer
  let buf := placeBit w b
  if w.wcnt = 7#3 then
    (sinkWrite buf (s.setWriter { w with wbuf := 0#8, wcnt := 0#3, wbits := w.wbits + 1 })).bind fun r s =>
      match r with
      | .ioError e => .raise (.io .sinkWrite e) s
      | .ok => .done () (s.setWriter { s.writer with wbytes := s.writer.wbytes + 1 })
  else .done () (s.setWriter { w with wbuf := buf, wcnt := w.wcnt + 1, wbits := w.wbits + 1 })

/-- Bits `n-1` down to 0 of a value, each by the sub-step `WBIT` (40_bitwriter.md R83, 42_encoder.md R121, R123). -/
def writeBits {w : Nat} (raw : BitVec w) : Nat → State p → Run p Unit
  | 0, s => .done () s
  | n + 1, s => (writeBit (raw.getLsbD n) s).bind fun _ s => writeBits raw n s

/-- The first of two I/O errors met, the one that is reported (40_bitwriter.md R84 case c, 60_exceptions.md R187). -/
def firstIoError (first : Option (IoSub × Word)) (sub : IoSub) (r : Reply) : Option (IoSub × Word) :=
  match first, r with
  | some err, _ => some err
  | none, .ok => none
  | none, .ioError e => some (sub, e)

/-- The flush of `WCLOSE`: the partial byte, padded with the zeros `WBUF` holds, goes to the sink
(40_bitwriter.md R84). -/
def flushPartial (s : State p) : Run p (Option (IoSub × Word)) :=
  if s.writer.wcnt = 0#3 then .done none s
  else
    (sinkWrite s.writer.wbuf (s.setWriter { s.writer with wbuf := 0#8, wcnt := 0#3 })).bind fun r s =>
      match r with
      | .ok => .done none (s.setWriter { s.writer with wbytes := s.writer.wbytes + 1 })
      | .ioError e => .done (some (.sinkWrite, e)) s

/-- The release of `WCLOSE`, not made in leave-open mode, made also after a failed flush (40_bitwriter.md R84 cases c, d). -/
def releaseSink (err : Option (IoSub × Word)) (s : State p) : Run p (Option (IoSub × Word)) :=
  if s.writer.wleave then .done err s
  else (sinkRelease s).bind fun r s => .done (firstIoError err .sinkRelease r) s

/-- The sub-step `WCLOSE()` (40_bitwriter.md R84): flush, release, `WOPENF <- 0`, then the error if there was one. -/
def closeWriter (s : State p) : Run p Unit :=
  (flushPartial s).bind fun err s =>
    (releaseSink err s).bind fun err s =>
      let closed := s.setWriter { s.writer with wopenf := false }
      match err with
      | none => .done () closed
      | some (sub, e) => .raise (.io sub e) closed

/-- `WOPEN`: begin a write pass (40_bitwriter.md R81). -/
def execWopen (leave : Bool) (s : State p) : Host.Outcome (State p) Fault Refusal :=
  runCommand (needWriterClosed s) (wopenBody leave) s

/-- `WBIT`: write one bit (40_bitwriter.md R82). -/
def execWbit (b : Bool) (s : State p) : Host.Outcome (State p) Fault Refusal :=
  runCommand (needWriterOpen s) (fun s => (writeBit b s).bind fun _ s => .done .none s) s

/-- `WBYTE`: write eight bits, the most significant first (40_bitwriter.md R83). -/
def execWbyte (v : Byte) (s : State p) : Host.Outcome (State p) Fault Refusal :=
  runCommand (needWriterOpen s) (fun s => (writeBits v 8 s).bind fun _ s => .done .none s) s

/-- `WCLOSE`: flush the partial byte, release the sink, end the pass (40_bitwriter.md R84). -/
def execWclose (s : State p) : Host.Outcome (State p) Fault Refusal :=
  runCommand (needWriterOpen s) (fun s => (closeWriter s).bind fun _ s => .done .none s) s

end Sys2Proof.Machine
end

