-- ==== Sys2Proof/Machine/Decoder.lean ====
section
/-!
DEFINITION. The decoder commands `DECSYM`, `DECODE` and the tree walk (spec/43_decoder.md).
-/
namespace Sys2Proof.Machine

variable {p : Params}

/-- `checkConfig()`: what is wrong with the configuration, `BadMaxLen` before `RootIsLeaf` (43_decoder.md R135,
60_exceptions.md R187). -/
def checkConfig (s : State p) : Option ConfigSub :=
  if s.conf.maxlen.toNat = 0 ∨ p.lmax < s.conf.maxlen.toNat then some .badMaxLen
  else if isLeaf (s.mem.nodeAt s.conf.root) then some .rootIsLeaf
  else none

/-- What `DECSYM` returns (43_decoder.md R138). -/
inductive SymResult (p : Params) where
  | symbol (x : Sym p)
  | endOfInput
  deriving DecidableEq, Repr

/-- The empty accumulator at the root: `ACC_RAW <- 0; ACC_LEN <- 0; CUR <- ROOT` (43_decoder.md R138). -/
def startWalk (s : State p) : State p :=
  s.setDecoder { s.decoder with accRaw := 0#_, accLen := 0#6, cur := s.conf.root }

/-- A bit appended to the accumulator (10_state.md R20, 43_decoder.md R138); the bit shifted out at `LMAX` is lost. -/
def appendBit (d : Decoder p) (b : Bool) : Decoder p :=
  { d with accRaw := d.accRaw <<< 1 ||| (BitVec.ofBool b).setWidth p.lmax, accLen := d.accLen + 1 }

/-- What one bit does to the walk (43_decoder.md R138): the length test, then the dead end, then the move. It answers the
node moved to. -/
def walkBit (b : Bool) (s : State p) : Run p Word :=
  let s := s.setDecoder (appendBit s.decoder b)
  if s.conf.maxlen.toNat < s.decoder.accLen.toNat then .raise (.corrupt .tooLong) s
  else
    match child (s.mem.nodeAt s.decoder.cur) b p with
    | none => .raise (.corrupt .noChild) s
    | some c => .done (s.mem.nodeAt c) (s.setDecoder { s.decoder with cur := c })

/-- What reaching a Leaf does (43_decoder.md R138): the symbol goes out and to `RESULT`, is counted, and the walk is back
at the root with the accumulator empty. -/
def emitSymbol (x : Sym p) (s : State p) : Run p (SymResult p) :=
  (symWrite x s).bind fun _ s =>
    let s := s.setResult (x.setWidth 32)
    .done (.symbol x) (startWalk (s.setDecoder { s.decoder with dcount := s.decoder.dcount + 1 }))

/-- The loop of `DECSYM` (43_decoder.md R138). One round appends one bit and raises when `ACC_LEN` passes `MAXLEN` ≤ `LMAX`,
so `LMAX` + 1 rounds are enough (R141); the first argument bounds them (notes/assumptions/14.md). -/
def walkLoop : Nat → State p → Run p (SymResult p)
  | 0, s => .raise (.corrupt .tooLong) s
  | n + 1, s => (readBit s).bind fun r s =>
    match r with
    | .endOfInput => if s.decoder.accLen = 0#6 then .done .endOfInput s else .raise (.corrupt .truncated) s
    | .bit b => (walkBit b s).bind fun node s =>
      if isLeaf node then emitSymbol (symOf node p) s else walkLoop n s

/-- The sub-step `DECSYM()` (43_decoder.md R138). -/
def decodeSymbol (s : State p) : Run p (SymResult p) :=
  match checkConfig s with
  | some c => .raise (.badConfig c) s
  | none => walkLoop (p.lmax + 1) (startWalk s)

/-- What `DECSYM` does as a command with the outcome of its sub-step (43_decoder.md R138). -/
def symbolToResult (r : SymResult p) (s : State p) : Run p ResKind :=
  match r with
  | .symbol _ => .done .value s
  | .endOfInput => .done .endOfInput (s.setResult 0#32)

/-- `DLIMIT != 0 and DCOUNT >= DLIMIT` (43_decoder.md R139). -/
def limitReached (s : State p) : Bool :=
  s.conf.dlimit != 0#32 && s.conf.dlimit.toNat ≤ s.decoder.dcount.toNat

/-- The loop of `DECODE` (43_decoder.md R139). Every round that goes on has taken a bit from the reader; the first argument
bounds the rounds (R141, notes/assumptions/14.md). -/
def decodeLoop : Nat → State p → Run p ResKind
  | 0, s => .done .endOfInput s
  | n + 1, s =>
    if limitReached s then .done .limit s
    else (decodeSymbol s).bind fun r s =>
      match r with
      | .endOfInput => .done .endOfInput s
      | .symbol _ => decodeLoop n s

/-- How many bits the reader can still deliver: those it holds and those of the bytes still in the source
(50_invariants_and_properties.md R161 d). -/
def bitsLeft (s : State p) : Nat := s.reader.rcnt.toNat + 8 * s.env.source.length

/-- Body of `DECODE` (43_decoder.md R139). -/
def decodeAll (s : State p) : Run p ResKind :=
  match checkConfig s with
  | some c => .raise (.badConfig c) s
  | none => decodeLoop (bitsLeft s + 1) s

/-- `DECSYM`: decode one symbol (43_decoder.md R138). -/
def execDecsym (s : State p) : Host.Outcome (State p) Fault Refusal :=
  runCommand (needReaderOpen s) (fun s => (decodeSymbol s).bind symbolToResult) s

/-- `DECODE`: decode to the end of the input or to the expected count (43_decoder.md R139). -/
def execDecode (s : State p) : Host.Outcome (State p) Fault Refusal :=
  runCommand (needReaderOpen s) decodeAll s

end Sys2Proof.Machine
end

