-- ==== Sys2Proof/Machine/Encoder.lean ====
section
/-!
DEFINITION. The encoder commands `ENCSYM`, `ENCODE` (spec/42_encoder.md).
-/
namespace Sys2Proof.Machine

variable {p : Params}

/-- The sub-step `ENCSYM(x)` (42_encoder.md R121): an absent symbol, then a bad length, both before any bit is written;
then the `LEN` bits of the code, `RAW[LEN-1]` first (R123). -/
def encodeSymbol (x : Sym p) (s : State p) : Run p Unit :=
  let e := s.mem.codeAt x
  if e.valid = false then .raise .unknownSymbol (s.setResult (x.setWidth 32))
  else if badCodeLen e then .raise (.badConfig .badCodeLen) (s.setResult (x.setWidth 32))
  else writeBits e.raw e.len.toNat s

/-- The loop of `ENCODE` (42_encoder.md R122). Every round takes a symbol off the symbol input, so as many rounds as it
holds symbols, and one more, are enough; the first argument bounds them (notes/assumptions/14.md). -/
def encodeLoop : Nat → State p → Run p Unit
  | 0, s => closeWriter s
  | n + 1, s => (symRead s).bind fun r s =>
    match r with
    | none => closeWriter s
    | some x => (encodeSymbol x s).bind fun _ s => encodeLoop n s

/-- Body of `ENCODE` (42_encoder.md R122). -/
def encodeAll (s : State p) : Run p Unit := encodeLoop (s.env.symIn.length + 1) s

/-- The symbol in the operand of `ENCSYM`: `ARG[SYM_W-1:0]` (30_encoding.md R61 d, 42_encoder.md R121). -/
def symOperand (x : Byte) (p : Params) : Sym p := x.setWidth p.symW

/-- `ENCSYM`: encode one symbol (42_encoder.md R121). -/
def execEncsym (x : Byte) (s : State p) : Host.Outcome (State p) Fault Refusal :=
  runCommand (needWriterOpen s) (fun s => (encodeSymbol (symOperand x p) s).bind fun _ s => .done .none s) s

/-- `ENCODE`: encode the whole symbol input and close (42_encoder.md R122). -/
def execEncode (s : State p) : Host.Outcome (State p) Fault Refusal :=
  runCommand (needWriterOpen s) (fun s => (encodeAll s).bind fun _ s => .done .none s) s

end Sys2Proof.Machine
end

