-- ==== Sys2Proof/Machine/Builds.lean ====
section
/-!
DEFINITION. The meaning of a command in every build (spec/00_scope.md R5, R9). `exec` of Machine/Dispatch.lean is this in the build
with the default parameters (Laws/Builds.lean, `execIn_default`).
-/
namespace Sys2Proof.Machine

/-- The meaning of a command in the build `p`, once its word is stored in `CMD` and decoded (60_exceptions.md R184). -/
def execIn {p : Params} (i : Instr) (s : State p) : Host.Outcome (State p) Fault Refusal :=
  match i with
  | .wopen leave => execWopen leave s
  | .wbit b => execWbit b s
  | .wbyte v => execWbyte v s
  | .wclose => execWclose s
  | .ropen leave => execRopen leave s
  | .rbit => execRbit s
  | .rbyte => execRbyte s
  | .rclose => execRclose s
  | .encsym x => execEncsym x s
  | .encode => execEncode s
  | .decsym => execDecsym s
  | .decode => execDecode s

end Sys2Proof.Machine
end

