-- ==== Sys2Proof/Machine/HostBus.lean ====
section
/-!
DEFINITION. The host register space: the register map (spec/20_memory.md R42), reads and writes (R41, R43), and what else
the host does between commands (R45; 70_reset_and_hazards.md R200).
-/
namespace Sys2Proof.Machine

variable {p : Params}

/-- The registers of the map (20_memory.md R42). -/
inductive Reg (p : Params) where
  | cmd | status | result | faults | ioinfo | root | maxlen | dlimit | dcount
  | wstate | wbits | wbytes | rstate | rbits | rbytes | accRaw | accstate
  | node (i : NodeIdx p)
  | ctRaw (x : Sym p)
  | ctLen (x : Sym p)
  deriving DecidableEq, Repr

/-- The registers of the control block in the order of their offsets 0x0000, 0x0004, ... 0x0040 (20_memory.md R42). -/
def controlBlock : List (Reg p) :=
  [.cmd, .status, .result, .faults, .ioinfo, .root, .maxlen, .dlimit, .dcount,
   .wstate, .wbits, .wbytes, .rstate, .rbits, .rbytes, .accRaw, .accstate]

/-- The register at a word-aligned offset, none where the map has none. Both arrays keep their base and stride in every build and
shrink at the top (20_memory.md R42, R43). -/
def regAt (addr : Nat) (p : Params := .default) : Option (Reg p) :=
  if addr < 0x0800 then controlBlock[addr / 4]?
  else if addr < 0x1000 then
    let i := (addr - 0x0800) / 4
    if i < p.nNodes then some (.node (BitVec.ofNat p.nidxW i)) else none
  else
    let i := (addr - 0x1000) / 8
    let x := BitVec.ofNat p.symW i
    if i < p.nSyms then some (if (addr - 0x1000) % 8 = 0 then .ctRaw x else .ctLen x) else none

/-- What a host read of a register returns, a field narrower than a register in the low bits, the rest 0 (20_memory.md R42, 30_encoding.md R67, R68 to R70, R73). -/
def readReg (r : Reg p) (s : State p) : Word :=
  match r with
  | .cmd => s.regs.cmd
  | .status => s.regs.status
  | .result => s.regs.result
  | .faults => s.regs.faults
  | .ioinfo => s.regs.ioinfo
  | .root => s.conf.root.setWidth 32
  | .maxlen => s.conf.maxlen.setWidth 32
  | .dlimit => s.conf.dlimit
  | .dcount => s.decoder.dcount.setWidth 32
  | .wstate => wstate s.writer
  | .wbits => s.writer.wbits.setWidth 32
  | .wbytes => s.writer.wbytes.setWidth 32
  | .rstate => rstate s.reader
  | .rbits => s.reader.rbits.setWidth 32
  | .rbytes => s.reader.rbytes.setWidth 32
  | .accRaw => s.decoder.accRaw.setWidth 32
  | .accstate => accstate s.decoder
  | .node i => s.mem.nodeAt i
  | .ctRaw x => (s.mem.codeAt x).rawWord
  | .ctLen x => ctLenWord (s.mem.codeAt x)

/-- `MemRead(addr, 4)`: an unmapped offset reads 0 (20_memory.md R41, R43; notes/assumptions/9.md). -/
def busRead (addr : Nat) (s : State p) : Word :=
  match regAt addr p with
  | some r => readReg r s
  | none => 0#32

/-- What a host write to a register other than `CMD` stores: the defined fields of the `RW` registers; a write to an `RO`
register is ignored (20_memory.md R42, R43, 30_encoding.md R73). The write to `CMD` executes, Machine/Command.lean. -/
def writeReg (r : Reg p) (v : Word) (s : State p) : State p :=
  match r with
  | .root => s.setConf { s.conf with root := v.setWidth p.nidxW }
  | .maxlen => s.setConf { s.conf with maxlen := v.setWidth 6 }
  | .dlimit => s.setConf { s.conf with dlimit := v }
  | .node i => s.setMem (s.mem.setNode i v)
  | .ctRaw x => s.setMem (s.mem.setCode x (setCtRaw (s.mem.codeAt x) v))
  | .ctLen x => s.setMem (s.mem.setCode x (setCtLen (s.mem.codeAt x) v))
  | .cmd | .status | .result | .faults | .ioinfo | .dcount | .wstate | .wbits | .wbytes
  | .rstate | .rbits | .rbytes | .accRaw | .accstate => s

/-- The reset input: every piece of the unit's state at its value of 10_state.md R36, no port call
(70_reset_and_hazards.md R200); the environment and the host are outside the unit. -/
def resetUnit (s : State p) : State p :=
  { s with
    writer := Writer.atReset, reader := Reader.atReset, decoder := Decoder.atReset, conf := Conf.atReset,
    mem := Memory.atReset, regs := Regs.atReset }

/-- The host presents a sink (20_memory.md R45, 70_reset_and_hazards.md R203; notes/assumptions/5.md). -/
def presentSink (held : List Byte) (writeAns releaseAns : List PortAnswer) (s : State p) : State p :=
  s.setEnv { s.env with sink := held, sinkReleased := false, sinkWriteAns := writeAns, sinkReleaseAns := releaseAns }

/-- The host presents a source (20_memory.md R46, 70_reset_and_hazards.md R204; notes/assumptions/5.md). -/
def presentSource (bytes : List Byte) (readAns releaseAns : List PortAnswer) (s : State p) : State p :=
  s.setEnv { s.env with
    source := bytes, sourceReleased := false, sourceReadAns := readAns, sourceReleaseAns := releaseAns }

/-- The host presents a symbol input (20_memory.md R47). -/
def presentSymIn (syms : List (Sym p)) (ans : List SymAnswer) (s : State p) : State p :=
  s.setEnv { s.env with symIn := syms, symReadAns := ans }

/-- The host presents a symbol output (20_memory.md R48). -/
def presentSymOut (held : List (Sym p)) (ans : List SymAnswer) (s : State p) : State p :=
  s.setEnv { s.env with symOut := held, symWriteAns := ans }

/-- The host keeps the word its read returned (notes/assumptions/13.md). -/
def recordRead (v : Word) (s : State p) : State p := s.setHost { s.host with reads := s.host.reads ++ [v] }

end Sys2Proof.Machine
end

