-- ==== Sys2Proof/Machine/Command.lean ====
section
/-!
DEFINITION. The execution of a word written to `CMD` (spec/60_exceptions.md R184) and of each action of the host
(20_memory.md R41 to R43, 70_reset_and_hazards.md R200).
-/
namespace Sys2Proof.Machine

variable {p : Params}

/-- `execute(w)` (60_exceptions.md R184): `CMD <- w`; a word that is no command takes `BadCommand` (30_encoding.md R63);
else the command runs (notes/assumptions/16.md). -/
def execute (w : Word) (s : State p) : Host.Outcome (State p) Fault Refusal :=
  match decodeWord w p with
  | .error e => .next (takeError (.badCommand e) (s.setCmd w))
  | .ok i => execIn i (s.setCmd w)

/-- `MemWrite(addr, 4, v)` at a word-aligned offset: the write to `CMD` executes the word, a write to an unmapped offset is
ignored (20_memory.md R41, R43). -/
def busWrite (addr : Nat) (v : Word) (s : State p) : Host.Outcome (State p) Fault Refusal :=
  match regAt addr p with
  | some .cmd => execute v s
  | some r => .next (writeReg r v s)
  | none => .next s

/-- One action of the host. The bus has no access at an offset that is no multiple of 4 (20_memory.md R41;
notes/assumptions/10.md). -/
def hostAct (a : HostAction p) (s : State p) : Host.Outcome (State p) Fault Refusal :=
  match a with
  | .write addr v => if addr % 4 = 0 then busWrite addr v s else .refused (.unalignedAccess addr)
  | .read addr => if addr % 4 = 0 then .next (recordRead (busRead addr s) s) else .refused (.unalignedAccess addr)
  | .reset => .next (resetUnit s)
  | .presentSink held writeAns releaseAns => .next (presentSink held writeAns releaseAns s)
  | .presentSource bytes readAns releaseAns => .next (presentSource bytes readAns releaseAns s)
  | .presentSymIn syms ans => .next (presentSymIn syms ans s)
  | .presentSymOut held ans => .next (presentSymOut held ans s)

/-- The host's next action is taken off its list and happens whole; with none left the unit waits
(00_scope.md R2, 20_memory.md R41, 70_reset_and_hazards.md R201; notes/assumptions/4.md). -/
def nextAction (s : State p) : Host.Outcome (State p) Fault Refusal :=
  match s.host.pending with
  | [] => .next s
  | a :: rest => hostAct a (s.setHost { s.host with pending := rest })

/-- The host about to write this word to `CMD`, at offset 0x0000 (20_memory.md R42). -/
def withCommand (w : Word) (s : State p) : State p :=
  s.setHost { s.host with pending := .write 0x0000 w :: s.host.pending }

end Sys2Proof.Machine
end

