-- ==== Sys2Proof/Machine/Dispatch.lean ====
section
/-!
DEFINITION. One arm per command (spec/30_encoding.md R62).
-/
namespace Sys2Proof.Machine

/-- The meaning of a command, once its word is stored in `CMD` and decoded (60_exceptions.md R184). -/
def exec (i : Instr) (s : State) : Host.Outcome State Fault Refusal :=
  match i with
  | .wopen leave => Sys2Proof.Machine.execWopen leave s
  | .wbit b => Sys2Proof.Machine.execWbit b s
  | .wbyte v => Sys2Proof.Machine.execWbyte v s
  | .wclose => Sys2Proof.Machine.execWclose s
  | .ropen leave => Sys2Proof.Machine.execRopen leave s
  | .rbit => Sys2Proof.Machine.execRbit s
  | .rbyte => Sys2Proof.Machine.execRbyte s
  | .rclose => Sys2Proof.Machine.execRclose s
  | .encsym x => Sys2Proof.Machine.execEncsym x s
  | .encode => Sys2Proof.Machine.execEncode s
  | .decsym => Sys2Proof.Machine.execDecsym s
  | .decode => Sys2Proof.Machine.execDecode s

end Sys2Proof.Machine
end

