-- ==== Sys2Proof/Machine/Step.lean ====
section
/-!
DEFINITION. One step of the machine: the host's next action, whole (spec/00_scope.md R2, R9, 20_memory.md R41, R52).
-/
namespace Sys2Proof.Machine

/-- One step of the build with the default parameters (00_scope.md R5). A command runs to its end inside the host's write to `CMD`
(20_memory.md R41). The step of any build is `nextAction`, of which the build is an argument (00_scope.md R9). -/
def step (s : State) : Host.Outcome State Fault Refusal := nextAction s

/-- `s` with an instruction of `nbits` bits placed where the step takes its next one from: the unit fetches nothing
(10_state.md R12), so the host is about to write that word to `CMD` (notes/assumptions/4.md). -/
def State.withFetchWord (s : State) (nbits w : Nat) : State :=
  withCommand (BitVec.ofNat 32 (w % 2 ^ nbits)) s

end Sys2Proof.Machine
end

