-- ==== Sys2Proof/Machine/Pseudo.lean ====
section
/-!
DEFINITION. The host's spellings: directives (spec/30_encoding.md R64) and pseudo-commands (R65). They are host register
accesses and host loops over commands; the unit knows none of them.
-/
namespace Sys2Proof.Machine

variable {p : Params}

/-- One line of the assembler syntax (30_encoding.md R64). -/
inductive AsmLine (p : Params) where
  | command (i : Instr)
  | root (i : NodeIdx p)
  | maxlen (n : CodeLen)
  | limit (n : Word)
  | leaf (i : NodeIdx p) (x : Sym p)
  | int (i : NodeIdx p) (l r : Option (NodeIdx p))
  | code (x : Sym p) (len : CodeLen) (raw : RawCode p)
  | nocode (x : Sym p)
  deriving DecidableEq, Repr

/-- Offset of `NODE[i]` (20_memory.md R42). -/
def nodeAddr (i : NodeIdx p) : Nat := 0x0800 + 4 * i.toNat

/-- Offset of `CT_RAW[x]` (20_memory.md R42). -/
def ctRawAddr (x : Sym p) : Nat := 0x1000 + 8 * x.toNat

/-- Offset of `CT_LEN[x]` (20_memory.md R42). -/
def ctLenAddr (x : Sym p) : Nat := 0x1004 + 8 * x.toNat

/-- The host accesses a line stands for (30_encoding.md R64). -/
def AsmLine.actions : AsmLine p → List (HostAction p)
  | .command i => [.write 0x0000 (encodeWord i)]
  | .root i => [.write 0x0014 (i.setWidth 32)]
  | .maxlen n => [.write 0x0018 (n.setWidth 32)]
  | .limit n => [.write 0x001C n]
  | .leaf i x => [.write (nodeAddr i) (leafWord x)]
  | .int i l r => [.write (nodeAddr i) (intWord l r)]
  | .code x len raw =>
    let e : CodeEntry p := { valid := true, len := len, rawWord := raw.setWidth 32 }
    [.write (ctRawAddr x) e.rawWord, .write (ctLenAddr x) (ctLenWord e)]
  | .nocode x => [.write (ctLenAddr x) 0#32]

/-- The host's actions happening one after another, to the first fault or refusal. -/
def runActions : List (HostAction p) → State p → Host.Outcome (State p) Fault Refusal
  | [], s => .next s
  | a :: rest, s =>
    match hostAct a s with
    | .next s => runActions rest s
    | o => o

/-- The host issuing commands one after another while `STATUS` says go on. -/
def runWhile (goOn : Word → Bool) : List Instr → State p → Host.Outcome (State p) Fault Refusal
  | [], s => .next s
  | i :: rest, s =>
    match execute (encodeWord i) s with
    | .next s => if goOn s.regs.status then runWhile goOn rest s else .next s
    | o => o

/-- The command did not raise: `ERR` = `Ok`. -/
def noError (status : Word) : Bool := errField status == ErrKind.ok.code

/-- The command neither raised nor answered end-of-input. -/
def gaveValue (status : Word) : Bool := noError status && resField status != ResKind.endOfInput.code

/-- `WBYTES b0, ..., bn-1` (30_encoding.md R65): stops at the first that raises. -/
def wbytesSeq (bs : List Byte) (s : State p) : Host.Outcome (State p) Fault Refusal :=
  runWhile noError (bs.map Instr.wbyte) s

/-- `RBYTES n` (30_encoding.md R65): stops at the first that answers end-of-input or raises. -/
def rbytesSeq (n : Nat) (s : State p) : Host.Outcome (State p) Fault Refusal :=
  runWhile gaveValue (List.replicate n Instr.rbyte) s

/-- `ENCODESEQ s0, ..., sn-1` (30_encoding.md R65): `ENCSYM` of each, then `WCLOSE`; stops at the first that raises. -/
def encodeSeq (xs : List (Sym p)) (s : State p) : Host.Outcome (State p) Fault Refusal :=
  runWhile noError (xs.map (fun x => Instr.encsym (x.setWidth 8)) ++ [Instr.wclose]) s

/-- `DECODEN n` (30_encoding.md R65): `.limit n`, then `DECODE`. -/
def decodeN (n : Word) (s : State p) : Host.Outcome (State p) Fault Refusal :=
  runActions ((AsmLine.limit n).actions ++ (AsmLine.command .decode).actions) s

/-- `DECODEALL` (30_encoding.md R65): `.limit 0`, then `DECODE`. -/
def decodeAllSeq (s : State p) : Host.Outcome (State p) Fault Refusal := decodeN 0#32 s

end Sys2Proof.Machine
end

