-- ==== Sys2Proof/Safety.lean ====
section
/-!
DEFINITION. The terms claims are made in: the invariants of spec/50_invariants_and_properties.md R160 to R162, bit strings,
packing and unpacking (R163), paths and consistency (R164), error-free environments (20_memory.md R49), complete and
fault-free runs (70_reset_and_hazards.md R215).
-/
namespace Sys2Proof.Machine

variable {p : Params}

/-! ## Bit strings, the first bit in time first -/

/-- The bits of a byte of the stream, bit 7 first (20_memory.md R50). -/
def byteBits (y : Byte) : List Bool := (List.range 8).map fun j => y.getLsbD (7 - j)

/-- `unpack(Y)`: bit j is bit 7-(j mod 8) of byte floor(j/8) (50_invariants_and_properties.md R163). -/
def unpack (ys : List Byte) : List Bool := ys.flatMap byteBits

/-- The byte whose bit 7-j is bit j of a bit string, j below 8, bits past the end 0. -/
def byteOfBits (c : List Bool) : Byte :=
  (List.range 8).foldl (fun y j => y ||| (BitVec.ofBool (c.getD j false)).setWidth 8 <<< (7 - j)) 0#8

/-- `pack(B)`: ceil(T/8) bytes, bit j of B is bit 7-(j mod 8) of byte floor(j/8), all other bits 0
(50_invariants_and_properties.md R163). -/
def pack (bits : List Bool) : List Byte :=
  (List.range ((bits.length + 7) / 8)).map fun k => byteOfBits (bits.drop (8 * k))

/-- The bits of a Code, `RAW[LEN-1]` first (30_encoding.md R71, 42_encoder.md R123). -/
def codeBits {w : Nat} (raw : BitVec w) (len : Nat) : List Bool := (List.range len).map fun i => raw.getLsbD (len - 1 - i)

/-- The bits of a sequence of symbols by the stored table (30_encoding.md R71). -/
def symbolBits (m : Memory p) (xs : List (Sym p)) : List Bool :=
  xs.flatMap fun x => codeBits (m.codeAt x).raw (m.codeAt x).len.toNat

/-- The bits the writer holds, the oldest first: `WBUF[7 : 8-WCNT]` (10_state.md R13). -/
def heldBits (w : Writer p) : List Bool := (List.range w.wcnt.toNat).map fun j => w.wbuf.getLsbD (7 - j)

/-- The bits the reader holds: `RBUF[RCNT-1 : 0]`, the next first (10_state.md R16). -/
def unreadBits (r : Reader p) : List Bool := (List.range r.rcnt.toNat).map fun i => r.rbuf.getLsbD (r.rcnt.toNat - 1 - i)

/-- The bits the reader has still to deliver (50_invariants_and_properties.md R161 d): those it holds, and unless it has
seen the end of the input (10_state.md R17) those of the bytes still in the source. -/
def bitsToCome (s : State p) : List Bool :=
  unreadBits s.reader ++ if s.reader.reof then [] else unpack s.env.source

/-! ## Invariants -/

/-- Writer invariants (50_invariants_and_properties.md R160 b, c, d; a is WCNT's width). Clause d is about passes without
`IoError`; it is stated while no `IoError` at all has been recorded. -/
abbrev WriterInv (s : State p) : Prop :=
  s.writer.wbuf <<< s.writer.wcnt.toNat = 0#8 ∧
  (s.writer.wopenf = false → s.writer.wcnt = 0#3 ∧ s.writer.wbuf = 0#8) ∧
  (s.writer.wopenf = true → s.regs.faults.getLsbD 5 = false →
    s.writer.wbits = 8#p.cntW * s.writer.wbytes + s.writer.wcnt.setWidth p.cntW)

/-- Reader invariants (50_invariants_and_properties.md R161 a, b, c). -/
abbrev ReaderInv (s : State p) : Prop :=
  s.reader.rcnt.toNat ≤ 8 ∧
  (s.reader.reof = true → s.reader.rcnt = 0#4) ∧
  s.reader.rbits + s.reader.rcnt.setWidth p.cntW = 8#p.cntW * s.reader.rbytes

/-- Decoder invariants (10_state.md R20, 50_invariants_and_properties.md R162 a): `ACC_LEN` is at most `LMAX` + 1, and
while neither `CorruptStream` nor `IoError` has been recorded the accumulator is empty between commands. -/
abbrev DecoderInv (s : State p) : Prop :=
  s.decoder.accLen.toNat ≤ p.lmax + 1 ∧
  (s.regs.faults.getLsbD 3 = false → s.regs.faults.getLsbD 5 = false →
    s.decoder.accRaw = 0#p.lmax ∧ s.decoder.accLen = 0#6)

/-- The words `STATUS` can hold (30_encoding.md R68, 60_exceptions.md R181, R182; 95_test_vectors.md, shorthand table). -/
def statusWords : List Word :=
  [0x00000000#32, 0x00000010#32, 0x00000020#32, 0x00000030#32, 0x00000002#32,
   0x00000103#32, 0x00000203#32, 0x00000303#32] ++
  [0x00000105#32, 0x00000205#32, 0x00000305#32, 0x00000405#32, 0x00000106#32, 0x00000206#32] ++
  [0x00000107#32, 0x00000207#32, 0x00000307#32, 0x00000407#32, 0x00000108#32, 0x00000208#32, 0x00000308#32]

/-- Status invariants: `STATUS` is one of its words (30_encoding.md R68); `FAULTS` has only the bits this block can set
(R69); a kind that `STATUS` reports is recorded in `FAULTS` (10_state.md R31). -/
abbrev StatusInv (s : State p) : Prop :=
  s.regs.status ∈ statusWords ∧
  s.regs.faults &&& ~~~0x000001EC#32 = 0#32 ∧
  (errField s.regs.status ≠ 0#4 → s.regs.faults.getLsbD (errField s.regs.status).toNat = true)

/-- The stores are in canonical form. -/
abbrev StoresInv (s : State p) : Prop := s.mem.wf = true

/-- The error codes a command may end with, 0 for none (60_exceptions.md R181, column "raised by"). -/
def errorsOf (i : Instr) : List (BitVec 4) :=
  match i.op with
  | .wopen | .ropen => [0#4, 7#4]
  | .wbit | .wbyte | .wclose | .rbit | .rbyte | .rclose => [0#4, 5#4, 7#4]
  | .encsym | .encode => [0#4, 2#4, 5#4, 7#4, 8#4]
  | .decsym | .decode => [0#4, 3#4, 5#4, 7#4, 8#4]

/-! ## Configuration -/

/-- `checkConfig` raises nothing (43_decoder.md R135). -/
abbrev ConfigOk (s : State p) : Prop :=
  1 ≤ s.conf.maxlen.toNat ∧ s.conf.maxlen.toNat ≤ p.lmax ∧ isLeaf (s.mem.nodeAt s.conf.root) = false

/-- The node a bit string leads to from a node, every node it leaves being Internal and every `child` present
(50_invariants_and_properties.md R164). -/
def path (m : Memory p) : NodeIdx p → List Bool → Option (NodeIdx p)
  | n, [] => some n
  | n, b :: bits =>
    if isLeaf (m.nodeAt n) then none
    else
      match child (m.nodeAt n) b p with
      | none => none
      | some c => path m c bits

/-- The entry of a present symbol is a Code `ENCSYM` accepts (30_encoding.md R67, 42_encoder.md R121). -/
abbrev GoodEntry (e : CodeEntry p) : Prop := e.valid = true ∧ 1 ≤ e.len.toNat ∧ e.len.toNat ≤ p.lmax

/-- One symbol's entry and the stored tree agree (50_invariants_and_properties.md R164). -/
def ConsistentAt (s : State p) (x : Sym p) : Prop :=
  1 ≤ (s.mem.codeAt x).len.toNat ∧ (s.mem.codeAt x).len.toNat ≤ s.conf.maxlen.toNat ∧ s.conf.maxlen.toNat ≤ p.lmax ∧
  ∃ n, path s.mem s.conf.root (codeBits (s.mem.codeAt x).raw (s.mem.codeAt x).len.toNat) = some n ∧
    isLeaf (s.mem.nodeAt n) = true ∧ symOf (s.mem.nodeAt n) p = x

/-- The stored table and the stored tree are consistent (50_invariants_and_properties.md R164). -/
def Consistent (s : State p) : Prop := ∀ x, (s.mem.codeAt x).valid = true → ConsistentAt s x

/-- A bit string as a number, the first bit most significant, in `LMAX` bits (10_state.md R20). -/
def bitsToWord (bits : List Bool) (p : Params := .default) : RawCode p :=
  bits.foldl (fun a b => a <<< 1 ||| (BitVec.ofBool b).setWidth p.lmax) 0#_

/-! ## Environments and runs -/

/-- The environment will answer no call of the sink with an error, and every one. -/
abbrev SinkErrorFree (e : Env p) : Prop := (∀ a ∈ e.sinkWriteAns, a = PortAnswer.ok) ∧ ∀ a ∈ e.sinkReleaseAns, a = PortAnswer.ok

/-- The environment will answer no call of the source with an error, and every one. -/
abbrev SourceErrorFree (e : Env p) : Prop :=
  (∀ a ∈ e.sourceReadAns, a = PortAnswer.ok) ∧ ∀ a ∈ e.sourceReleaseAns, a = PortAnswer.ok

/-- The environment will answer every call of the symbol ports. -/
abbrev SymbolsAnswered (e : Env p) : Prop := (∀ a ∈ e.symReadAns, a = SymAnswer.ok) ∧ ∀ a ∈ e.symWriteAns, a = SymAnswer.ok

/-- The answers listed for a port's calls to come leave one unanswered (93_implementation_defined.md U7). -/
def leavesUnanswered (e : Env p) : Port → Prop
  | .sinkWrite => PortAnswer.never ∈ e.sinkWriteAns
  | .sinkRelease => PortAnswer.never ∈ e.sinkReleaseAns
  | .sourceRead => PortAnswer.never ∈ e.sourceReadAns
  | .sourceRelease => PortAnswer.never ∈ e.sourceReleaseAns
  | .symRead => SymAnswer.never ∈ e.symReadAns
  | .symWrite => SymAnswer.never ∈ e.symWriteAns

/-- The second list is what is left of the first once some answers, none of them `no`, have been used up. -/
def UsedUp {α : Type} (no : α) (l l' : List α) : Prop := ∃ used, l = used ++ l' ∧ no ∉ used

/-- From the first environment to the second, every call of the port was answered. -/
def answersMet (port : Port) (e e' : Env p) : Prop :=
  match port with
  | .sinkWrite => UsedUp .never e.sinkWriteAns e'.sinkWriteAns
  | .sinkRelease => UsedUp .never e.sinkReleaseAns e'.sinkReleaseAns
  | .sourceRead => UsedUp .never e.sourceReadAns e'.sourceReadAns
  | .sourceRelease => UsedUp .never e.sourceReleaseAns e'.sourceReleaseAns
  | .symRead => UsedUp .never e.symReadAns e'.symReadAns
  | .symWrite => UsedUp .never e.symWriteAns e'.symWriteAns

/-- A run is complete when both wrappers are closed (70_reset_and_hazards.md R215). -/
abbrev RunComplete (s : State p) : Prop := s.writer.wopenf = false ∧ s.reader.ropenf = false

/-- No error has been recorded since reset (10_state.md R31, 70_reset_and_hazards.md R215). -/
abbrev NoErrorRecorded (s : State p) : Prop := s.regs.faults = 0#32

end Sys2Proof.Machine
end

