-- ==== Sys2Proof/WellFormed.lean ====
section
/-!
DEFINITION. Which command words and which commands are well formed (spec/30_encoding.md R60, R61, R63): the checks, each under
its own name, over the tables of Sys2Proof/Decode.lean.
-/
namespace Sys2Proof

/-- `OP` names an operation; else the word is `RsvdOp` (30_encoding.md R63). -/
def CmdFields.opLegal (f : CmdFields) : Bool := (Op.ofBits f.op).isSome

/-- `Z1` is 0; else the word is `RsvdBits` (30_encoding.md R60, R63). -/
def CmdFields.z1Zero (f : CmdFields) : Bool := f.z1 == 0#16

/-- `Z0` is 0; else the word is `RsvdBits` (30_encoding.md R60, R63). -/
def CmdFields.z0Zero (f : CmdFields) : Bool := f.z0 == 0#4

/-- The must-be-zero part of `ARG` is 0; else the word is `RsvdBits` (30_encoding.md R61, R63). -/
def CmdFields.argOk (f : CmdFields) (op : Op) (p : Params := .default) : Bool := op.argUse.mbzOk p.symW f.arg

/-- A command word as R60 to R63 want it. -/
def CmdFields.wf (f : CmdFields) (p : Params := .default) : Bool :=
  match Op.ofBits f.op with
  | none => false
  | some op => f.z1Zero && f.z0Zero && f.argOk op p

/-- The operand of `ENCSYM` is a symbol of the build: its bits above `SYM_W`-1 are 0 (30_encoding.md R61 d). -/
def Instr.symFits (p : Params) : Instr → Bool
  | .encsym s => s >>> p.symW == 0#8
  | .wopen _ | .wbit _ | .wbyte _ | .wclose | .ropen _ | .rbit | .rbyte | .rclose | .encode | .decsym | .decode => true

/-- A command that a build has a word for. The other operand types leave out nothing the format admits and admit nothing it
leaves out; in the build with the default parameters every command is well formed. -/
def Instr.wf (i : Instr) (p : Params := .default) : Bool := i.symFits p

end Sys2Proof
end

