-- ==== Sys2Proof/Certificates/Slice0/Obligations.lean ====
section
/-!
DEFINITION. The statements for the provers. Each docstring names the rule of spec/ it is about; words of `STATUS` are written
out from spec/95_test_vectors.md (shorthand table) and spec/30_encoding.md R68. Wherever a premise or a conclusion speaks of the
answers to come (`sinkWriteAns` to `symWriteAns`, and the environments of Sys2Proof/Safety.lean made of them), the list is the
model's record of what spec/20_memory.md R49 leaves to the environment (notes/assumptions/2.md).
-/

open Sys2Proof Sys2Proof.Machine

/-! ## Encodings -/

/-- A few words of 30_encoding.md R62 and R63, by their bits. -/
def Obligations.StatedWordsDecode : Prop :=
  decodeWord 0x00001001#32 = .ok (.wopen true) ∧ decodeWord 0x00002000#32 = .ok (.wbit false) ∧
  decodeWord 0x000030A5#32 = .ok (.wbyte 0xA5#8) ∧ decodeWord 0x00007000#32 = .ok .rbyte ∧
  decodeWord 0x00009041#32 = .ok (.encsym 0x41#8) ∧ decodeWord 0x0000C000#32 = .ok .decode ∧
  decodeWord 0x00000000#32 = .error .rsvdOp ∧ decodeWord 0x00004001#32 = .error .rsvdBits

/-- Decoding and encoding agree both ways, in every build: every command that is well formed there, with every operand, has exactly
one word, and no other word is a command (30_encoding.md R60 to R62, 00_scope.md R5). In the build with the default parameters every
command is well formed. In a build with `SYM_W` below 8 that R61 (d) decides which words are `ENCSYM`, and not the mask 0xFFFFFF00 that
R62 prints, is the model's reading and no words of R62 (notes/assumptions/1.md, DEDUCED). -/
def Obligations.DecodeAndEncodeAgree : Prop :=
  (∀ (p : Params) (i : Instr) (w : Word), decodeWord w p = .ok i ↔ i.wf p = true ∧ w = encodeWord i) ∧
  (∀ i : Instr, i.wf = true)

/-- 30_encoding.md R62 with R61: a word is the command of a row of the opcode map exactly when it matches the row, and its
operand is then taken from `ARG`. -/
def Obligations.DecoderFollowsTheOpcodeMap : Prop :=
  ∀ r ∈ opcodeRows, ∀ w : Word, w &&& r.mask = r.pattern ↔ decodeWord w = .ok (r.op.instr (w.setWidth 8))

/-- 30_encoding.md R63: a word written to `CMD` that matches no row raises `BadCommand`, `RsvdOp` if `OP` is reserved, else
`RsvdBits`, and changes nothing but `CMD`, `STATUS` and `FAULTS`. -/
def Obligations.IllegalWordsTakeBadCommand : Prop :=
  ∀ (w : Word) (s : State), (∀ r ∈ opcodeRows, w &&& r.mask ≠ r.pattern) →
    hostAct (.write 0x0000 w) s = .next { s with
      regs := { s.regs with
        cmd := w
        status := if w.extractLsb' 12 4 ∈ [0x0#4, 0xD#4, 0xE#4, 0xF#4] then 0x00000106#32 else 0x00000206#32
        faults := s.regs.faults ||| 0x00000040#32 } }

/-! ## The step and the host's accesses -/

/-- 20_memory.md R41, 60_exceptions.md R184: when the host's next action is the write of a command word to `CMD`, the step
takes that action, stores the word in `CMD` and runs the decoded command; any other action is taken and happens; with none
the unit waits. The build is an argument of the step (00_scope.md R9): the same holds of the step of every build, and `exec` is
the meaning of the commands in the build with the default parameters. The list of the host's actions is the model's
(notes/assumptions/4.md). -/
def Obligations.StepRunsTheDecodedCommand : Prop :=
  (∀ (s : State) (w : Word) (i : Instr) (rest : List (HostAction .default)),
    s.host.pending = .write 0x0000 w :: rest → decodeWord w = .ok i →
    step s = exec i { s with regs := { s.regs with cmd := w }, host := { s.host with pending := rest } }) ∧
  (∀ (s : State) (a : HostAction .default) (rest : List (HostAction .default)), s.host.pending = a :: rest →
    step s = hostAct a { s with host := { s.host with pending := rest } }) ∧
  (∀ s : State, s.host.pending = [] → step s = .next s) ∧
  (∀ (p : Params) (s : State p) (w : Word) (i : Instr) (rest : List (HostAction p)),
    s.host.pending = .write 0x0000 w :: rest → decodeWord w p = .ok i →
    nextAction s = execIn i { s with regs := { s.regs with cmd := w }, host := { s.host with pending := rest } }) ∧
  (∀ (i : Instr) (s : State), execIn i s = exec i s)

/-- 20_memory.md R41: a host read at a word-aligned offset returns the register and changes no state of the unit or its
environment; the last word written to `CMD` reads back (10_state.md R28). The lists of the host's actions
and of the words read are the model's (notes/assumptions/4.md, 13.md). -/
def Obligations.HostReadHasNoSideEffect : Prop :=
  ∀ (s : State) (addr : Nat) (rest : List (HostAction .default)), s.host.pending = .read addr :: rest → addr % 4 = 0 →
    step s = .next { s with host := { pending := rest, reads := s.host.reads ++ [busRead addr s] } } ∧
    busRead 0x0000 s = s.regs.cmd

/-- 20_memory.md R43: unmapped offsets read 0 and ignore writes, read-only registers ignore writes, `ROOT`, `MAXLEN` and
`CT_LEN[x]` store their defined fields and read the rest as 0, `NODE[i]`, `CT_RAW[x]` and `DLIMIT` store all 32 bits, and
no such access raises an error or touches `STATUS`. -/
def Obligations.HostAccessesFollowTheRegisterMap : Prop :=
  ∀ (s : State) (v : Word),
    (∀ addr, addr % 4 = 0 → (0x0044 ≤ addr ∧ addr < 0x0800) ∨ 0x1800 ≤ addr →
      busRead addr s = 0#32 ∧ hostAct (.write addr v) s = .next s) ∧
    (∀ addr ∈ [0x0004, 0x0008, 0x000C, 0x0010, 0x0020, 0x0024, 0x0028, 0x002C, 0x0030, 0x0034, 0x0038, 0x003C, 0x0040],
      hostAct (.write addr v) s = .next s) ∧
    (∃ t, hostAct (.write 0x0014 v) s = .next t ∧ busRead 0x0014 t = v &&& 0x000001FF#32) ∧
    (∃ t, hostAct (.write 0x0018 v) s = .next t ∧ busRead 0x0018 t = v &&& 0x0000003F#32) ∧
    (∃ t, hostAct (.write 0x001C v) s = .next t ∧ busRead 0x001C t = v) ∧
    (∀ i : NodeIdx, ∃ t, hostAct (.write (0x0800 + 4 * i.toNat) v) s = .next t ∧ busRead (0x0800 + 4 * i.toNat) t = v) ∧
    (∀ x : Sym, ∃ t, hostAct (.write (0x1000 + 8 * x.toNat) v) s = .next t ∧ busRead (0x1000 + 8 * x.toNat) t = v) ∧
    (∀ x : Sym, ∃ t, hostAct (.write (0x1004 + 8 * x.toNat) v) s = .next t ∧
      busRead (0x1004 + 8 * x.toNat) t = v &&& 0x8000003F#32) ∧
    (∀ addr t, addr ≠ 0x0000 → hostAct (.write addr v) s = .next t → t.regs = s.regs)

/-- 20_memory.md R41, R42: a host write to a register other than `CMD` has no effect but the storing: every other offset
reads as before, nothing of the writer, the reader, the decoder, the environment or the host changes. -/
def Obligations.HostWriteLeavesEveryOtherRegister : Prop :=
  ∀ (s t : State) (addr other : Nat) (v : Word), addr ≠ 0x0000 → hostAct (.write addr v) s = .next t →
    other % 4 = 0 → other ≠ addr →
    busRead other t = busRead other s ∧
    t.writer = s.writer ∧ t.reader = s.reader ∧ t.decoder = s.decoder ∧ t.env = s.env ∧ t.host = s.host

/-- 20_memory.md R42, 30_encoding.md R67, R73, 00_scope.md R5: in every build, what each offset of the register map reads as, the
views of R70 apart; `NODE[i]` and `CT_RAW[x]` store all 32 bits (20_memory.md R43); the two arrays keep their bases and strides and
have the build's sizes: past their top an offset reads 0 and ignores writes (R43). That in a build with `CNT_W` or `LMAX` below 32 the
bits of a counter's register and of `ACC_RAW`'s above the field read 0 is the model's reading, which no rule states
(notes/assumptions/1.md, DEDUCED); that unmapped offsets read 0 and ignore writes is R43's although U3 warns of bus errors (9.md). -/
def Obligations.RegistersReadWhereTheMapPutsThem : Prop :=
  ∀ (p : Params) (s : State p),
    busRead 0x0000 s = s.regs.cmd ∧ busRead 0x0004 s = s.regs.status ∧ busRead 0x0008 s = s.regs.result ∧
    busRead 0x000C s = s.regs.faults ∧ busRead 0x0010 s = s.regs.ioinfo ∧
    busRead 0x0014 s = s.conf.root.setWidth 32 ∧ busRead 0x0018 s = s.conf.maxlen.setWidth 32 ∧
    busRead 0x001C s = s.conf.dlimit ∧ busRead 0x0020 s = s.decoder.dcount.setWidth 32 ∧
    busRead 0x0028 s = s.writer.wbits.setWidth 32 ∧ busRead 0x002C s = s.writer.wbytes.setWidth 32 ∧
    busRead 0x0034 s = s.reader.rbits.setWidth 32 ∧ busRead 0x0038 s = s.reader.rbytes.setWidth 32 ∧
    busRead 0x003C s = s.decoder.accRaw.setWidth 32 ∧
    (∀ i : NodeIdx p, busRead (0x0800 + 4 * i.toNat) s = s.mem.nodeAt i) ∧
    (∀ x : Sym p, busRead (0x1000 + 8 * x.toNat) s = (s.mem.codeAt x).rawWord) ∧
    (∀ x : Sym p, busRead (0x1004 + 8 * x.toNat) s =
      (if (s.mem.codeAt x).valid then 0x80000000#32 else 0#32) ||| (s.mem.codeAt x).len.setWidth 32) ∧
    (∀ (i : NodeIdx p) v, ∃ t, hostAct (.write (0x0800 + 4 * i.toNat) v) s = .next t ∧ busRead (0x0800 + 4 * i.toNat) t = v) ∧
    (∀ (x : Sym p) v, ∃ t, hostAct (.write (0x1000 + 8 * x.toNat) v) s = .next t ∧ busRead (0x1000 + 8 * x.toNat) t = v) ∧
    (∀ addr v, addr % 4 = 0 →
      (0x0800 + 4 * 2 ^ p.nidxW ≤ addr ∧ addr < 0x1000) ∨ 0x1000 + 8 * 2 ^ p.symW ≤ addr →
      busRead addr s = 0#32 ∧ hostAct (.write addr v) s = .next s)

/-- 30_encoding.md R70: the three view words, field by field, all other bits 0. -/
def Obligations.ViewWordsShowTheirFields : Prop :=
  ∀ s : State,
    ((busRead 0x0024 s).getLsbD 0 = s.writer.wopenf ∧ (busRead 0x0024 s).getLsbD 1 = s.writer.wleave ∧
      (busRead 0x0024 s).extractLsb' 4 3 = s.writer.wcnt ∧ (busRead 0x0024 s).extractLsb' 8 8 = s.writer.wbuf ∧
      busRead 0x0024 s &&& ~~~0x0000FF73#32 = 0#32) ∧
    ((busRead 0x0030 s).getLsbD 0 = s.reader.ropenf ∧ (busRead 0x0030 s).getLsbD 1 = s.reader.rleave ∧
      (busRead 0x0030 s).getLsbD 2 = s.reader.reof ∧ (busRead 0x0030 s).extractLsb' 4 4 = s.reader.rcnt ∧
      (busRead 0x0030 s).extractLsb' 8 8 = s.reader.rbuf ∧ busRead 0x0030 s &&& ~~~0x0000FFF7#32 = 0#32) ∧
    ((busRead 0x0040 s).extractLsb' 0 6 = s.decoder.accLen ∧ (busRead 0x0040 s).extractLsb' 16 9 = s.decoder.cur ∧
      busRead 0x0040 s &&& ~~~0x01FF003F#32 = 0#32)

/-- 30_encoding.md R64, R66, R67: the directives that load the stores leave the node a Leaf of its symbol, or an Internal node
whose children are those named, the left taking bit 0; a code leaves its entry present, `.nocode` absent; `.root`, `.maxlen` and
`.limit` set their register and no other. -/
def Obligations.DirectivesLoadWhatTheyName : Prop :=
  ∀ s : State,
    (∀ i x, ∃ t, runActions (AsmLine.leaf i x).actions s = .next t ∧
      isLeaf (t.mem.nodeAt i) = true ∧ symOf (t.mem.nodeAt i) = x) ∧
    (∀ i l r, ∃ t, runActions (AsmLine.int i l r).actions s = .next t ∧ isLeaf (t.mem.nodeAt i) = false ∧
      presentChildren (t.mem.nodeAt i) = l.toList ++ r.toList) ∧
    (∀ x len raw, ∃ t, runActions (AsmLine.code x len raw).actions s = .next t ∧
      t.mem.codeAt x = { valid := true, len := len, rawWord := raw }) ∧
    (∀ x, ∃ t, runActions (AsmLine.nocode x).actions s = .next t ∧ (t.mem.codeAt x).valid = false) ∧
    (∀ i, ∃ t, runActions (AsmLine.root i).actions s = .next t ∧ t.conf = { s.conf with root := i }) ∧
    (∀ n, ∃ t, runActions (AsmLine.maxlen n).actions s = .next t ∧ t.conf = { s.conf with maxlen := n }) ∧
    (∀ n, ∃ t, runActions (AsmLine.limit n).actions s = .next t ∧ t.conf = { s.conf with dlimit := n })

/-- 10_state.md R36: `State.reset` and every state the reset input leads to have each piece of the unit's state at its reset
value; 70_reset_and_hazards.md R200: the reset input makes no port call. That it leaves what stands behind the ports and the host's
side as they are is R200 with the model's choice of what State holds (notes/assumptions/11.md, DESIGN CHOICE). -/
def Obligations.ResetPutsEveryRegisterAtItsValue : Prop :=
  (∀ t : State, (t = State.reset ∨ ∃ s, hostAct .reset s = .next t) →
    t.writer = { wbuf := 0#8, wcnt := 0#3, wbits := 0#32, wbytes := 0#32, wopenf := false, wleave := false } ∧
    t.reader = { rbuf := 0#8, rcnt := 0#4, reof := false, rbits := 0#32, rbytes := 0#32, ropenf := false, rleave := false } ∧
    t.decoder = { accRaw := 0#32, accLen := 0#6, cur := 0#9, dcount := 0#32 } ∧
    t.conf = { root := 0#9, maxlen := 0#6, dlimit := 0#32 } ∧
    (∀ i, t.mem.nodeAt i = 0x00000000#32) ∧ (∀ x, t.mem.codeAt x = { valid := false, len := 0#6, rawWord := 0#32 }) ∧
    t.regs = { cmd := 0#32, status := 0#32, result := 0#32, faults := 0#32, ioinfo := 0#32 }) ∧
  (∀ s : State, ∃ t, hostAct .reset s = .next t ∧ t.env = s.env ∧ t.host = s.host)

/-! ## Errors -/

/-- 40_bitwriter.md R80, 41_bitreader.md R100, 60_exceptions.md R186: a command in the wrong open or closed state takes
`BadState` with its sub-cause, and nothing but `STATUS` and `FAULTS` changes. -/
def Obligations.WrongStateTakesBadState : Prop :=
  ∀ (i : Instr) (s : State),
    (i.op = .wopen → s.writer.wopenf = true → exec i s = .next { s with
      regs := { s.regs with status := 0x00000207#32, faults := s.regs.faults ||| 0x00000080#32 } }) ∧
    (i.op ∈ [.wbit, .wbyte, .wclose, .encsym, .encode] → s.writer.wopenf = false → exec i s = .next { s with
      regs := { s.regs with status := 0x00000107#32, faults := s.regs.faults ||| 0x00000080#32 } }) ∧
    (i.op = .ropen → s.reader.ropenf = true → exec i s = .next { s with
      regs := { s.regs with status := 0x00000407#32, faults := s.regs.faults ||| 0x00000080#32 } }) ∧
    (i.op ∈ [.rbit, .rbyte, .rclose, .decsym, .decode] → s.reader.ropenf = false → exec i s = .next { s with
      regs := { s.regs with status := 0x00000307#32, faults := s.regs.faults ||| 0x00000080#32 } })

/-- 60_exceptions.md R181, R182, 30_encoding.md R68: every command that ends leaves one of the words `STATUS` can hold, with
an error kind this command can raise, and `ERR` ≠ 0 implies `RES` = 0. -/
def Obligations.EveryCommandEndsWithAStatusOfItsOwn : Prop :=
  ∀ (i : Instr) (s t : State), exec i s = .next t →
    t.regs.status ∈ statusWords ∧ errField t.regs.status ∈ errorsOf i ∧
    (errField t.regs.status ≠ 0#4 → resField t.regs.status = 0#2)

/-- 10_state.md R31: bit `k` of `FAULTS` is set when a word written to `CMD` ends with `ERR` = `k` ≥ 1, and only a reset
clears a bit. -/
def Obligations.FaultsRecordEveryErrorUntilReset : Prop :=
  (∀ (w : Word) (s t : State), execute w s = .next t →
    t.regs.faults = s.regs.faults |||
      (if errField t.regs.status = 0#4 then 0#32 else 1#32 <<< (errField t.regs.status).toNat)) ∧
  (∀ (a : HostAction .default) (s t : State) (k : Nat), a ≠ .reset → hostAct a s = .next t →
    s.regs.faults.getLsbD k = true → t.regs.faults.getLsbD k = true)

/-- 10_state.md R32, 60_exceptions.md R192: `IOINFO` changes only when a command ends with `IoError`, and is then the code of
an answer the environment was about to give. The answer lists are the model's record of the environment (notes/assumptions/2.md). -/
def Obligations.IoinfoHoldsThePortsOwnCode : Prop :=
  ∀ (i : Instr) (s t : State), exec i s = .next t →
    (errField t.regs.status ≠ 5#4 → t.regs.ioinfo = s.regs.ioinfo) ∧
    (errField t.regs.status = 5#4 → PortAnswer.ioError t.regs.ioinfo ∈
      s.env.sinkWriteAns ++ s.env.sinkReleaseAns ++ s.env.sourceReadAns ++ s.env.sourceReleaseAns)

/-- 43_decoder.md R141, 70_reset_and_hazards.md R212: in an environment whose streams are finite and that answers every call, whatever it
answers, every command ends: from every state, whatever the stores hold. A command need not end on an endless symbol input or source
(42_encoder.md R122 case c, 43_decoder.md R139 case e, 93_implementation_defined.md U7): that the streams of the environment are lists,
so finite, and its answers to come are lists is the model's choice (notes/assumptions/2.md), that an unanswered call is the only way not
to end its reading (3.md). -/
def Obligations.EveryCommandEndsWhenThePortsAnswer : Prop :=
  ∀ (i : Instr) (s : State),
    (∀ a ∈ s.env.sinkWriteAns ++ s.env.sinkReleaseAns ++ s.env.sourceReadAns ++ s.env.sourceReleaseAns,
      a ≠ PortAnswer.never) →
    (∀ a ∈ s.env.symReadAns ++ s.env.symWriteAns, a ≠ SymAnswer.never) →
    ∃ t, exec i s = .next t

/-- 70_reset_and_hazards.md R212, 93_implementation_defined.md U7: a command whose port call is never answered never completes. For
each command that calls a port and each port it calls, where that call comes, every call before it answered; `DECODE` is stuck where
its next `DECSYM` is. In general: a command that answers a next state has met no call that is never answered, and a command is stuck
only at a port that will leave a call unanswered. The answer lists are the model's record of the environment (notes/assumptions/2.md),
the named stuck state is the model's (3.md). -/
def Obligations.UnansweredPortCallsAreStuck : Prop :=
  ∀ s : State,
    (∀ b, s.writer.wopenf = true → s.writer.wcnt = 7#3 → nextAnswer s.env.sinkWriteAns = .never →
      exec (.wbit b) s = .fault (.portNeverAnswered .sinkWrite)) ∧
    (∀ v, s.writer.wopenf = true → nextAnswer s.env.sinkWriteAns = .never →
      exec (.wbyte v) s = .fault (.portNeverAnswered .sinkWrite)) ∧
    (s.writer.wopenf = true → s.writer.wcnt ≠ 0#3 → nextAnswer s.env.sinkWriteAns = .never →
      exec .wclose s = .fault (.portNeverAnswered .sinkWrite)) ∧
    (s.writer.wopenf = true → ¬(s.writer.wcnt ≠ 0#3 ∧ nextAnswer s.env.sinkWriteAns = .never) → s.writer.wleave = false →
      nextAnswer s.env.sinkReleaseAns = .never → exec .wclose s = .fault (.portNeverAnswered .sinkRelease)) ∧
    (∀ (x : Sym) (j : Nat) (later : List PortAnswer), s.writer.wopenf = true → GoodEntry (s.mem.codeAt x) →
      s.env.sinkWriteAns = List.replicate j .ok ++ .never :: later →
      j < (s.writer.wcnt.toNat + (s.mem.codeAt x).len.toNat) / 8 →
      exec (.encsym x) s = .fault (.portNeverAnswered .sinkWrite)) ∧
    (∀ (good more : List Sym) (j : Nat) (later : List PortAnswer), s.writer.wopenf = true → s.env.symIn = good ++ more →
      (∀ x ∈ good, GoodEntry (s.mem.codeAt x)) → (∀ a ∈ s.env.symReadAns, a = SymAnswer.ok) →
      s.env.sinkWriteAns = List.replicate j .ok ++ .never :: later →
      j < (s.writer.wcnt.toNat + (symbolBits s.mem good).length) / 8 ∨
        (more = [] ∧ j < (s.writer.wcnt.toNat + (symbolBits s.mem good).length + 7) / 8) →
      exec .encode s = .fault (.portNeverAnswered .sinkWrite)) ∧
    (∀ (good more : List Sym) (later : List SymAnswer), s.writer.wopenf = true → s.env.symIn = good ++ more →
      (∀ x ∈ good, GoodEntry (s.mem.codeAt x)) → (∀ a ∈ s.env.sinkWriteAns, a = PortAnswer.ok) →
      s.env.symReadAns = List.replicate good.length .ok ++ .never :: later →
      exec .encode s = .fault (.portNeverAnswered .symRead)) ∧
    (s.writer.wopenf = true → s.writer.wleave = false → (∀ x ∈ s.env.symIn, GoodEntry (s.mem.codeAt x)) →
      (∀ a ∈ s.env.symReadAns, a = SymAnswer.ok) → (∀ a ∈ s.env.sinkWriteAns, a = PortAnswer.ok) →
      nextAnswer s.env.sinkReleaseAns = .never → exec .encode s = .fault (.portNeverAnswered .sinkRelease)) ∧
    (s.reader.ropenf = true → s.reader.rcnt = 0#4 → s.reader.reof = false → nextAnswer s.env.sourceReadAns = .never →
      exec .rbit s = .fault (.portNeverAnswered .sourceRead)) ∧
    (s.reader.ropenf = true → s.reader.rcnt.toNat < 8 → s.reader.reof = false → nextAnswer s.env.sourceReadAns = .never →
      exec .rbyte s = .fault (.portNeverAnswered .sourceRead)) ∧
    (s.reader.ropenf = true → s.reader.rleave = false → nextAnswer s.env.sourceReleaseAns = .never →
      exec .rclose s = .fault (.portNeverAnswered .sourceRelease)) ∧
    (∀ (pulled more : List Byte) (later : List PortAnswer) (n : NodeIdx), s.reader.ropenf = true →
      s.reader.rcnt.toNat ≤ 8 → s.reader.reof = false → ConfigOk s → s.env.source = pulled ++ more →
      s.env.sourceReadAns = List.replicate pulled.length .ok ++ .never :: later →
      path s.mem s.conf.root (unreadBits s.reader ++ unpack pulled) = some n → isLeaf (s.mem.nodeAt n) = false →
      (unreadBits s.reader ++ unpack pulled).length ≤ s.conf.maxlen.toNat →
      exec .decsym s = .fault (.portNeverAnswered .sourceRead)) ∧
    (∀ (c rest : List Bool) (n : NodeIdx), s.reader.ropenf = true → s.reader.rcnt.toNat ≤ 8 → ConfigOk s →
      (∀ a ∈ s.env.sourceReadAns, a = PortAnswer.ok) → bitsToCome s = c ++ rest → path s.mem s.conf.root c = some n →
      isLeaf (s.mem.nodeAt n) = true → c.length ≤ s.conf.maxlen.toNat → nextSymAnswer s.env.symWriteAns = .never →
      exec .decsym s = .fault (.portNeverAnswered .symWrite)) ∧
    (∀ f, ¬(s.conf.dlimit ≠ 0#32 ∧ s.conf.dlimit.toNat ≤ s.decoder.dcount.toNat) →
      exec .decsym s = .fault f ∨ (∃ x t, decodeSymbol s = .done (.symbol x) t ∧ exec .decode t = .fault f) →
      exec .decode s = .fault f) ∧
    (∀ i t, exec i s = .next t → ∀ port, answersMet port s.env t.env) ∧
    (∀ i f, exec i s = .fault f → ∃ port, f = .portNeverAnswered port ∧ leavesUnanswered s.env port)

/-! ## Frames -/

/-- What the writer commands leave (40_bitwriter.md R81 to R84, "State written"): the reader, the decoder, the configuration,
both stores, `CMD`, `RESULT`, `IOINFO` but for an I/O error, the source, both symbol streams; `WLEAVE` but for `WOPEN`;
the release of the sink but for `WCLOSE`; `WOPENF` for `WBIT` and `WBYTE`; the whole environment for `WOPEN`. The answer lists are the
model's record of the environment (notes/assumptions/2.md). -/
def Obligations.WriterCommandsFrame : Prop :=
  ∀ (i : Instr) (s t : State), i.op ∈ [.wopen, .wbit, .wbyte, .wclose] → exec i s = .next t →
    t.reader = s.reader ∧ t.decoder = s.decoder ∧ t.conf = s.conf ∧ t.mem = s.mem ∧ t.host = s.host ∧
    t.regs.cmd = s.regs.cmd ∧ t.regs.result = s.regs.result ∧
    (errField t.regs.status ≠ 5#4 → t.regs.ioinfo = s.regs.ioinfo) ∧
    t.env.source = s.env.source ∧ t.env.sourceReleased = s.env.sourceReleased ∧
    t.env.symIn = s.env.symIn ∧ t.env.symOut = s.env.symOut ∧
    t.env.sourceReadAns = s.env.sourceReadAns ∧ t.env.sourceReleaseAns = s.env.sourceReleaseAns ∧
    t.env.symReadAns = s.env.symReadAns ∧ t.env.symWriteAns = s.env.symWriteAns ∧
    (i.op ≠ .wopen → t.writer.wleave = s.writer.wleave) ∧
    (i.op ≠ .wclose → t.env.sinkReleased = s.env.sinkReleased ∧ t.env.sinkReleaseAns = s.env.sinkReleaseAns) ∧
    (i.op ∈ [.wbit, .wbyte] → t.writer.wopenf = s.writer.wopenf) ∧
    (i.op = .wopen → t.env = s.env)

/-- What the encoder commands leave (42_encoder.md R121, R122, "State written"): as the writer's, but that `RESULT` is written
on `UnknownSymbol` and `BadConfig`, and `ENCODE` takes symbols off the symbol input and may close. The answer lists are
the model's record of the environment (notes/assumptions/2.md). -/
def Obligations.EncoderCommandsFrame : Prop :=
  ∀ (i : Instr) (s t : State), i.op ∈ [.encsym, .encode] → exec i s = .next t →
    t.reader = s.reader ∧ t.decoder = s.decoder ∧ t.conf = s.conf ∧ t.mem = s.mem ∧ t.host = s.host ∧
    t.regs.cmd = s.regs.cmd ∧
    (errField t.regs.status ∉ [2#4, 8#4] → t.regs.result = s.regs.result) ∧
    (errField t.regs.status ≠ 5#4 → t.regs.ioinfo = s.regs.ioinfo) ∧
    t.env.source = s.env.source ∧ t.env.sourceReleased = s.env.sourceReleased ∧ t.env.symOut = s.env.symOut ∧
    t.env.sourceReadAns = s.env.sourceReadAns ∧ t.env.sourceReleaseAns = s.env.sourceReleaseAns ∧
    t.env.symWriteAns = s.env.symWriteAns ∧
    t.writer.wleave = s.writer.wleave ∧
    (i.op = .encsym → t.writer.wopenf = s.writer.wopenf ∧ t.env.symIn = s.env.symIn ∧
      t.env.symReadAns = s.env.symReadAns ∧ t.env.sinkReleased = s.env.sinkReleased ∧
      t.env.sinkReleaseAns = s.env.sinkReleaseAns)

/-- What the reader commands leave (41_bitreader.md R101 to R104, "State written"): the writer, the configuration, both
stores, `CMD`, the sink, both symbol streams; the decoder but for `ROPEN`; `RESULT` but for `RBIT` and `RBYTE`; the release
of the source but for `RCLOSE`; the whole environment for `ROPEN`. The answer lists are the model's record of the environment
(notes/assumptions/2.md). -/
def Obligations.ReaderCommandsFrame : Prop :=
  ∀ (i : Instr) (s t : State), i.op ∈ [.ropen, .rbit, .rbyte, .rclose] → exec i s = .next t →
    t.writer = s.writer ∧ t.conf = s.conf ∧ t.mem = s.mem ∧ t.host = s.host ∧ t.regs.cmd = s.regs.cmd ∧
    (errField t.regs.status ≠ 5#4 → t.regs.ioinfo = s.regs.ioinfo) ∧
    t.env.sink = s.env.sink ∧ t.env.sinkReleased = s.env.sinkReleased ∧
    t.env.symIn = s.env.symIn ∧ t.env.symOut = s.env.symOut ∧
    t.env.sinkWriteAns = s.env.sinkWriteAns ∧ t.env.sinkReleaseAns = s.env.sinkReleaseAns ∧
    t.env.symReadAns = s.env.symReadAns ∧ t.env.symWriteAns = s.env.symWriteAns ∧
    (i.op ≠ .ropen → t.decoder = s.decoder ∧ t.reader.rleave = s.reader.rleave) ∧
    (i.op ∈ [.ropen, .rclose] → t.regs.result = s.regs.result ∧ t.env.source = s.env.source ∧
      t.env.sourceReadAns = s.env.sourceReadAns) ∧
    (i.op ≠ .rclose → t.env.sourceReleased = s.env.sourceReleased ∧ t.env.sourceReleaseAns = s.env.sourceReleaseAns) ∧
    (i.op ∈ [.rbit, .rbyte] → t.reader.ropenf = s.reader.ropenf) ∧
    (i.op = .rclose → t.reader = { s.reader with ropenf := false } ∨ t.reader = s.reader) ∧
    (i.op = .ropen → t.env = s.env)

/-- What the decoder commands leave (43_decoder.md R138, R139, "State written"): the writer, the configuration, both stores,
`CMD`, the sink, the symbol input, both release bits, `ROPENF` and `RLEAVE`. The answer lists are the model's record of the
environment (notes/assumptions/2.md). -/
def Obligations.DecoderCommandsFrame : Prop :=
  ∀ (i : Instr) (s t : State), i.op ∈ [.decsym, .decode] → exec i s = .next t →
    t.writer = s.writer ∧ t.conf = s.conf ∧ t.mem = s.mem ∧ t.host = s.host ∧ t.regs.cmd = s.regs.cmd ∧
    (errField t.regs.status ≠ 5#4 → t.regs.ioinfo = s.regs.ioinfo) ∧
    t.reader.ropenf = s.reader.ropenf ∧ t.reader.rleave = s.reader.rleave ∧
    t.env.sink = s.env.sink ∧ t.env.sinkReleased = s.env.sinkReleased ∧ t.env.symIn = s.env.symIn ∧
    t.env.sourceReleased = s.env.sourceReleased ∧
    t.env.sinkWriteAns = s.env.sinkWriteAns ∧ t.env.sinkReleaseAns = s.env.sinkReleaseAns ∧
    t.env.sourceReleaseAns = s.env.sourceReleaseAns ∧ t.env.symReadAns = s.env.symReadAns

/-- 60_exceptions.md R185, 20_memory.md R44, R48: no command takes back a byte the sink has accepted or a symbol delivered;
the source and the symbol input are only consumed from the front. `calls` is the model's record (notes/assumptions/13.md). -/
def Obligations.NothingDeliveredIsTakenBack : Prop :=
  ∀ (i : Instr) (s t : State), exec i s = .next t →
    s.env.sink <+: t.env.sink ∧ s.env.symOut <+: t.env.symOut ∧ s.env.calls <+: t.env.calls ∧
    t.env.source <:+ s.env.source ∧ t.env.symIn <:+ s.env.symIn

/-! ## The writer -/

/-- 40_bitwriter.md R81: `WOPEN`. -/
def Obligations.WopenBeginsAPass : Prop :=
  ∀ (leave : Bool) (s : State), exec (.wopen leave) s =
    if s.writer.wopenf = false then .next { s with
      writer := { wbuf := 0#8, wcnt := 0#3, wbits := 0#32, wbytes := 0#32, wopenf := true, wleave := leave }
      regs := { s.regs with status := 0x00000000#32 } }
    else .next { s with
      regs := { s.regs with status := 0x00000207#32, faults := s.regs.faults ||| 0x00000080#32 } }

/-- 40_bitwriter.md R82: `WBIT`, in every case; an unanswered call of the sink never ends (70_reset_and_hazards.md R212,
93_implementation_defined.md U7). The answer lists and `calls` are the model's record of the environment (notes/assumptions/2.md,
13.md), that a failing byte is not in the sink is its reading of R45 (7.md), the named stuck state is the model's (3.md). -/
def Obligations.WbitWritesOneBit : Prop :=
  ∀ (b : Bool) (s : State),
    let full := s.writer.wbuf ||| (if b then 0x80#8 >>> s.writer.wcnt.toNat else 0#8)
    let called := { s.env with
      sinkWriteAns := s.env.sinkWriteAns.tail, calls := s.env.calls ++ [PortCall.sinkWrite full] }
    let emptied := { s.writer with wbuf := 0#8, wcnt := 0#3, wbits := s.writer.wbits + 1#32 }
    exec (.wbit b) s =
      if s.writer.wopenf = false then .next { s with
        regs := { s.regs with status := 0x00000107#32, faults := s.regs.faults ||| 0x00000080#32 } }
      else if s.writer.wcnt ≠ 7#3 then .next { s with
        writer := { s.writer with wbuf := full, wcnt := s.writer.wcnt + 1#3, wbits := s.writer.wbits + 1#32 }
        regs := { s.regs with status := 0x00000000#32 } }
      else match nextAnswer s.env.sinkWriteAns with
        | .ok => .next { s with
            writer := { emptied with wbytes := s.writer.wbytes + 1#32 }
            env := { called with sink := s.env.sink ++ [full] }
            regs := { s.regs with status := 0x00000000#32 } }
        | .ioError e => .next { s with
            writer := emptied
            env := called
            regs := { s.regs with
              status := 0x00000105#32, ioinfo := e, faults := s.regs.faults ||| 0x00000020#32 } }
        | .never => .fault (.portNeverAnswered .sinkWrite)

/-- 40_bitwriter.md R83: `WBYTE`. With `WCNT` = k the sink gets the k old bits and the high 8-k bits of the value, and the low
k bits stay, at the top of `WBUF`; when the sink fails, the 8-k bits are counted and lost and the rest is not written;
an unanswered call of the sink never ends (70_reset_and_hazards.md R212, 93_implementation_defined.md U7). The answer lists and `calls`
are the model's record of the environment (notes/assumptions/2.md, 13.md), that a failing byte is not in the sink is its reading of
20_memory.md R45 (7.md), the named stuck state is the model's (3.md). -/
def Obligations.WbyteCrossesOneByteBoundary : Prop :=
  ∀ (v : Byte) (s : State),
    let k := s.writer.wcnt.toNat
    let full := s.writer.wbuf ||| v >>> k
    let called := { s.env with
      sinkWriteAns := s.env.sinkWriteAns.tail, calls := s.env.calls ++ [PortCall.sinkWrite full] }
    exec (.wbyte v) s =
      if s.writer.wopenf = false then .next { s with
        regs := { s.regs with status := 0x00000107#32, faults := s.regs.faults ||| 0x00000080#32 } }
      else match nextAnswer s.env.sinkWriteAns with
        | .ok => .next { s with
            writer := { s.writer with
              wbuf := v <<< (8 - k), wbits := s.writer.wbits + 8#32, wbytes := s.writer.wbytes + 1#32 }
            env := { called with sink := s.env.sink ++ [full] }
            regs := { s.regs with status := 0x00000000#32 } }
        | .ioError e => .next { s with
            writer := { s.writer with wbuf := 0#8, wcnt := 0#3, wbits := s.writer.wbits + BitVec.ofNat 32 (8 - k) }
            env := called
            regs := { s.regs with
              status := 0x00000105#32, ioinfo := e, faults := s.regs.faults ||| 0x00000020#32 } }
        | .never => .fault (.portNeverAnswered .sinkWrite)

/-- 40_bitwriter.md R84: `WCLOSE`. A partial byte is flushed as it stands; the sink is released unless `WLEAVE`, also after a
failed flush; the writer ends closed in every case; the first error met is the one reported. The answer lists,
`calls` and the release bit after a failed release are the model's record of the environment (notes/assumptions/2.md, 13.md,
6.md), that a failing byte is not in the sink is its reading of R45 (7.md), being stuck at a port is the model's (3.md). -/
def Obligations.WcloseFlushesReleasesAndCloses : Prop :=
  ∀ s : State,
    let flushing := s.writer.wcnt ≠ 0#3
    let wAns := nextAnswer s.env.sinkWriteAns
    let rAns := nextAnswer s.env.sinkReleaseAns
    let releasing := s.writer.wleave = false
    let writer := { s.writer with
      wbuf := if flushing then 0#8 else s.writer.wbuf
      wcnt := 0#3
      wbytes := if flushing ∧ wAns = .ok then s.writer.wbytes + 1#32 else s.writer.wbytes
      wopenf := false }
    let env := { s.env with
      sink := if flushing ∧ wAns = .ok then s.env.sink ++ [s.writer.wbuf] else s.env.sink
      sinkReleased := if releasing then true else s.env.sinkReleased
      sinkWriteAns := if flushing then s.env.sinkWriteAns.tail else s.env.sinkWriteAns
      sinkReleaseAns := if releasing then s.env.sinkReleaseAns.tail else s.env.sinkReleaseAns
      calls := s.env.calls ++ (if flushing then [PortCall.sinkWrite s.writer.wbuf] else []) ++
        (if releasing then [PortCall.sinkRelease] else []) }
    (s.writer.wopenf = false → exec .wclose s = .next { s with
      regs := { s.regs with status := 0x00000107#32, faults := s.regs.faults ||| 0x00000080#32 } }) ∧
    (s.writer.wopenf = true → flushing → wAns = .never → exec .wclose s = .fault (.portNeverAnswered .sinkWrite)) ∧
    (s.writer.wopenf = true → ¬(flushing ∧ wAns = .never) → releasing → rAns = .never →
      exec .wclose s = .fault (.portNeverAnswered .sinkRelease)) ∧
    (s.writer.wopenf = true → ¬(flushing ∧ wAns ≠ .ok) → ¬(releasing ∧ rAns ≠ .ok) → exec .wclose s = .next { s with
      writer := writer, env := env, regs := { s.regs with status := 0x00000000#32 } }) ∧
    (∀ e, s.writer.wopenf = true → flushing → wAns = .ioError e → ¬(releasing ∧ rAns = .never) →
      exec .wclose s = .next { s with
        writer := writer, env := env
        regs := { s.regs with status := 0x00000105#32, ioinfo := e, faults := s.regs.faults ||| 0x00000020#32 } }) ∧
    (∀ e, s.writer.wopenf = true → ¬(flushing ∧ wAns ≠ .ok) → releasing → rAns = .ioError e →
      exec .wclose s = .next { s with
        writer := writer, env := env
        regs := { s.regs with status := 0x00000205#32, ioinfo := e, faults := s.regs.faults ||| 0x00000020#32 } })

/-- 30_encoding.md R65, 40_bitwriter.md R83: `WBYTES` from an empty partial byte hands the sink exactly its bytes, in order,
and holds no bit after them. -/
def Obligations.BulkWriteDeliversItsBytes : Prop :=
  ∀ (s : State) (bs : List Byte), s.writer.wopenf = true → s.writer.wcnt = 0#3 → s.writer.wbuf = 0#8 →
    (∀ a ∈ s.env.sinkWriteAns, a = PortAnswer.ok) →
    ∃ t, wbytesSeq bs s = .next t ∧ t.env.sink = s.env.sink ++ bs ∧ t.writer.wcnt = 0#3 ∧ t.writer.wbuf = 0#8 ∧
      t.writer.wbits = s.writer.wbits + BitVec.ofNat 32 (8 * bs.length) ∧
      t.writer.wbytes = s.writer.wbytes + BitVec.ofNat 32 bs.length ∧ t.regs.faults = s.regs.faults

/-! ## The reader -/

/-- 41_bitreader.md R101: `ROPEN`. -/
def Obligations.RopenBeginsAPass : Prop :=
  ∀ (leave : Bool) (s : State), exec (.ropen leave) s =
    if s.reader.ropenf = false then .next { s with
      reader := { rbuf := 0#8, rcnt := 0#4, reof := false, rbits := 0#32, rbytes := 0#32, ropenf := true, rleave := leave }
      decoder := { accRaw := 0#32, accLen := 0#6, cur := s.conf.root, dcount := 0#32 }
      regs := { s.regs with status := 0x00000000#32 } }
    else .next { s with
      regs := { s.regs with status := 0x00000407#32, faults := s.regs.faults ||| 0x00000080#32 } }

/-- 41_bitreader.md R102: `RBIT`, in every case; the source is asked only when no bit is held and the end of the input has not
been seen; an unanswered call of it never ends (70_reset_and_hazards.md R212, 93_implementation_defined.md U7). The answer lists and
`calls` are the model's record of the environment (notes/assumptions/2.md, 13.md), that a failed call leaves the source's bytes as they
are and that a source answers end-of-input once its bytes are used up is its reading of R102 case d and 20_memory.md R49 (8.md), the
named stuck state is the model's (3.md). -/
def Obligations.RbitReadsOneBit : Prop :=
  ∀ s : State,
    let called := { s.env with sourceReadAns := s.env.sourceReadAns.tail, calls := s.env.calls ++ [PortCall.sourceRead] }
    exec .rbit s =
      if s.reader.ropenf = false then .next { s with
        regs := { s.regs with status := 0x00000307#32, faults := s.regs.faults ||| 0x00000080#32 } }
      else if s.reader.rcnt ≠ 0#4 then .next { s with
        reader := { s.reader with rcnt := s.reader.rcnt - 1#4, rbits := s.reader.rbits + 1#32 }
        regs := { s.regs with
          status := 0x00000010#32
          result := if s.reader.rbuf.getLsbD (s.reader.rcnt.toNat - 1) then 1#32 else 0#32 } }
      else if s.reader.reof then .next { s with
        regs := { s.regs with status := 0x00000020#32, result := 0#32 } }
      else match nextAnswer s.env.sourceReadAns, s.env.source with
        | .ok, y :: rest => .next { s with
            reader := { s.reader with
              rbuf := y, rcnt := 7#4, rbytes := s.reader.rbytes + 1#32, rbits := s.reader.rbits + 1#32 }
            env := { called with source := rest }
            regs := { s.regs with status := 0x00000010#32, result := if y.getLsbD 7 then 1#32 else 0#32 } }
        | .ok, [] => .next { s with
            reader := { s.reader with reof := true }
            env := called
            regs := { s.regs with status := 0x00000020#32, result := 0#32 } }
        | .ioError e, _ => .next { s with
            env := called
            regs := { s.regs with
              status := 0x00000305#32, ioinfo := e, faults := s.regs.faults ||| 0x00000020#32 } }
        | .never, _ => .fault (.portNeverAnswered .sourceRead)

/-- 41_bitreader.md R103, R105: `RBYTE` with eight bits or more to come returns the next eight, the first most significant;
with fewer it consumes them, returns none and answers end-of-input. -/
def Obligations.RbyteReadsEightBits : Prop :=
  ∀ (s : State) (y : Byte) (rest : List Bool), s.reader.ropenf = true → s.reader.rcnt.toNat ≤ 8 →
    (∀ a ∈ s.env.sourceReadAns, a = PortAnswer.ok) →
    (bitsToCome s = byteBits y ++ rest →
      ∃ t, exec .rbyte s = .next t ∧ t.regs = { s.regs with status := 0x00000010#32, result := y.setWidth 32 } ∧
        bitsToCome t = rest ∧ t.reader.rbits = s.reader.rbits + 8#32) ∧
    ((bitsToCome s).length < 8 →
      ∃ t, exec .rbyte s = .next t ∧ t.regs = { s.regs with status := 0x00000020#32, result := 0#32 } ∧
        bitsToCome t = [] ∧ t.reader.reof = true ∧
        t.reader.rbits = s.reader.rbits + BitVec.ofNat 32 (bitsToCome s).length)

/-- 41_bitreader.md R103 case c, R106: when the source fails inside `RBYTE`, the bits already taken stay consumed and counted,
nothing of the source is, and the reader stays open. The answer list and `calls` are the model's record of the environment
(notes/assumptions/2.md, 13.md, 8.md). -/
def Obligations.RbyteSourceErrorKeepsWhatWasTaken : Prop :=
  ∀ (s : State) (e : Word), s.reader.ropenf = true → s.reader.rcnt.toNat < 8 → s.reader.reof = false →
    nextAnswer s.env.sourceReadAns = .ioError e →
    exec .rbyte s = .next { s with
      reader := { s.reader with
        rcnt := 0#4, rbits := s.reader.rbits + s.reader.rcnt.setWidth 32 }
      env := { s.env with sourceReadAns := s.env.sourceReadAns.tail, calls := s.env.calls ++ [.sourceRead] }
      regs := { s.regs with status := 0x00000305#32, ioinfo := e, faults := s.regs.faults ||| 0x00000020#32 } }

/-- 41_bitreader.md R104: `RCLOSE`, in every case; an unanswered release never ends (70_reset_and_hazards.md R212,
93_implementation_defined.md U7). The answer list, `calls` and the release bit after a failed release are the model's record of the
environment (notes/assumptions/2.md, 13.md, 6.md), the named stuck state is the model's (3.md). -/
def Obligations.RcloseReleasesAndCloses : Prop :=
  ∀ s : State,
    let closed := { s.reader with ropenf := false }
    let called := { s.env with
      sourceReleased := true, sourceReleaseAns := s.env.sourceReleaseAns.tail
      calls := s.env.calls ++ [PortCall.sourceRelease] }
    exec .rclose s =
      if s.reader.ropenf = false then .next { s with
        regs := { s.regs with status := 0x00000307#32, faults := s.regs.faults ||| 0x00000080#32 } }
      else if s.reader.rleave then .next { s with
        reader := closed, regs := { s.regs with status := 0x00000000#32 } }
      else match nextAnswer s.env.sourceReleaseAns with
        | .ok => .next { s with reader := closed, env := called, regs := { s.regs with status := 0x00000000#32 } }
        | .ioError e => .next { s with
            reader := closed
            env := called
            regs := { s.regs with
              status := 0x00000405#32, ioinfo := e, faults := s.regs.faults ||| 0x00000020#32 } }
        | .never => .fault (.portNeverAnswered .sourceRelease)

/-! ## The encoder -/

/-- 42_encoder.md R121, 60_exceptions.md R187: an absent symbol, whatever its `LEN`, then a present one with a bad length, end
`ENCSYM` before any bit is written; `RESULT` holds the symbol. -/
def Obligations.EncsymRefusesAbsentAndBadCodes : Prop :=
  ∀ (x : Sym) (s : State), s.writer.wopenf = true →
    ((s.mem.codeAt x).valid = false → exec (.encsym x) s = .next { s with
      regs := { s.regs with
        status := 0x00000002#32, result := x.setWidth 32, faults := s.regs.faults ||| 0x00000004#32 } }) ∧
    ((s.mem.codeAt x).valid = true → (s.mem.codeAt x).len.toNat = 0 ∨ 32 < (s.mem.codeAt x).len.toNat →
      exec (.encsym x) s = .next { s with
        regs := { s.regs with
          status := 0x00000308#32, result := x.setWidth 32, faults := s.regs.faults ||| 0x00000100#32 } })

/-- 42_encoder.md R121, R123: `ENCSYM` of a present symbol appends the bits of its code, the most significant first. While the sink
accepts every byte, the bytes it hands to the sink and the bits it then holds are the bits it held and the code's. When the sink
answers `IoError` at one of its bytes (R121 case b), the bytes before are in the sink, the bits up to and with the failing byte are
counted and lost, the bits after it are not written, the writer stays open. The answer lists and `calls` are the model's record of
the environment (notes/assumptions/2.md, 13.md), that a failing byte is not in the sink is its reading of R45 (7.md). -/
def Obligations.EncsymAppendsItsCode : Prop :=
  ∀ (x : Sym) (s : State), s.writer.wopenf = true → s.writer.wbuf <<< s.writer.wcnt.toNat = 0#8 →
    GoodEntry (s.mem.codeAt x) →
    let code := codeBits (s.mem.codeAt x).raw (s.mem.codeAt x).len.toNat
    ((∀ a ∈ s.env.sinkWriteAns, a = PortAnswer.ok) →
      ∃ t out, exec (.encsym x) s = .next t ∧ t.env.sink = s.env.sink ++ out ∧
        unpack out ++ heldBits t.writer = heldBits s.writer ++ code ∧
        t.writer.wbuf <<< t.writer.wcnt.toNat = 0#8 ∧
        t.writer.wbits = s.writer.wbits + (s.mem.codeAt x).len.setWidth 32 ∧
        t.writer.wbytes = s.writer.wbytes + BitVec.ofNat 32 out.length ∧
        out.length = (s.writer.wcnt.toNat + (s.mem.codeAt x).len.toNat) / 8 ∧
        t.regs = { s.regs with status := 0x00000000#32 }) ∧
    (∀ (j : Nat) (e : Word) (later : List PortAnswer), s.env.sinkWriteAns = List.replicate j .ok ++ .ioError e :: later →
      j < (s.writer.wcnt.toNat + (s.mem.codeAt x).len.toNat) / 8 →
      let bytes := pack ((heldBits s.writer ++ code).take (8 * (j + 1)))
      exec (.encsym x) s = .next { s with
        writer := { s.writer with
          wbuf := 0#8, wcnt := 0#3
          wbits := s.writer.wbits + BitVec.ofNat 32 (8 * (j + 1) - s.writer.wcnt.toNat)
          wbytes := s.writer.wbytes + BitVec.ofNat 32 j }
        env := { s.env with
          sink := s.env.sink ++ bytes.take j
          sinkWriteAns := later
          calls := s.env.calls ++ bytes.map PortCall.sinkWrite }
        regs := { s.regs with
          status := 0x00000105#32, ioinfo := e, faults := s.regs.faults ||| 0x00000020#32 } })

/-- 42_encoder.md R122, R124, 30_encoding.md R71, 40_bitwriter.md R85: in an error-free environment `ENCODE` of symbols that
are all present puts in the sink the packed bits held before and of the codes, closes, and releases unless `WLEAVE`. -/
def Obligations.EncodeWritesThePackedStream : Prop :=
  ∀ s : State, s.writer.wopenf = true → s.writer.wbuf <<< s.writer.wcnt.toNat = 0#8 →
    (∀ x ∈ s.env.symIn, GoodEntry (s.mem.codeAt x)) → SinkErrorFree s.env → SymbolsAnswered s.env →
    ∃ t, exec .encode s = .next t ∧
      t.env.sink = s.env.sink ++ pack (heldBits s.writer ++ symbolBits s.mem s.env.symIn) ∧
      t.env.symIn = [] ∧ t.env.sinkReleased = (s.env.sinkReleased || !s.writer.wleave) ∧
      t.writer.wopenf = false ∧ t.writer.wcnt = 0#3 ∧ t.writer.wbuf = 0#8 ∧
      t.writer.wbits = s.writer.wbits + BitVec.ofNat 32 (symbolBits s.mem s.env.symIn).length ∧
      t.regs = { s.regs with status := 0x00000000#32 }

/-- 42_encoder.md R122 case a, 60_exceptions.md R185: at the first absent symbol `ENCODE` ends with `UnknownSymbol`, the
symbols before it written, those after it not read, the writer still open and the sink not released. -/
def Obligations.EncodeStopsAtAnUnknownSymbol : Prop :=
  ∀ (s : State) (good rest : List Sym) (x : Sym), s.writer.wopenf = true →
    s.writer.wbuf <<< s.writer.wcnt.toNat = 0#8 → s.env.symIn = good ++ x :: rest →
    (∀ y ∈ good, GoodEntry (s.mem.codeAt y)) → (s.mem.codeAt x).valid = false →
    (∀ a ∈ s.env.sinkWriteAns, a = PortAnswer.ok) → SymbolsAnswered s.env →
    ∃ t out, exec .encode s = .next t ∧ t.env.symIn = rest ∧ t.env.sink = s.env.sink ++ out ∧
      unpack out ++ heldBits t.writer = heldBits s.writer ++ symbolBits s.mem good ∧
      t.writer.wopenf = true ∧ t.env.sinkReleased = s.env.sinkReleased ∧
      t.regs = { s.regs with
        status := 0x00000002#32, result := x.setWidth 32, faults := s.regs.faults ||| 0x00000004#32 }

/-- 42_encoder.md R122 "Equivalence", 30_encoding.md R65: `ENCODE` and `ENCODESEQ` of the symbols on the symbol input end
alike, in every environment that answers `SymRead`: the same writer, sink, status, result and faults, or stuck at the same
port. The answer lists are the model's record of the environment (notes/assumptions/2.md), being stuck at a port is the model's
(3.md). -/
def Obligations.EncodeIsTheSequenceOfItsCommands : Prop :=
  ∀ s : State, s.writer.wopenf = true → (∀ a ∈ s.env.symReadAns, a = SymAnswer.ok) →
    match exec .encode s, encodeSeq s.env.symIn s with
    | .next t, .next u =>
      t.writer = u.writer ∧ t.reader = u.reader ∧ t.decoder = u.decoder ∧ t.conf = u.conf ∧ t.mem = u.mem ∧
      t.env.sink = u.env.sink ∧ t.env.sinkReleased = u.env.sinkReleased ∧
      t.env.sinkWriteAns = u.env.sinkWriteAns ∧ t.env.sinkReleaseAns = u.env.sinkReleaseAns ∧
      t.regs.status = u.regs.status ∧ t.regs.result = u.regs.result ∧ t.regs.faults = u.regs.faults ∧
      t.regs.ioinfo = u.regs.ioinfo
    | .fault p, .fault q => p = q
    | _, _ => False

/-- 42_encoder.md R122, the loop: a round takes a symbol off the symbol input and encodes it, or closes at its end. The bound that the
model's loop carries is never reached (notes/assumptions/14.md). -/
def Obligations.EncodeLoopEquation : Prop :=
  ∀ s : State, encodeAll s = (symRead s).bind fun r s' =>
    match r with
    | none => closeWriter s'
    | some x => (encodeSymbol x s').bind fun _ s'' => encodeAll s''

/-! ## The decoder -/

/-- 43_decoder.md R135, 60_exceptions.md R187: a bad `MAXLEN`, then a Leaf at the root, end `DECSYM` and `DECODE` before any
bit is read. -/
def Obligations.DecoderChecksItsConfiguration : Prop :=
  ∀ (i : Instr) (s : State), i.op ∈ [.decsym, .decode] → s.reader.ropenf = true →
    (s.conf.maxlen.toNat = 0 ∨ 32 < s.conf.maxlen.toNat → exec i s = .next { s with
      regs := { s.regs with status := 0x00000108#32, faults := s.regs.faults ||| 0x00000100#32 } }) ∧
    (1 ≤ s.conf.maxlen.toNat → s.conf.maxlen.toNat ≤ 32 → isLeaf (s.mem.nodeAt s.conf.root) = true →
      exec i s = .next { s with
        regs := { s.regs with status := 0x00000208#32, faults := s.regs.faults ||| 0x00000100#32 } })

/-- 43_decoder.md R137, 30_encoding.md R66: which child a bit selects, by the bits of the node word. -/
def Obligations.ChildSelection : Prop :=
  ∀ n : Word,
    (n.getLsbD 9 = true → n.getLsbD 25 = true →
      child n false = some (n.extractLsb' 0 9) ∧ child n true = some (n.extractLsb' 16 9)) ∧
    (n.getLsbD 9 = true → n.getLsbD 25 = false → child n false = some (n.extractLsb' 0 9) ∧ child n true = none) ∧
    (n.getLsbD 9 = false → n.getLsbD 25 = true → child n false = some (n.extractLsb' 16 9) ∧ child n true = none) ∧
    (n.getLsbD 9 = false → n.getLsbD 25 = false → child n false = none ∧ child n true = none)

/-- 43_decoder.md R138, R136: when the bits to come begin with a path from the root to a Leaf no longer than `MAXLEN`, `DECSYM`
emits the Leaf's symbol, and has read that path and no more. -/
def Obligations.DecsymEmitsTheLeafReached : Prop :=
  ∀ (s : State) (c rest : List Bool) (n : NodeIdx), s.reader.ropenf = true → s.reader.rcnt.toNat ≤ 8 → ConfigOk s →
    (∀ a ∈ s.env.sourceReadAns, a = PortAnswer.ok) → nextSymAnswer s.env.symWriteAns = .ok →
    bitsToCome s = c ++ rest → path s.mem s.conf.root c = some n → isLeaf (s.mem.nodeAt n) = true →
    c.length ≤ s.conf.maxlen.toNat →
    ∃ t, exec .decsym s = .next t ∧ t.env.symOut = s.env.symOut ++ [symOf (s.mem.nodeAt n)] ∧
      t.regs = { s.regs with status := 0x00000010#32, result := (symOf (s.mem.nodeAt n)).setWidth 32 } ∧
      t.decoder = { accRaw := 0#32, accLen := 0#6, cur := s.conf.root, dcount := s.decoder.dcount + 1#32 } ∧
      bitsToCome t = rest ∧ t.reader.rbits = s.reader.rbits + BitVec.ofNat 32 c.length

/-- 43_decoder.md R138, R136, 60_exceptions.md R183, R191: the other ends of `DECSYM`: the clean end, `Truncated`, `NoChild`,
`TooLong`, each with the accumulator and `CUR` it leaves, no symbol emitted, and the failing bit consumed. -/
def Obligations.DecsymEndsWithoutASymbol : Prop :=
  ∀ (s : State) (c rest : List Bool) (b : Bool) (n : NodeIdx), s.reader.ropenf = true → s.reader.rcnt.toNat ≤ 8 →
    ConfigOk s → (∀ a ∈ s.env.sourceReadAns, a = PortAnswer.ok) →
    path s.mem s.conf.root c = some n → isLeaf (s.mem.nodeAt n) = false →
    (bitsToCome s = [] →
      ∃ t, exec .decsym s = .next t ∧ t.regs = { s.regs with status := 0x00000020#32, result := 0#32 } ∧
        t.decoder = { s.decoder with accRaw := 0#32, accLen := 0#6, cur := s.conf.root } ∧
        bitsToCome t = [] ∧ t.env.symOut = s.env.symOut) ∧
    (bitsToCome s = c → c ≠ [] → c.length ≤ s.conf.maxlen.toNat →
      ∃ t, exec .decsym s = .next t ∧
        t.regs = { s.regs with status := 0x00000103#32, faults := s.regs.faults ||| 0x00000008#32 } ∧
        t.decoder = { s.decoder with accRaw := bitsToWord c, accLen := BitVec.ofNat 6 c.length, cur := n } ∧
        bitsToCome t = [] ∧ t.env.symOut = s.env.symOut) ∧
    (bitsToCome s = c ++ b :: rest → c.length < s.conf.maxlen.toNat → child (s.mem.nodeAt n) b = none →
      ∃ t, exec .decsym s = .next t ∧
        t.regs = { s.regs with status := 0x00000303#32, faults := s.regs.faults ||| 0x00000008#32 } ∧
        t.decoder = { s.decoder with
          accRaw := bitsToWord (c ++ [b]), accLen := BitVec.ofNat 6 (c.length + 1), cur := n } ∧
        bitsToCome t = rest ∧ t.env.symOut = s.env.symOut) ∧
    (bitsToCome s = c ++ b :: rest → c.length = s.conf.maxlen.toNat →
      ∃ t, exec .decsym s = .next t ∧
        t.regs = { s.regs with status := 0x00000203#32, faults := s.regs.faults ||| 0x00000008#32 } ∧
        t.decoder = { s.decoder with
          accRaw := bitsToWord (c ++ [b]), accLen := BitVec.ofNat 6 (c.length + 1), cur := n } ∧
        bitsToCome t = rest ∧ t.env.symOut = s.env.symOut)

/-- 43_decoder.md R138 case f, 41_bitreader.md R106, 60_exceptions.md R183, R192: when the source fails at any `SourceRead` of the
command, after the bits held and those of any number of bytes pulled have led to an Internal node, `DECSYM` ends with `IoError` and the
port's own code; the bits read stay consumed, the accumulator and `CUR` stand as they are, nothing more of the source is consumed, no
symbol is emitted. The answer list and `calls` are the model's record of the environment (notes/assumptions/2.md, 13.md, 8.md). -/
def Obligations.DecsymSourceErrorKeepsTheAccumulator : Prop :=
  ∀ (s : State) (pulled more : List Byte) (e : Word) (later : List PortAnswer) (n : NodeIdx), s.reader.ropenf = true →
    s.reader.rcnt.toNat ≤ 8 → s.reader.reof = false → ConfigOk s → s.env.source = pulled ++ more →
    s.env.sourceReadAns = List.replicate pulled.length .ok ++ .ioError e :: later →
    let c := unreadBits s.reader ++ unpack pulled
    path s.mem s.conf.root c = some n → isLeaf (s.mem.nodeAt n) = false → c.length ≤ s.conf.maxlen.toNat →
    exec .decsym s = .next { s with
      reader := { s.reader with
        rbuf := pulled.getLastD s.reader.rbuf, rcnt := 0#4
        rbits := s.reader.rbits + BitVec.ofNat 32 c.length
        rbytes := s.reader.rbytes + BitVec.ofNat 32 pulled.length }
      decoder := { s.decoder with accRaw := bitsToWord c, accLen := BitVec.ofNat 6 c.length, cur := n }
      env := { s.env with
        source := more, sourceReadAns := later
        calls := s.env.calls ++ List.replicate (pulled.length + 1) .sourceRead }
      regs := { s.regs with status := 0x00000305#32, ioinfo := e, faults := s.regs.faults ||| 0x00000020#32 } }

/-- 43_decoder.md R141: whatever the stores hold, one `DECSYM` reads at most `MAXLEN` + 1 bits. -/
def Obligations.DecsymReadsAtMostMaxlenPlusOneBits : Prop :=
  ∀ s t : State, exec .decsym s = .next t →
    ∃ k, k ≤ s.conf.maxlen.toNat + 1 ∧ k ≤ 33 ∧ t.reader.rbits = s.reader.rbits + BitVec.ofNat 32 k

/-- 43_decoder.md R138, the loop: `DECSYM` begins at the root with the accumulator empty; a round reads a bit, appends it,
tests the length, then the dead end, moves, and emits at a Leaf. The number of rounds allowed is the bits still within
`MAXLEN`, and one, a bound that is never reached (notes/assumptions/14.md). -/
def Obligations.WalkLoopEquation : Prop :=
  ∀ s : State, ConfigOk s →
    decodeSymbol s = walkLoop (s.conf.maxlen.toNat + 1) (startWalk s) ∧
    (s.decoder.accLen.toNat ≤ s.conf.maxlen.toNat →
      walkLoop (s.conf.maxlen.toNat + 1 - s.decoder.accLen.toNat) s = (readBit s).bind fun r s' =>
        match r with
        | .endOfInput => if s'.decoder.accLen = 0#6 then .done .endOfInput s' else .raise (.corrupt .truncated) s'
        | .bit b => (walkBit b s').bind fun node s'' =>
          if isLeaf node then emitSymbol (symOf node) s''
          else walkLoop (s''.conf.maxlen.toNat + 1 - s''.decoder.accLen.toNat) s'')

/-- 43_decoder.md R139 case b: with `DLIMIT` ≠ 0 already reached `DECODE` returns `Limit` and reads nothing. -/
def Obligations.DecodeAtTheLimitReadsNothing : Prop :=
  ∀ s : State, s.reader.ropenf = true → ConfigOk s → s.conf.dlimit ≠ 0#32 →
    s.conf.dlimit.toNat ≤ s.decoder.dcount.toNat →
    exec .decode s = .next { s with regs := { s.regs with status := 0x00000030#32 } }

/-- 43_decoder.md R139, the loop: stop at the limit, else decode a symbol and go on until the end of the input. The bound that the
model's loop carries is never reached (notes/assumptions/14.md). -/
def Obligations.DecodeLoopEquation : Prop :=
  ∀ s : State, decodeLoop (bitsLeft s + 1) s =
    if s.conf.dlimit ≠ 0#32 ∧ s.conf.dlimit.toNat ≤ s.decoder.dcount.toNat then .done .limit s
    else (decodeSymbol s).bind fun r s' =>
      match r with
      | .endOfInput => .done .endOfInput s'
      | .symbol _ => decodeLoop (bitsLeft s' + 1) s'

/-- 43_decoder.md R139, 50_invariants_and_properties.md R165: with a consistent configuration and `DLIMIT` that many symbols
ahead of `DCOUNT`, `DECODE` emits exactly the symbols whose codes come next, returns `Limit`, and leaves the rest unread. -/
def Obligations.DecodeEmitsTheExpectedSymbols : Prop :=
  ∀ (s : State) (xs : List Sym) (rest : List Bool), s.reader.ropenf = true → s.reader.rcnt.toNat ≤ 8 → ConfigOk s →
    (∀ a ∈ s.env.sourceReadAns, a = PortAnswer.ok) → (∀ a ∈ s.env.symWriteAns, a = SymAnswer.ok) →
    (∀ x ∈ xs, ConsistentAt s x) → bitsToCome s = symbolBits s.mem xs ++ rest →
    s.conf.dlimit ≠ 0#32 → s.conf.dlimit.toNat = s.decoder.dcount.toNat + xs.length →
    ∃ t, exec .decode s = .next t ∧ t.env.symOut = s.env.symOut ++ xs ∧ t.regs.status = 0x00000030#32 ∧
      bitsToCome t = rest ∧ t.decoder.dcount = s.conf.dlimit ∧
      t.reader.rbits = s.reader.rbits + BitVec.ofNat 32 (symbolBits s.mem xs).length ∧
      t.regs.result = (xs.map fun x => x.setWidth 32).getLastD s.regs.result

/-- 43_decoder.md R142: with `DLIMIT` = 0 the zeros after the last code are decoded like any other bits: a copy of the leftmost
symbol for each whole run of them, then a clean end, or `Truncated` if a run is left over. -/
def Obligations.TrailingZerosDecodeAsTheLeftmostSymbol : Prop :=
  ∀ (s : State) (xs : List Sym) (p d : Nat) (n : NodeIdx), s.reader.ropenf = true → s.reader.rcnt.toNat ≤ 8 → ConfigOk s →
    (∀ a ∈ s.env.sourceReadAns, a = PortAnswer.ok) → (∀ a ∈ s.env.symWriteAns, a = SymAnswer.ok) →
    (∀ x ∈ xs, ConsistentAt s x) → bitsToCome s = symbolBits s.mem xs ++ List.replicate p false →
    path s.mem s.conf.root (List.replicate d false) = some n → isLeaf (s.mem.nodeAt n) = true →
    d ≤ s.conf.maxlen.toNat → s.conf.dlimit = 0#32 →
    ∃ t, exec .decode s = .next t ∧
      t.env.symOut = s.env.symOut ++ xs ++ List.replicate (p / d) (symOf (s.mem.nodeAt n)) ∧ bitsToCome t = [] ∧
      (p % d = 0 → t.regs.status = 0x00000020#32 ∧ t.decoder.accLen = 0#6) ∧
      (p % d ≠ 0 → t.regs.status = 0x00000103#32 ∧ t.decoder.accLen = BitVec.ofNat 6 (p % d))

/-! ## Whole passes -/

/-- 50_invariants_and_properties.md R163: unpacking what was packed gives the bits and the padding zeros, and packing makes
as many bytes as are needed. -/
def Obligations.UnpackAfterPackAddsThePadding : Prop :=
  ∀ bits : List Bool,
    unpack (pack bits) = bits ++ List.replicate (8 * ((bits.length + 7) / 8) - bits.length) false ∧
    (pack bits).length = (bits.length + 7) / 8

/-- 50_invariants_and_properties.md R164: in a consistent configuration no code of a present symbol begins with the code of
another. -/
def Obligations.ConsistentCodesArePrefixFree : Prop :=
  ∀ (s : State) (x y : Sym), Consistent s → (s.mem.codeAt x).valid = true → (s.mem.codeAt y).valid = true → x ≠ y →
    ¬ codeBits (s.mem.codeAt x).raw (s.mem.codeAt x).len.toNat <+:
      codeBits (s.mem.codeAt y).raw (s.mem.codeAt y).len.toNat

/-- 50_invariants_and_properties.md R165 (a), (b): the round trip. Encode a sequence of present symbols in one pass by a
consistent configuration, hand the sink's bytes to the source, and decode: with the symbol count in `DLIMIT`, or with none
when the bit total is a multiple of 8, the symbol output is exactly the sequence. Presenting the source between the passes is an action
of the host (notes/assumptions/5.md). -/
def Obligations.RoundTrip : Prop :=
  ∀ (s : State) (leave rleave : Bool), s.writer.wopenf = false → s.reader.ropenf = false → ConfigOk s → Consistent s →
    (∀ x ∈ s.env.symIn, (s.mem.codeAt x).valid = true) → SinkErrorFree s.env → SymbolsAnswered s.env → s.env.sink = [] →
    s.env.symOut = [] →
    ∃ opened encoded,
      exec (.wopen leave) s = .next opened ∧ exec .encode opened = .next encoded ∧
      encoded.env.sink = pack (symbolBits s.mem s.env.symIn) ∧
      (∀ limit : Word,
        (limit.toNat = s.env.symIn.length ∧ 1 ≤ s.env.symIn.length) ∨
          (limit = 0#32 ∧ (symbolBits s.mem s.env.symIn).length % 8 = 0) →
        ∃ reopened decoded,
          exec (.ropen rleave) (presentSource encoded.env.sink [] []
            { encoded with conf := { encoded.conf with dlimit := limit } }) = .next reopened ∧
          exec .decode reopened = .next decoded ∧
          decoded.env.symOut = s.env.symIn ∧
          decoded.regs.status = (if limit = 0#32 then 0x00000020#32 else 0x00000030#32))

/-- 50_invariants_and_properties.md R170: empty passes. `WOPEN`; `ENCODE` with an empty symbol input writes no byte, releases
the sink and leaves both counters 0; `ROPEN`; `DECODE` on an empty source returns end-of-input at once with `DCOUNT` = 0,
after exactly one `SourceRead`. `calls` is the model's record of the port calls (notes/assumptions/13.md). -/
def Obligations.EmptyPassesAreClean : Prop :=
  (∀ s : State, s.writer.wopenf = false → s.env.symIn = [] → SinkErrorFree s.env → SymbolsAnswered s.env →
    ∃ opened t, exec (.wopen false) s = .next opened ∧ exec .encode opened = .next t ∧
      t.env.sink = s.env.sink ∧ t.env.sinkReleased = true ∧ t.writer.wbits = 0#32 ∧ t.writer.wbytes = 0#32 ∧
      t.regs.status = 0x00000000#32) ∧
  (∀ (s : State) (leave : Bool), s.reader.ropenf = false → s.env.source = [] → ConfigOk s → SourceErrorFree s.env →
    ∃ opened t, exec (.ropen leave) s = .next opened ∧ exec .decode opened = .next t ∧
      t.regs.status = 0x00000020#32 ∧ t.decoder.dcount = 0#32 ∧ t.env.calls = s.env.calls ++ [.sourceRead])

/-! ## Invariants -/

/-- 50_invariants_and_properties.md R160: every step keeps the writer invariants. -/
def Obligations.EveryStepKeepsTheWriterInvariant : Prop :=
  ∀ s t : State, WriterInv s → step s = .next t → WriterInv t

/-- 50_invariants_and_properties.md R161: every step keeps the reader invariants. -/
def Obligations.EveryStepKeepsTheReaderInvariant : Prop :=
  ∀ s t : State, ReaderInv s → step s = .next t → ReaderInv t

/-- 10_state.md R20, 50_invariants_and_properties.md R162 (a): every step keeps the decoder invariants. -/
def Obligations.EveryStepKeepsTheDecoderInvariant : Prop :=
  ∀ s t : State, DecoderInv s → step s = .next t → DecoderInv t

/-- 30_encoding.md R68, R69, 10_state.md R31: every step keeps the status invariants. -/
def Obligations.EveryStepKeepsTheStatusInvariant : Prop :=
  ∀ s t : State, StatusInv s → step s = .next t → StatusInv t

/-- Every step keeps both stores in canonical form, which is the model's choice of how it holds `NODE` and `CT` (10_state.md R26, R27;
notes/assumptions/12.md, DESIGN CHOICE). -/
def Obligations.EveryStepKeepsTheStoresCanonical : Prop :=
  ∀ s t : State, StoresInv s → step s = .next t → StoresInv t

/-- 10_state.md R36 with R13, R17, R20, R31, 30_encoding.md R68, 50_invariants_and_properties.md R160 to R162: the state after reset
meets every invariant. The last clause, that both stores are in canonical form, is the model's choice of how it holds them
(notes/assumptions/12.md, DESIGN CHOICE); that `State.reset` has an empty environment and host's side is the model's too (11.md, DESIGN
CHOICE), and no clause speaks of them. -/
def Obligations.ResetMeetsEveryInvariant : Prop :=
  WriterInv State.reset ∧ ReaderInv State.reset ∧ DecoderInv State.reset ∧ StatusInv State.reset ∧ StoresInv State.reset
end

