-- ==== Sys2Proof/Laws/State.lean ====
section
/-!
SUPPORT. What each update of State leaves and writes, one lemma per field per update, and the same for the register
updates built on them.
-/
namespace Sys2Proof.Machine

variable {p : Params}

@[simp] theorem State.setWriter_writer (s : State p) (w : Writer p) : (s.setWriter w).writer = w := rfl
@[simp] theorem State.setWriter_reader (s : State p) (w : Writer p) : (s.setWriter w).reader = s.reader := rfl
@[simp] theorem State.setWriter_decoder (s : State p) (w : Writer p) : (s.setWriter w).decoder = s.decoder := rfl
@[simp] theorem State.setWriter_conf (s : State p) (w : Writer p) : (s.setWriter w).conf = s.conf := rfl
@[simp] theorem State.setWriter_mem (s : State p) (w : Writer p) : (s.setWriter w).mem = s.mem := rfl
@[simp] theorem State.setWriter_regs (s : State p) (w : Writer p) : (s.setWriter w).regs = s.regs := rfl
@[simp] theorem State.setWriter_env (s : State p) (w : Writer p) : (s.setWriter w).env = s.env := rfl
@[simp] theorem State.setWriter_host (s : State p) (w : Writer p) : (s.setWriter w).host = s.host := rfl
@[simp] theorem State.setWriter_self (s : State p) : s.setWriter s.writer = s := rfl
@[simp] theorem State.setWriter_setWriter (s : State p) (w w' : Writer p) : (s.setWriter w).setWriter w' = s.setWriter w' := rfl

@[simp] theorem State.setReader_writer (s : State p) (r : Reader p) : (s.setReader r).writer = s.writer := rfl
@[simp] theorem State.setReader_reader (s : State p) (r : Reader p) : (s.setReader r).reader = r := rfl
@[simp] theorem State.setReader_decoder (s : State p) (r : Reader p) : (s.setReader r).decoder = s.decoder := rfl
@[simp] theorem State.setReader_conf (s : State p) (r : Reader p) : (s.setReader r).conf = s.conf := rfl
@[simp] theorem State.setReader_mem (s : State p) (r : Reader p) : (s.setReader r).mem = s.mem := rfl
@[simp] theorem State.setReader_regs (s : State p) (r : Reader p) : (s.setReader r).regs = s.regs := rfl
@[simp] theorem State.setReader_env (s : State p) (r : Reader p) : (s.setReader r).env = s.env := rfl
@[simp] theorem State.setReader_host (s : State p) (r : Reader p) : (s.setReader r).host = s.host := rfl
@[simp] theorem State.setReader_self (s : State p) : s.setReader s.reader = s := rfl
@[simp] theorem State.setReader_setReader (s : State p) (r r' : Reader p) : (s.setReader r).setReader r' = s.setReader r' := rfl

@[simp] theorem State.setDecoder_writer (s : State p) (d : Decoder p) : (s.setDecoder d).writer = s.writer := rfl
@[simp] theorem State.setDecoder_reader (s : State p) (d : Decoder p) : (s.setDecoder d).reader = s.reader := rfl
@[simp] theorem State.setDecoder_decoder (s : State p) (d : Decoder p) : (s.setDecoder d).decoder = d := rfl
@[simp] theorem State.setDecoder_conf (s : State p) (d : Decoder p) : (s.setDecoder d).conf = s.conf := rfl
@[simp] theorem State.setDecoder_mem (s : State p) (d : Decoder p) : (s.setDecoder d).mem = s.mem := rfl
@[simp] theorem State.setDecoder_regs (s : State p) (d : Decoder p) : (s.setDecoder d).regs = s.regs := rfl
@[simp] theorem State.setDecoder_env (s : State p) (d : Decoder p) : (s.setDecoder d).env = s.env := rfl
@[simp] theorem State.setDecoder_host (s : State p) (d : Decoder p) : (s.setDecoder d).host = s.host := rfl
@[simp] theorem State.setDecoder_self (s : State p) : s.setDecoder s.decoder = s := rfl
@[simp] theorem State.setDecoder_setDecoder (s : State p) (d d' : Decoder p) : (s.setDecoder d).setDecoder d' = s.setDecoder d' := rfl

@[simp] theorem State.setConf_writer (s : State p) (c : Conf p) : (s.setConf c).writer = s.writer := rfl
@[simp] theorem State.setConf_reader (s : State p) (c : Conf p) : (s.setConf c).reader = s.reader := rfl
@[simp] theorem State.setConf_decoder (s : State p) (c : Conf p) : (s.setConf c).decoder = s.decoder := rfl
@[simp] theorem State.setConf_conf (s : State p) (c : Conf p) : (s.setConf c).conf = c := rfl
@[simp] theorem State.setConf_mem (s : State p) (c : Conf p) : (s.setConf c).mem = s.mem := rfl
@[simp] theorem State.setConf_regs (s : State p) (c : Conf p) : (s.setConf c).regs = s.regs := rfl
@[simp] theorem State.setConf_env (s : State p) (c : Conf p) : (s.setConf c).env = s.env := rfl
@[simp] theorem State.setConf_host (s : State p) (c : Conf p) : (s.setConf c).host = s.host := rfl
@[simp] theorem State.setConf_self (s : State p) : s.setConf s.conf = s := rfl
@[simp] theorem State.setConf_setConf (s : State p) (c c' : Conf p) : (s.setConf c).setConf c' = s.setConf c' := rfl

@[simp] theorem State.setMem_writer (s : State p) (m : Memory p) : (s.setMem m).writer = s.writer := rfl
@[simp] theorem State.setMem_reader (s : State p) (m : Memory p) : (s.setMem m).reader = s.reader := rfl
@[simp] theorem State.setMem_decoder (s : State p) (m : Memory p) : (s.setMem m).decoder = s.decoder := rfl
@[simp] theorem State.setMem_conf (s : State p) (m : Memory p) : (s.setMem m).conf = s.conf := rfl
@[simp] theorem State.setMem_mem (s : State p) (m : Memory p) : (s.setMem m).mem = m := rfl
@[simp] theorem State.setMem_regs (s : State p) (m : Memory p) : (s.setMem m).regs = s.regs := rfl
@[simp] theorem State.setMem_env (s : State p) (m : Memory p) : (s.setMem m).env = s.env := rfl
@[simp] theorem State.setMem_host (s : State p) (m : Memory p) : (s.setMem m).host = s.host := rfl
@[simp] theorem State.setMem_self (s : State p) : s.setMem s.mem = s := rfl
@[simp] theorem State.setMem_setMem (s : State p) (m m' : Memory p) : (s.setMem m).setMem m' = s.setMem m' := rfl

@[simp] theorem State.setRegs_writer (s : State p) (r : Regs) : (s.setRegs r).writer = s.writer := rfl
@[simp] theorem State.setRegs_reader (s : State p) (r : Regs) : (s.setRegs r).reader = s.reader := rfl
@[simp] theorem State.setRegs_decoder (s : State p) (r : Regs) : (s.setRegs r).decoder = s.decoder := rfl
@[simp] theorem State.setRegs_conf (s : State p) (r : Regs) : (s.setRegs r).conf = s.conf := rfl
@[simp] theorem State.setRegs_mem (s : State p) (r : Regs) : (s.setRegs r).mem = s.mem := rfl
@[simp] theorem State.setRegs_regs (s : State p) (r : Regs) : (s.setRegs r).regs = r := rfl
@[simp] theorem State.setRegs_env (s : State p) (r : Regs) : (s.setRegs r).env = s.env := rfl
@[simp] theorem State.setRegs_host (s : State p) (r : Regs) : (s.setRegs r).host = s.host := rfl
@[simp] theorem State.setRegs_self (s : State p) : s.setRegs s.regs = s := rfl
@[simp] theorem State.setRegs_setRegs (s : State p) (r r' : Regs) : (s.setRegs r).setRegs r' = s.setRegs r' := rfl

@[simp] theorem State.setEnv_writer (s : State p) (e : Env p) : (s.setEnv e).writer = s.writer := rfl
@[simp] theorem State.setEnv_reader (s : State p) (e : Env p) : (s.setEnv e).reader = s.reader := rfl
@[simp] theorem State.setEnv_decoder (s : State p) (e : Env p) : (s.setEnv e).decoder = s.decoder := rfl
@[simp] theorem State.setEnv_conf (s : State p) (e : Env p) : (s.setEnv e).conf = s.conf := rfl
@[simp] theorem State.setEnv_mem (s : State p) (e : Env p) : (s.setEnv e).mem = s.mem := rfl
@[simp] theorem State.setEnv_regs (s : State p) (e : Env p) : (s.setEnv e).regs = s.regs := rfl
@[simp] theorem State.setEnv_env (s : State p) (e : Env p) : (s.setEnv e).env = e := rfl
@[simp] theorem State.setEnv_host (s : State p) (e : Env p) : (s.setEnv e).host = s.host := rfl
@[simp] theorem State.setEnv_self (s : State p) : s.setEnv s.env = s := rfl
@[simp] theorem State.setEnv_setEnv (s : State p) (e e' : Env p) : (s.setEnv e).setEnv e' = s.setEnv e' := rfl

@[simp] theorem State.setHost_writer (s : State p) (h : HostSide p) : (s.setHost h).writer = s.writer := rfl
@[simp] theorem State.setHost_reader (s : State p) (h : HostSide p) : (s.setHost h).reader = s.reader := rfl
@[simp] theorem State.setHost_decoder (s : State p) (h : HostSide p) : (s.setHost h).decoder = s.decoder := rfl
@[simp] theorem State.setHost_conf (s : State p) (h : HostSide p) : (s.setHost h).conf = s.conf := rfl
@[simp] theorem State.setHost_mem (s : State p) (h : HostSide p) : (s.setHost h).mem = s.mem := rfl
@[simp] theorem State.setHost_regs (s : State p) (h : HostSide p) : (s.setHost h).regs = s.regs := rfl
@[simp] theorem State.setHost_env (s : State p) (h : HostSide p) : (s.setHost h).env = s.env := rfl
@[simp] theorem State.setHost_host (s : State p) (h : HostSide p) : (s.setHost h).host = h := rfl
@[simp] theorem State.setHost_self (s : State p) : s.setHost s.host = s := rfl
@[simp] theorem State.setHost_setHost (s : State p) (h h' : HostSide p) : (s.setHost h).setHost h' = s.setHost h' := rfl

@[simp] theorem State.setResult_writer (s : State p) (v : Word) : (s.setResult v).writer = s.writer := rfl
@[simp] theorem State.setResult_reader (s : State p) (v : Word) : (s.setResult v).reader = s.reader := rfl
@[simp] theorem State.setResult_decoder (s : State p) (v : Word) : (s.setResult v).decoder = s.decoder := rfl
@[simp] theorem State.setResult_conf (s : State p) (v : Word) : (s.setResult v).conf = s.conf := rfl
@[simp] theorem State.setResult_mem (s : State p) (v : Word) : (s.setResult v).mem = s.mem := rfl
@[simp] theorem State.setResult_env (s : State p) (v : Word) : (s.setResult v).env = s.env := rfl
@[simp] theorem State.setResult_host (s : State p) (v : Word) : (s.setResult v).host = s.host := rfl
@[simp] theorem State.setResult_regs (s : State p) (v : Word) : (s.setResult v).regs = { s.regs with result := v } := rfl

@[simp] theorem State.setStatus_writer (s : State p) (v : Word) : (s.setStatus v).writer = s.writer := rfl
@[simp] theorem State.setStatus_reader (s : State p) (v : Word) : (s.setStatus v).reader = s.reader := rfl
@[simp] theorem State.setStatus_decoder (s : State p) (v : Word) : (s.setStatus v).decoder = s.decoder := rfl
@[simp] theorem State.setStatus_conf (s : State p) (v : Word) : (s.setStatus v).conf = s.conf := rfl
@[simp] theorem State.setStatus_mem (s : State p) (v : Word) : (s.setStatus v).mem = s.mem := rfl
@[simp] theorem State.setStatus_env (s : State p) (v : Word) : (s.setStatus v).env = s.env := rfl
@[simp] theorem State.setStatus_host (s : State p) (v : Word) : (s.setStatus v).host = s.host := rfl
@[simp] theorem State.setStatus_regs (s : State p) (v : Word) : (s.setStatus v).regs = { s.regs with status := v } := rfl

@[simp] theorem State.setCmd_writer (s : State p) (v : Word) : (s.setCmd v).writer = s.writer := rfl
@[simp] theorem State.setCmd_reader (s : State p) (v : Word) : (s.setCmd v).reader = s.reader := rfl
@[simp] theorem State.setCmd_decoder (s : State p) (v : Word) : (s.setCmd v).decoder = s.decoder := rfl
@[simp] theorem State.setCmd_conf (s : State p) (v : Word) : (s.setCmd v).conf = s.conf := rfl
@[simp] theorem State.setCmd_mem (s : State p) (v : Word) : (s.setCmd v).mem = s.mem := rfl
@[simp] theorem State.setCmd_env (s : State p) (v : Word) : (s.setCmd v).env = s.env := rfl
@[simp] theorem State.setCmd_host (s : State p) (v : Word) : (s.setCmd v).host = s.host := rfl
@[simp] theorem State.setCmd_regs (s : State p) (v : Word) : (s.setCmd v).regs = { s.regs with cmd := v } := rfl

/-- Two states with equal parts are equal. -/
theorem State.ext_parts {s t : State p} (h1 : s.writer = t.writer) (h2 : s.reader = t.reader) (h3 : s.decoder = t.decoder)
    (h4 : s.conf = t.conf) (h5 : s.mem = t.mem) (h6 : s.regs = t.regs) (h7 : s.env = t.env) (h8 : s.host = t.host) :
    s = t := by
  cases s; cases t; simp_all

end Sys2Proof.Machine
end

