-- ==== Sys2Proof/Laws/Run.lean ====
section
/-!
SUPPORT. How a command body runs and ends: sequencing, what the frame of a command can answer, and what error entry and
completion leave.
-/
namespace Sys2Proof.Machine

variable {p : Params}

variable {α β : Type}

@[simp] theorem Run.bind_done (a : α) (s : State p) (f : α → State p → Run p β) : (Run.done a s).bind f = f a s := rfl
@[simp] theorem Run.bind_raise (r : Raise) (s : State p) (f : α → State p → Run p β) : (Run.raise r s).bind f = .raise r s := rfl
@[simp] theorem Run.bind_never (port : Port) (f : α → State p → Run p β) : (Run.never port).bind f = .never port := rfl

theorem Run.bind_assoc {γ : Type} (x : Run p α) (f : α → State p → Run p β) (g : β → State p → Run p γ) :
    (x.bind f).bind g = x.bind fun a s => (f a s).bind g := by
  cases x <;> rfl

/-- `P` holds of the state a run returns or raises in. -/
def Run.Ends (P : State p → Prop) : Run p α → Prop
  | .done _ s => P s
  | .raise _ s => P s
  | .never _ => True

@[simp] theorem Run.ends_done (P : State p → Prop) (a : α) (s : State p) : (Run.done a s).Ends P = P s := rfl
@[simp] theorem Run.ends_raise (P : State p → Prop) (r : Raise) (s : State p) : (Run.raise r s : Run p α).Ends P = P s := rfl
@[simp] theorem Run.ends_never (P : State p → Prop) (port : Port) : (Run.never port : Run p α).Ends P = True := rfl

/-- A property of where the first sub-step ends, kept by the second, is one of where the two end. -/
theorem Run.ends_bind {P Q : State p → Prop} {x : Run p α} {f : α → State p → Run p β} (hx : x.Ends Q)
    (hf : ∀ a s, Q s → (f a s).Ends P) (hr : ∀ s, Q s → P s) : (x.bind f).Ends P := by
  cases x with
  | done a s => exact hf a s hx
  | raise r s => exact hr s hx
  | never p => trivial

theorem Run.Ends.imp {P Q : State p → Prop} {x : Run p α} (hx : x.Ends P) (h : ∀ s, P s → Q s) : x.Ends Q := by
  cases x with
  | done a s => exact h s hx
  | raise r s => exact h s hx
  | never p => trivial

/-! ## The frame of a command -/

theorem finish_eq_next {x : Run p ResKind} {t : State p} :
    finish x = .next t ↔ (∃ k u, x = .done k u ∧ t = complete k u) ∨ (∃ r u, x = .raise r u ∧ t = takeError r u) := by
  cases x <;> simp [finish, eq_comm]

/-- Everything a command that answers a next state can have done: taken `BadState`, or run its body to completion, or to a
`raise`. -/
theorem runCommand_eq_next {pre : Option StateSub} {body : State p → Run p ResKind} {s t : State p} :
    runCommand pre body s = .next t ↔
      (∃ c, pre = some c ∧ t = takeError (.badState c) s) ∨
      (pre = none ∧ ((∃ k u, body s = .done k u ∧ t = complete k u) ∨ (∃ r u, body s = .raise r u ∧ t = takeError r u))) := by
  cases pre with
  | none => simp [runCommand, finish_eq_next]
  | some c => simp [runCommand, eq_comm]

theorem runCommand_none (body : State p → Run p ResKind) (s : State p) : runCommand none body s = finish (body s) := rfl
theorem runCommand_some (c : StateSub) (body : State p → Run p ResKind) (s : State p) :
    runCommand (some c) body s = .next (takeError (.badState c) s) := rfl

@[simp] theorem finish_done (k : ResKind) (s : State p) : finish (.done k s) = .next (complete k s) := rfl
@[simp] theorem finish_raise (r : Raise) (s : State p) : finish (.raise r s) = .next (takeError r s) := rfl
@[simp] theorem finish_never (port : Port) : finish (.never port : Run p ResKind) = .fault (.portNeverAnswered port) := rfl

@[simp] theorem needWriterOpen_eq_none {s : State p} : needWriterOpen s = none ↔ s.writer.wopenf = true := by
  unfold needWriterOpen; split <;> simp_all
@[simp] theorem needWriterClosed_eq_none {s : State p} : needWriterClosed s = none ↔ s.writer.wopenf = false := by
  unfold needWriterClosed; split <;> simp_all
@[simp] theorem needReaderOpen_eq_none {s : State p} : needReaderOpen s = none ↔ s.reader.ropenf = true := by
  unfold needReaderOpen; split <;> simp_all
@[simp] theorem needReaderClosed_eq_none {s : State p} : needReaderClosed s = none ↔ s.reader.ropenf = false := by
  unfold needReaderClosed; split <;> simp_all

/-! ## Error entry and completion -/

@[simp] theorem takeError_writer (r : Raise) (s : State p) : (takeError r s).writer = s.writer := rfl
@[simp] theorem takeError_reader (r : Raise) (s : State p) : (takeError r s).reader = s.reader := rfl
@[simp] theorem takeError_decoder (r : Raise) (s : State p) : (takeError r s).decoder = s.decoder := rfl
@[simp] theorem takeError_conf (r : Raise) (s : State p) : (takeError r s).conf = s.conf := rfl
@[simp] theorem takeError_mem (r : Raise) (s : State p) : (takeError r s).mem = s.mem := rfl
@[simp] theorem takeError_env (r : Raise) (s : State p) : (takeError r s).env = s.env := rfl
@[simp] theorem takeError_host (r : Raise) (s : State p) : (takeError r s).host = s.host := rfl
@[simp] theorem takeError_cmd (r : Raise) (s : State p) : (takeError r s).regs.cmd = s.regs.cmd := rfl
@[simp] theorem takeError_result (r : Raise) (s : State p) : (takeError r s).regs.result = s.regs.result := rfl
@[simp] theorem takeError_status (r : Raise) (s : State p) : (takeError r s).regs.status = statusOf r := rfl
@[simp] theorem takeError_faults (r : Raise) (s : State p) :
    (takeError r s).regs.faults = s.regs.faults ||| faultBit r.kind := rfl
theorem takeError_ioinfo (r : Raise) (s : State p) :
    (takeError r s).regs.ioinfo = match r with | .io _ e => e | _ => s.regs.ioinfo := rfl

@[simp] theorem complete_writer (k : ResKind) (s : State p) : (complete k s).writer = s.writer := rfl
@[simp] theorem complete_reader (k : ResKind) (s : State p) : (complete k s).reader = s.reader := rfl
@[simp] theorem complete_decoder (k : ResKind) (s : State p) : (complete k s).decoder = s.decoder := rfl
@[simp] theorem complete_conf (k : ResKind) (s : State p) : (complete k s).conf = s.conf := rfl
@[simp] theorem complete_mem (k : ResKind) (s : State p) : (complete k s).mem = s.mem := rfl
@[simp] theorem complete_env (k : ResKind) (s : State p) : (complete k s).env = s.env := rfl
@[simp] theorem complete_host (k : ResKind) (s : State p) : (complete k s).host = s.host := rfl
@[simp] theorem complete_regs (k : ResKind) (s : State p) : (complete k s).regs = { s.regs with status := statusOk k } := rfl

/-- The fields of a `STATUS` word are those it was made of. -/
@[simp] theorem errField_statusWord (err : BitVec 4) (res : BitVec 2) (sub : BitVec 3) :
    errField (statusWord err res sub) = err := by
  apply BitVec.eq_of_getLsbD_eq
  intro i hi
  interval_cases i <;> simp [errField, statusWord, placeAt]

@[simp] theorem resField_statusWord (err : BitVec 4) (res : BitVec 2) (sub : BitVec 3) :
    resField (statusWord err res sub) = res := by
  apply BitVec.eq_of_getLsbD_eq
  intro i hi
  interval_cases i <;> simp [resField, statusWord, placeAt]

@[simp] theorem subField_statusWord (err : BitVec 4) (res : BitVec 2) (sub : BitVec 3) :
    subField (statusWord err res sub) = sub := by
  apply BitVec.eq_of_getLsbD_eq
  intro i hi
  interval_cases i <;> simp [subField, statusWord, placeAt]

@[simp] theorem errField_statusOf (r : Raise) : errField (statusOf r) = r.kind.code := errField_statusWord _ _ _
@[simp] theorem resField_statusOf (r : Raise) : resField (statusOf r) = 0#2 := resField_statusWord _ _ _
@[simp] theorem errField_statusOk (k : ResKind) : errField (statusOk k) = 0#4 := errField_statusWord _ _ _

/-! ## The words `STATUS` and `FAULTS` get (95_test_vectors.md, shorthand table) -/

@[simp] theorem statusOk_none : statusOk .none = 0x00000000#32 := rfl
@[simp] theorem statusOk_value : statusOk .value = 0x00000010#32 := rfl
@[simp] theorem statusOk_endOfInput : statusOk .endOfInput = 0x00000020#32 := rfl
@[simp] theorem statusOk_limit : statusOk .limit = 0x00000030#32 := rfl
@[simp] theorem statusOf_unknownSymbol : statusOf .unknownSymbol = 0x00000002#32 := rfl
@[simp] theorem statusOf_truncated : statusOf (.corrupt .truncated) = 0x00000103#32 := rfl
@[simp] theorem statusOf_tooLong : statusOf (.corrupt .tooLong) = 0x00000203#32 := rfl
@[simp] theorem statusOf_noChild : statusOf (.corrupt .noChild) = 0x00000303#32 := rfl
@[simp] theorem statusOf_sinkWrite (e : Word) : statusOf (.io .sinkWrite e) = 0x00000105#32 :=
  show statusWord ErrKind.ioError.code ResKind.none.code 1#3 = _ by decide
@[simp] theorem statusOf_sinkRelease (e : Word) : statusOf (.io .sinkRelease e) = 0x00000205#32 :=
  show statusWord ErrKind.ioError.code ResKind.none.code 2#3 = _ by decide
@[simp] theorem statusOf_sourceRead (e : Word) : statusOf (.io .sourceRead e) = 0x00000305#32 :=
  show statusWord ErrKind.ioError.code ResKind.none.code 3#3 = _ by decide
@[simp] theorem statusOf_sourceRelease (e : Word) : statusOf (.io .sourceRelease e) = 0x00000405#32 :=
  show statusWord ErrKind.ioError.code ResKind.none.code 4#3 = _ by decide
@[simp] theorem statusOf_rsvdOp : statusOf (.badCommand .rsvdOp) = 0x00000106#32 := rfl
@[simp] theorem statusOf_rsvdBits : statusOf (.badCommand .rsvdBits) = 0x00000206#32 := rfl
@[simp] theorem statusOf_writerNotOpen : statusOf (.badState .writerNotOpen) = 0x00000107#32 := rfl
@[simp] theorem statusOf_writerAlreadyOpen : statusOf (.badState .writerAlreadyOpen) = 0x00000207#32 := rfl
@[simp] theorem statusOf_readerNotOpen : statusOf (.badState .readerNotOpen) = 0x00000307#32 := rfl
@[simp] theorem statusOf_readerAlreadyOpen : statusOf (.badState .readerAlreadyOpen) = 0x00000407#32 := rfl
@[simp] theorem statusOf_badMaxLen : statusOf (.badConfig .badMaxLen) = 0x00000108#32 := rfl
@[simp] theorem statusOf_rootIsLeaf : statusOf (.badConfig .rootIsLeaf) = 0x00000208#32 := rfl
@[simp] theorem statusOf_badCodeLen : statusOf (.badConfig .badCodeLen) = 0x00000308#32 := rfl

@[simp] theorem faultBit_unknownSymbol : faultBit .unknownSymbol = 0x00000004#32 := rfl
@[simp] theorem faultBit_corruptStream : faultBit .corruptStream = 0x00000008#32 := rfl
@[simp] theorem faultBit_ioError : faultBit .ioError = 0x00000020#32 := rfl
@[simp] theorem faultBit_badCommand : faultBit .badCommand = 0x00000040#32 := rfl
@[simp] theorem faultBit_badState : faultBit .badState = 0x00000080#32 := rfl
@[simp] theorem faultBit_badConfig : faultBit .badConfig = 0x00000100#32 := rfl

/-- Completion, written out. -/
theorem complete_eq (k : ResKind) (s : State p) :
    complete k s = { s with regs := { s.regs with status := statusOk k } } := rfl

/-- Error entry with an I/O error, written out (60_exceptions.md R184). -/
theorem takeError_io (c : IoSub) (e : Word) (s : State p) :
    takeError (.io c e) s = { s with regs := { s.regs with
      status := statusOf (.io c e), ioinfo := e, faults := s.regs.faults ||| 0x00000020#32 } } := rfl

end Sys2Proof.Machine
end

