-- ==== Sys2Proof/Laws/Answers.lean ====
section
/-!
SUPPORT. What each sub-step does with the answers of the ports (spec/92_eei_decisions.md P1, 93_implementation_defined.md U7): it
ends having used up answers from the front of the lists, every call answered, or it waits at a port that leaves a call unanswered.
-/
namespace Sys2Proof.Machine

variable {p : Params} {α β : Type}

theorem UsedUp.refl {no : α} (l : List α) : UsedUp no l l := ⟨[], by simp⟩

theorem UsedUp.trans {no : α} {l m n : List α} (h : UsedUp no l m) (k : UsedUp no m n) : UsedUp no l n := by
  obtain ⟨u, rfl, hu⟩ := h
  obtain ⟨v, rfl, hv⟩ := k
  exact ⟨u ++ v, by simp, by simp [hu, hv]⟩

theorem UsedUp.mem {no : α} {l m : List α} (h : UsedUp no l m) (hm : no ∈ m) : no ∈ l := by
  obtain ⟨u, rfl, -⟩ := h
  simp [hm]

/-- One answer used up. -/
theorem usedUp_tail {l : List PortAnswer} (h : nextAnswer l ≠ .never) : UsedUp .never l l.tail := by
  cases l with
  | nil => exact UsedUp.refl _
  | cons a l => exact ⟨[a], rfl, by simpa [nextAnswer, eq_comm] using h⟩

theorem usedUp_tail_sym {l : List SymAnswer} (h : nextSymAnswer l ≠ .never) : UsedUp .never l l.tail := by
  cases l with
  | nil => exact UsedUp.refl _
  | cons a l => exact ⟨[a], rfl, by simpa [nextSymAnswer, eq_comm] using h⟩

theorem mem_of_nextAnswer {l : List PortAnswer} (h : nextAnswer l = .never) : PortAnswer.never ∈ l := by
  cases l with
  | nil => cases h
  | cons a l => simp [show a = .never from h]

theorem mem_of_nextSymAnswer {l : List SymAnswer} (h : nextSymAnswer l = .never) : SymAnswer.never ∈ l := by
  cases l with
  | nil => cases h
  | cons a l => simp [show a = .never from h]

theorem answersMet_refl (port : Port) (e : Env p) : answersMet port e e := by
  cases port <;> exact UsedUp.refl _

theorem answersMet_trans {port : Port} {e e' e'' : Env p} (h : answersMet port e e') (k : answersMet port e' e'') :
    answersMet port e e'' := by
  cases port <;> exact UsedUp.trans h k

theorem leavesUnanswered_of_met {port : Port} {e e' : Env p} (h : answersMet port e e') (k : leavesUnanswered e' port) :
    leavesUnanswered e port := by
  cases port <;> exact UsedUp.mem h k

/-- The run, begun with the environment `e`, ends with every call answered, or waits where `e` leaves a call unanswered. -/
def Run.Met (e : Env p) : Run p α → Prop
  | .done _ t => ∀ port, answersMet port e t.env
  | .raise _ t => ∀ port, answersMet port e t.env
  | .never port => leavesUnanswered e port

theorem Run.Met.bind {e : Env p} {x : Run p α} {f : α → State p → Run p β} (hx : x.Met e) (hf : ∀ a t, (f a t).Met t.env) :
    (x.bind f).Met e := by
  cases x with
  | raise r t => exact hx
  | never port => exact hx
  | done a t =>
    have hx' : ∀ port, answersMet port e t.env := hx
    have h := hf a t
    show (f a t).Met e
    cases hft : f a t with
    | done b u => rw [hft] at h; exact fun port => answersMet_trans (hx' port) (h port)
    | raise r u => rw [hft] at h; exact fun port => answersMet_trans (hx' port) (h port)
    | never port => rw [hft] at h; exact leavesUnanswered_of_met (hx' port) h

theorem met_done {e : Env p} {a : α} {t : State p} (h : t.env = e) : (Run.done a t).Met e :=
  fun port => h ▸ answersMet_refl port e

theorem met_raise {e : Env p} {r : Raise} {t : State p} (h : t.env = e) : (Run.raise r t : Run p α).Met e :=
  fun port => h ▸ answersMet_refl port e

/-! ## Ports -/

theorem sinkWrite_met (b : Byte) (s : State p) : (sinkWrite b s).Met s.env := by
  unfold sinkWrite; dsimp only
  split
  · next h => intro port; cases port <;> first | exact usedUp_tail (by simp [h]) | exact UsedUp.refl _
  · next h => intro port; cases port <;> first | exact usedUp_tail (by simp [h]) | exact UsedUp.refl _
  · next h => exact mem_of_nextAnswer h

theorem sinkRelease_met (s : State p) : (sinkRelease s).Met s.env := by
  unfold sinkRelease; dsimp only
  split
  · next h => intro port; cases port <;> first | exact usedUp_tail (by simp [h]) | exact UsedUp.refl _
  · next h => intro port; cases port <;> first | exact usedUp_tail (by simp [h]) | exact UsedUp.refl _
  · next h => exact mem_of_nextAnswer h

theorem sourceRead_met (s : State p) : (sourceRead s).Met s.env := by
  unfold sourceRead; dsimp only
  split
  · next h =>
    split <;> (intro port; cases port <;> first | exact usedUp_tail (by simp [h]) | exact UsedUp.refl _)
  · next h => intro port; cases port <;> first | exact usedUp_tail (by simp [h]) | exact UsedUp.refl _
  · next h => exact mem_of_nextAnswer h

theorem sourceRelease_met (s : State p) : (sourceRelease s).Met s.env := by
  unfold sourceRelease; dsimp only
  split
  · next h => intro port; cases port <;> first | exact usedUp_tail (by simp [h]) | exact UsedUp.refl _
  · next h => intro port; cases port <;> first | exact usedUp_tail (by simp [h]) | exact UsedUp.refl _
  · next h => exact mem_of_nextAnswer h

theorem symRead_met (s : State p) : (symRead s).Met s.env := by
  unfold symRead; dsimp only
  split
  · next h =>
    split <;> (intro port; cases port <;> first | exact usedUp_tail_sym (by simp [h]) | exact UsedUp.refl _)
  · next h => exact mem_of_nextSymAnswer h

theorem symWrite_met (x : Sym p) (s : State p) : (symWrite x s).Met s.env := by
  unfold symWrite
  split
  · next h => intro port; cases port <;> first | exact usedUp_tail_sym (by simp [h]) | exact UsedUp.refl _
  · next h => exact mem_of_nextSymAnswer h

/-! ## The writer and the encoder -/

theorem writeBit_met (b : Bool) (s : State p) : (writeBit b s).Met s.env := by
  unfold writeBit; dsimp only
  split
  · exact Run.Met.bind (sinkWrite_met _ _) fun r t => by cases r <;> [exact met_done rfl; exact met_raise rfl]
  · exact met_done rfl

theorem writeBits_met {w : Nat} (raw : BitVec w) (n : Nat) (s : State p) : (writeBits raw n s).Met s.env := by
  induction n generalizing s with
  | zero => exact met_done rfl
  | succ n ih => exact (writeBit_met _ s).bind fun _ t => ih t

theorem flushPartial_met (s : State p) : (flushPartial s).Met s.env := by
  unfold flushPartial
  split
  · exact met_done rfl
  · exact Run.Met.bind (sinkWrite_met _ _) fun r t => by cases r <;> exact met_done rfl

theorem releaseSink_met (err : Option (IoSub × Word)) (s : State p) : (releaseSink err s).Met s.env := by
  unfold releaseSink
  split
  · exact met_done rfl
  · exact (sinkRelease_met s).bind fun _ _ => met_done rfl

theorem closeWriter_met (s : State p) : (closeWriter s).Met s.env :=
  (flushPartial_met s).bind fun err t => (releaseSink_met err t).bind fun err u => by
    cases err <;> [exact met_done rfl; exact met_raise rfl]

theorem encodeSymbol_met (x : Sym p) (s : State p) : (encodeSymbol x s).Met s.env := by
  unfold encodeSymbol; dsimp only
  split
  · exact met_raise rfl
  · split <;> [exact met_raise rfl; exact writeBits_met _ _ s]

theorem encodeLoop_met (n : Nat) (s : State p) : (encodeLoop n s).Met s.env := by
  induction n generalizing s with
  | zero => exact closeWriter_met s
  | succ n ih =>
    refine (symRead_met s).bind fun r t => ?_
    cases r with
    | none => exact closeWriter_met t
    | some x => exact (encodeSymbol_met x t).bind fun _ u => ih u

/-! ## The reader and the decoder -/

theorem readBit_met (s : State p) : (readBit s).Met s.env := by
  unfold readBit
  split
  · split
    · exact met_done rfl
    · refine (sourceRead_met s).bind fun r t => ?_
      cases r with
      | ioError e => exact met_raise rfl
      | endOfInput => exact met_done rfl
      | byte y => exact met_done rfl
  · exact met_done rfl

theorem readByteLoop_met (n : Nat) (v : Byte) (s : State p) : (readByteLoop n v s).Met s.env := by
  induction n generalizing v s with
  | zero => exact met_done rfl
  | succ n ih =>
    refine (readBit_met s).bind fun r t => ?_
    cases r with
    | endOfInput => exact met_done rfl
    | bit b => exact ih _ t

theorem closeReader_met (s : State p) : (closeReader s).Met s.env := by
  unfold closeReader
  split
  · exact met_done rfl
  · exact (sourceRelease_met s).bind fun r t => by cases r <;> [exact met_done rfl; exact met_raise rfl]

theorem walkBit_met (b : Bool) (s : State p) : (walkBit b s).Met s.env := by
  unfold walkBit; dsimp only
  split
  · exact met_raise rfl
  · split <;> [exact met_raise rfl; exact met_done rfl]

theorem emitSymbol_met (x : Sym p) (s : State p) : (emitSymbol x s).Met s.env :=
  (symWrite_met x s).bind fun _ _ => met_done rfl

theorem walkLoop_met (n : Nat) (s : State p) : (walkLoop n s).Met s.env := by
  induction n generalizing s with
  | zero => exact met_raise rfl
  | succ n ih =>
    refine (readBit_met s).bind fun r t => ?_
    cases r with
    | endOfInput => dsimp only; split <;> [exact met_done rfl; exact met_raise rfl]
    | bit b =>
      refine (walkBit_met b t).bind fun node u => ?_
      split <;> [exact emitSymbol_met _ u; exact ih u]

theorem decodeSymbol_met (s : State p) : (decodeSymbol s).Met s.env := by
  unfold decodeSymbol
  split <;> [exact met_raise rfl; exact walkLoop_met _ _]

theorem decodeLoop_met (n : Nat) (s : State p) : (decodeLoop n s).Met s.env := by
  induction n generalizing s with
  | zero => exact met_done rfl
  | succ n ih =>
    unfold decodeLoop
    split
    · exact met_done rfl
    · refine (decodeSymbol_met s).bind fun r t => ?_
      cases r with
      | endOfInput => exact met_done rfl
      | symbol x => exact ih t

/-- What the frame of a command makes of it: every call answered, or stuck where one is not. -/
theorem runCommand_met {pre : Option StateSub} {body : State p → Run p ResKind} {s : State p} (hb : (body s).Met s.env) :
    (∀ t, runCommand pre body s = .next t → ∀ port, answersMet port s.env t.env) ∧
    (∀ f, runCommand pre body s = .fault f → ∃ port, f = .portNeverAnswered port ∧ leavesUnanswered s.env port) := by
  cases pre with
  | some c => exact ⟨fun t h port => by cases h; exact answersMet_refl _ _, fun f h => by cases h⟩
  | none =>
    rw [runCommand_none]
    cases h : body s with
    | done k u => rw [h] at hb; exact ⟨fun t ht => by cases ht; exact hb, fun f hf => by cases hf⟩
    | raise r u => rw [h] at hb; exact ⟨fun t ht => by cases ht; exact hb, fun f hf => by cases hf⟩
    | never port => rw [h] at hb; exact ⟨nofun, fun f hf => by cases hf; exact ⟨port, rfl, hb⟩⟩

end Sys2Proof.Machine
end

