-- ==== Sys2Proof/Laws/Bits.lean ====
section
/-!
SUPPORT. Bit strings: the bits of bytes and codes, the partial byte of the writer, packing and unpacking
(spec/50_invariants_and_properties.md R163).
-/
namespace Sys2Proof.Machine

variable {p : Params}

/-! ## Bytes and codes -/

theorem byteBits_eq (y : Byte) : byteBits y =
    [y.getLsbD 7, y.getLsbD 6, y.getLsbD 5, y.getLsbD 4, y.getLsbD 3, y.getLsbD 2, y.getLsbD 1, y.getLsbD 0] := rfl

@[simp] theorem byteBits_length (y : Byte) : (byteBits y).length = 8 := rfl

@[simp] theorem unpack_nil : unpack [] = [] := rfl

theorem unpack_cons (y : Byte) (ys : List Byte) : unpack (y :: ys) = byteBits y ++ unpack ys := rfl

@[simp] theorem unpack_append (xs ys : List Byte) : unpack (xs ++ ys) = unpack xs ++ unpack ys := by
  simp [unpack]

@[simp] theorem unpack_length (ys : List Byte) : (unpack ys).length = 8 * ys.length := by
  induction ys with
  | nil => rfl
  | cons y ys ih => simp [unpack_cons, ih]; omega

@[simp] theorem codeBits_zero {w : Nat} (raw : BitVec w) : codeBits raw 0 = [] := rfl

theorem codeBits_succ {w : Nat} (raw : BitVec w) (n : Nat) : codeBits raw (n + 1) = raw.getLsbD n :: codeBits raw n := by
  simp only [codeBits, List.range_succ_eq_map, List.map_cons, List.map_map]
  refine congrArg₂ List.cons (by simp) (List.map_congr_left fun i _ => ?_)
  exact congrArg raw.getLsbD (by simp; omega)

@[simp] theorem codeBits_length {w : Nat} (raw : BitVec w) (n : Nat) : (codeBits raw n).length = n := by simp [codeBits]

@[simp] theorem symbolBits_nil (m : Memory p) : symbolBits m [] = [] := rfl

theorem symbolBits_cons (m : Memory p) (x : Sym p) (xs : List (Sym p)) :
    symbolBits m (x :: xs) = codeBits (m.codeAt x).raw (m.codeAt x).len.toNat ++ symbolBits m xs := rfl

/-! ## The partial byte -/

@[simp] theorem heldBits_length (w : Writer p) : (heldBits w).length = w.wcnt.toNat := by simp [heldBits]

theorem wcnt_cases (c : BitVec 3) :
    c = 0#3 ∨ c = 1#3 ∨ c = 2#3 ∨ c = 3#3 ∨ c = 4#3 ∨ c = 5#3 ∨ c = 6#3 ∨ c = 7#3 := by
  revert c; decide

/-- The bits no write has supplied are 0 (10_state.md R13). -/
theorem low_bits_zero {y : Byte} {k : Nat} (h : y <<< k = 0#8) {i : Nat} (hi : i + k < 8) : y.getLsbD i = false := by
  have := congrArg (fun z : Byte => z.getLsbD (i + k)) h
  rw [BitVec.getLsbD_shiftLeft] at this
  simpa [hi, -BitVec.getLsbD_eq_getElem] using this

theorem shift_eq_zero {y : Byte} {k : Nat} (h : ∀ i, i + k < 8 → y.getLsbD i = false) : y <<< k = 0#8 := by
  apply BitVec.eq_of_getLsbD_eq
  intro i hi
  by_cases hk : i < k
  · simp [hk]
  · have := h (i - k) (by omega)
    rw [BitVec.getLsbD_shiftLeft, this]
    simp

/-- A bit placed below the held ones is the last held (40_bitwriter.md R82 case a). -/
theorem heldBits_place {w : Writer p} (b : Bool) (hz : w.wbuf <<< w.wcnt.toNat = 0#8) (h7 : w.wcnt ≠ 7#3) :
    heldBits { w with wbuf := placeBit w b, wcnt := w.wcnt + 1, wbits := w.wbits + 1 } = heldBits w ++ [b] := by
  obtain ⟨wbuf, wcnt, wbits, wbytes, wopenf, wleave⟩ := w
  have hlow : ∀ i, i + wcnt.toNat < 8 → wbuf.getLsbD i = false := fun i hi => low_bits_zero hz hi
  rcases wcnt_cases wcnt with rfl | rfl | rfl | rfl | rfl | rfl | rfl | rfl
  all_goals first
    | exact absurd rfl h7
    | (simp [heldBits, placeBit, List.range_succ]
       intro h
       simp [← BitVec.getLsbD_eq_getElem, hlow] at h)

/-- After a bit is placed the bits below it are still 0. -/
theorem place_low_zero {w : Writer p} (b : Bool) (hz : w.wbuf <<< w.wcnt.toNat = 0#8) (h7 : w.wcnt ≠ 7#3) :
    placeBit w b <<< (w.wcnt + 1).toNat = 0#8 := by
  obtain ⟨wbuf, wcnt, wbits, wbytes, wopenf, wleave⟩ := w
  have hlow : ∀ i, i + wcnt.toNat < 8 → wbuf.getLsbD i = false := fun i hi => low_bits_zero hz hi
  apply shift_eq_zero
  intro i hi
  rcases wcnt_cases wcnt with rfl | rfl | rfl | rfl | rfl | rfl | rfl | rfl
  all_goals first
    | exact absurd rfl h7
    | (simp at hi hlow
       have := hlow i (by omega)
       simp [placeBit, this]
       intro h; omega)

/-- The eighth bit completes the byte of the held bits and itself. -/
theorem byteBits_place {w : Writer p} (b : Bool) (hz : w.wbuf <<< w.wcnt.toNat = 0#8) (h7 : w.wcnt = 7#3) :
    byteBits (placeBit w b) = heldBits w ++ [b] := by
  obtain ⟨wbuf, wcnt, wbits, wbytes, wopenf, wleave⟩ := w
  subst h7
  have h0 : wbuf.getLsbD 0 = false := low_bits_zero hz (show 0 + 7 < 8 by decide)
  simp at h0
  simp [heldBits, placeBit, byteBits, List.range_succ, h0]

@[simp] theorem heldBits_nil {w : Writer p} (h : w.wcnt = 0#3) : heldBits w = [] := by simp [heldBits, h]

/-! ## Packing -/

theorem byteOfBits_byteBits (y : Byte) (rest : List Bool) : byteOfBits (byteBits y ++ rest) = y := by
  apply BitVec.eq_of_getLsbD_eq
  intro i hi
  interval_cases i <;> simp [byteOfBits, byteBits, List.range_succ]

@[simp] theorem pack_nil : pack [] = [] := rfl

theorem pack_byteBits (y : Byte) (rest : List Bool) : pack (byteBits y ++ rest) = y :: pack rest := by
  have hlen : ((byteBits y ++ rest).length + 7) / 8 = (rest.length + 7) / 8 + 1 := by simp; omega
  have hdrop : ∀ k, (byteBits y ++ rest).drop (8 * (k + 1)) = rest.drop (8 * k) := by
    intro k
    have : 8 * (k + 1) = (byteBits y).length + 8 * k := by simp; omega
    rw [this, List.drop_append]
    simp
  unfold pack
  rw [hlen, List.range_succ_eq_map]
  simp [byteOfBits_byteBits, hdrop, Function.comp_def]

/-- Packing whole bytes and a rest packs the rest after them. -/
theorem pack_unpack (ys : List Byte) (rest : List Bool) : pack (unpack ys ++ rest) = ys ++ pack rest := by
  induction ys with
  | nil => rfl
  | cons y ys ih => rw [unpack_cons, List.append_assoc, pack_byteBits, ih]; rfl

/-- The packed held bits are the partial byte as it stands, or nothing (40_bitwriter.md R84). -/
theorem pack_heldBits {w : Writer p} (hz : w.wbuf <<< w.wcnt.toNat = 0#8) :
    pack (heldBits w) = if w.wcnt = 0#3 then [] else [w.wbuf] := by
  obtain ⟨wbuf, wcnt, wbits, wbytes, wopenf, wleave⟩ := w
  have hlow : ∀ i, i + wcnt.toNat < 8 → wbuf.getLsbD i = false := fun i hi => low_bits_zero hz hi
  rcases wcnt_cases wcnt with rfl | rfl | rfl | rfl | rfl | rfl | rfl | rfl
  · simp
  all_goals
    simp [pack, heldBits, List.range_succ, byteOfBits]
    apply BitVec.eq_of_getLsbD_eq
    intro i hi
    simp at hlow
    interval_cases i <;> simp <;> exact hlow _ (by decide)

/-- Unpacking what was packed gives the bits, and zeros up to a whole byte (50_invariants_and_properties.md R163). -/
theorem byteBits_byteOfBits {c : List Bool} (h : c.length ≤ 8) :
    byteBits (byteOfBits c) = c ++ List.replicate (8 - c.length) false := by
  match c, h with
  | [], _ => rfl
  | [a], _ => cases a <;> rfl
  | [a, b], _ => cases a <;> cases b <;> decide
  | [a, b, c], _ => cases a <;> cases b <;> cases c <;> decide
  | [a, b, c, d], _ => cases a <;> cases b <;> cases c <;> cases d <;> decide
  | [a, b, c, d, e], _ => revert a b c d e; decide
  | [a, b, c, d, e, f], _ => revert a b c d e f; decide
  | [a, b, c, d, e, f, g], _ => simp [byteOfBits, byteBits, List.range_succ]
  | [a, b, c, d, e, f, g, h], _ => simp [byteOfBits, byteBits, List.range_succ]
  | _ :: _ :: _ :: _ :: _ :: _ :: _ :: _ :: _ :: _, h => simp at h; omega

end Sys2Proof.Machine
end

