-- ==== Sys2Proof/Laws/Builds.lean ====
section
/-!
SUPPORT. The builds: what the bounds of spec/00_scope.md R5's parameters give in every build, the values in the default one, and
that `exec` is the dispatch of the default build.
-/
namespace Sys2Proof

theorem Params.two_pow_symW_le (p : Params) : 2 ^ p.symW ≤ 256 := Nat.pow_le_pow_right (by decide) p.symW_le

theorem Params.two_pow_nidxW_le (p : Params) : 2 ^ p.nidxW ≤ 512 := Nat.pow_le_pow_right (by decide) p.nidxW_le

theorem Params.nNodes_le (p : Params) : p.nNodes ≤ 512 := p.nNodes_eq ▸ p.two_pow_nidxW_le

/-- A symbol's index is below the code table's size, which is at most 256. -/
theorem Sym.toNat_lt {p : Params} (x : Sym p) : x.toNat < p.nSyms ∧ p.nSyms ≤ 256 := ⟨x.isLt, p.two_pow_symW_le⟩

/-- A node's index is below the node store's size, which is at most 512. -/
theorem NodeIdx.toNat_lt {p : Params} (i : NodeIdx p) : i.toNat < p.nNodes ∧ p.nNodes ≤ 512 :=
  ⟨p.nNodes_eq ▸ i.isLt, p.nNodes_le⟩

@[simp] theorem Params.default_symW : Params.default.symW = 8 := rfl
@[simp] theorem Params.default_lmax : Params.default.lmax = 32 := rfl
@[simp] theorem Params.default_nNodes : Params.default.nNodes = 512 := rfl
@[simp] theorem Params.default_nidxW : Params.default.nidxW = 9 := rfl
@[simp] theorem Params.default_cntW : Params.default.cntW = 32 := rfl
@[simp] theorem Params.default_busW : Params.default.busW = 32 := rfl
@[simp] theorem Params.default_nSyms : Params.default.nSyms = 256 := rfl

/-- In the default build the operand of `ENCSYM` is the symbol (30_encoding.md R61 d). -/
@[simp] theorem Machine.symOperand_default (x : Byte) : Machine.symOperand x .default = x := BitVec.setWidth_eq x

/-- In the default build `RAW` is the whole of `CT_RAW` (30_encoding.md R67). -/
theorem Machine.CodeEntry.raw_default (e : Machine.CodeEntry .default) : e.raw = e.rawWord := BitVec.setWidth_eq _

/-- `exec` is the meaning of the commands in the default build. -/
theorem Machine.execIn_default (i : Instr) (s : Machine.State) : Machine.execIn i s = Machine.exec i s := by cases i <;> rfl

end Sys2Proof
end

