-- ==== Sys2Proof/Laws/Stores.lean ====
section
/-!
SUPPORT. The stores: what a read finds after a write, at the same index and at another, in every store; that writes keep
the canonical form; that the stores after reset have it.
-/
namespace Sys2Proof.Machine

variable {p : Params}

variable {α : Type}

@[simp] theorem Cells.get_nil (d : α) (i : Nat) : Cells.get d [] i = d := rfl

theorem Cells.get_cons (d : α) (k : Nat) (v : α) (m : Cells α) (i : Nat) :
    Cells.get d ((k, v) :: m) i = if k = i then v else Cells.get d m i := rfl

theorem Cells.get_erase_same (d : α) (m : Cells α) (i : Nat) : Cells.get d (Cells.erase m i) i = d := by
  induction m with
  | nil => rfl
  | cons c m ih =>
    obtain ⟨k, v⟩ := c
    by_cases h : k = i <;> simp_all [Cells.erase, Cells.get_cons]

theorem Cells.get_erase_other (d : α) (m : Cells α) {i j : Nat} (h : j ≠ i) :
    Cells.get d (Cells.erase m i) j = Cells.get d m j := by
  induction m with
  | nil => rfl
  | cons c m ih =>
    obtain ⟨k, v⟩ := c
    by_cases hk : k = i
    · have : i ≠ j := fun e => h e.symm
      simp_all [Cells.erase, Cells.get_cons]
    · simp_all [Cells.erase, Cells.get_cons]

theorem Cells.get_insert_other (d : α) (m : Cells α) {i j : Nat} (v : α) (h : j ≠ i) :
    Cells.get d (Cells.insert i v m) j = Cells.get d m j := by
  have hij : i ≠ j := fun e => h e.symm
  induction m with
  | nil => simp [Cells.insert, Cells.get_cons, hij]
  | cons c m ih =>
    obtain ⟨k, w⟩ := c
    by_cases hk : i < k <;> simp [Cells.insert, hk, Cells.get_cons, hij, ih]

theorem Cells.get_insert_same (d : α) (m : Cells α) (i : Nat) (v : α) (h : ∀ c ∈ m, c.1 ≠ i) :
    Cells.get d (Cells.insert i v m) i = v := by
  induction m with
  | nil => simp [Cells.insert, Cells.get_cons]
  | cons c m ih =>
    obtain ⟨k, w⟩ := c
    have hk : k ≠ i := h (k, w) (by simp)
    by_cases hlt : i < k
    · simp [Cells.insert, hlt, Cells.get_cons]
    · simp [Cells.insert, hlt, Cells.get_cons, hk, ih fun c hc => h c (by simp [hc])]

theorem Cells.mem_erase {m : Cells α} {i : Nat} {c : Nat × α} : c ∈ Cells.erase m i ↔ c ∈ m ∧ c.1 ≠ i := by
  simp [Cells.erase]

variable [DecidableEq α]

@[simp] theorem Cells.get_put_same (d : α) (m : Cells α) (i : Nat) (v : α) : Cells.get d (Cells.put d m i v) i = v := by
  unfold Cells.put
  split
  · rename_i h; rw [Cells.get_erase_same, h]
  · exact Cells.get_insert_same d _ i v fun c hc => (Cells.mem_erase.mp hc).2

theorem Cells.get_put_other (d : α) (m : Cells α) {i j : Nat} (v : α) (h : j ≠ i) :
    Cells.get d (Cells.put d m i v) j = Cells.get d m j := by
  unfold Cells.put
  split
  · exact Cells.get_erase_other d m h
  · rw [Cells.get_insert_other d _ v h, Cells.get_erase_other d m h]

theorem Cells.wf_cons {d : α} {n k : Nat} {v : α} {m : Cells α} :
    Cells.wf d n ((k, v) :: m) = true ↔ (k < n ∧ v ≠ d ∧ ∀ c ∈ m, k < c.1) ∧ Cells.wf d n m = true := by
  simp [Cells.wf, and_assoc]

theorem Cells.wf_erase {d : α} {n : Nat} {m : Cells α} (i : Nat) (h : Cells.wf d n m = true) :
    Cells.wf d n (Cells.erase m i) = true := by
  induction m with
  | nil => rfl
  | cons c m ih =>
    obtain ⟨k, v⟩ := c
    obtain ⟨⟨hk, hv, hlt⟩, hm⟩ := Cells.wf_cons.mp h
    by_cases hki : k = i
    · simpa [Cells.erase, hki] using ih hm
    · have : Cells.erase ((k, v) :: m) i = (k, v) :: Cells.erase m i := by simp [Cells.erase, hki]
      rw [this]
      exact Cells.wf_cons.mpr ⟨⟨hk, hv, fun c hc => hlt c (Cells.mem_erase.mp hc).1⟩, ih hm⟩

theorem Cells.mem_insert {i : Nat} {v : α} {m : Cells α} {c : Nat × α} :
    c ∈ Cells.insert i v m ↔ c = (i, v) ∨ c ∈ m := by
  induction m with
  | nil => simp [Cells.insert]
  | cons b m ih =>
    obtain ⟨k, w⟩ := b
    by_cases h : i < k
    · simp [Cells.insert, h]
    · simp only [Cells.insert, h, if_false, List.mem_cons, ih]; tauto

theorem Cells.wf_insert {d : α} {n : Nat} {m : Cells α} {i : Nat} {v : α} (hi : i < n) (hv : v ≠ d)
    (hne : ∀ c ∈ m, c.1 ≠ i) (h : Cells.wf d n m = true) : Cells.wf d n (Cells.insert i v m) = true := by
  induction m with
  | nil => simp [Cells.insert, Cells.wf, hi, hv]
  | cons c m ih =>
    obtain ⟨k, w⟩ := c
    obtain ⟨⟨hk, hw, hlt⟩, hm⟩ := Cells.wf_cons.mp h
    by_cases hik : i < k
    · simp only [Cells.insert, hik, if_true]
      refine Cells.wf_cons.mpr ⟨⟨hi, hv, fun c hc => ?_⟩, h⟩
      rcases List.mem_cons.mp hc with rfl | hc
      · exact hik
      · exact Nat.lt_trans hik (hlt c hc)
    · have hki : k < i := by have := hne (k, w) (by simp); simp at this; omega
      simp only [Cells.insert, hik, if_false]
      refine Cells.wf_cons.mpr ⟨⟨hk, hw, fun c hc => ?_⟩, ih (fun c hc => hne c (by simp [hc])) hm⟩
      rcases Cells.mem_insert.mp hc with rfl | hc
      · exact hki
      · exact hlt c hc

/-- Writing any index in range keeps the canonical form. -/
theorem Cells.wf_put {d : α} {n : Nat} {m : Cells α} {i : Nat} (v : α) (hi : i < n) (h : Cells.wf d n m = true) :
    Cells.wf d n (Cells.put d m i v) = true := by
  unfold Cells.put
  split
  · exact Cells.wf_erase i h
  · rename_i hv
    exact Cells.wf_insert hi hv (fun c hc => (Cells.mem_erase.mp hc).2) (Cells.wf_erase i h)

omit [DecidableEq α]

@[simp] theorem Memory.nodeAt_setNode_same (m : Memory p) (i : NodeIdx p) (v : Word) : (m.setNode i v).nodeAt i = v := by
  simp [Memory.nodeAt, Memory.setNode]

theorem Memory.nodeAt_setNode_other (m : Memory p) {i j : NodeIdx p} (v : Word) (h : j ≠ i) :
    (m.setNode i v).nodeAt j = m.nodeAt j := by
  have : j.toNat ≠ i.toNat := fun e => h (BitVec.eq_of_toNat_eq e)
  simp [Memory.nodeAt, Memory.setNode, Cells.get_put_other _ _ _ this]

@[simp] theorem Memory.codeAt_setNode (m : Memory p) (i : NodeIdx p) (v : Word) (x : Sym p) :
    (m.setNode i v).codeAt x = m.codeAt x := rfl

@[simp] theorem Memory.codeAt_setCode_same (m : Memory p) (x : Sym p) (e : CodeEntry p) : (m.setCode x e).codeAt x = e := by
  simp [Memory.codeAt, Memory.setCode]

theorem Memory.codeAt_setCode_other (m : Memory p) {x y : Sym p} (e : CodeEntry p) (h : y ≠ x) :
    (m.setCode x e).codeAt y = m.codeAt y := by
  have : y.toNat ≠ x.toNat := fun q => h (BitVec.eq_of_toNat_eq q)
  simp [Memory.codeAt, Memory.setCode, Cells.get_put_other _ _ _ this]

@[simp] theorem Memory.nodeAt_setCode (m : Memory p) (x : Sym p) (e : CodeEntry p) (i : NodeIdx p) :
    (m.setCode x e).nodeAt i = m.nodeAt i := rfl

theorem Memory.wf_setNode {m : Memory p} (i : NodeIdx p) (v : Word) (h : m.wf = true) : (m.setNode i v).wf = true := by
  simp only [Memory.wf, Bool.and_eq_true] at h ⊢
  exact ⟨Cells.wf_put v (p.nNodes_eq ▸ i.isLt) h.1, h.2⟩

theorem Memory.wf_setCode {m : Memory p} (x : Sym p) (e : CodeEntry p) (h : m.wf = true) : (m.setCode x e).wf = true := by
  simp only [Memory.wf, Bool.and_eq_true] at h ⊢
  exact ⟨h.1, Cells.wf_put e x.isLt h.2⟩

theorem Memory.wf_atReset : (Memory.atReset : Memory p).wf = true := rfl

end Sys2Proof.Machine
end

