-- ==== Sys2Proof/Laws/Bus.lean ====
section
/-!
SUPPORT. The register map, said once: where each register of the arrays stands, where no register stands, that two
word-aligned offsets never name one register (spec/20_memory.md R42, R43).
-/
namespace Sys2Proof.Machine

variable {p : Params}

theorem regAt_node (i : NodeIdx p) : regAt (0x0800 + 4 * i.toNat) p = some (.node i) := by
  obtain ⟨hi, hn⟩ := NodeIdx.toNat_lt i
  have h : 0x0800 + 4 * i.toNat < 0x1000 := by omega
  simp [regAt, h, hi]

theorem regAt_ctRaw (x : Sym p) : regAt (0x1000 + 8 * x.toNat) p = some (.ctRaw x) := by
  have h0 : ¬ 0x1000 + 8 * x.toNat < 0x0800 := by omega
  simp [regAt, h0, x.isLt]

theorem regAt_ctLen (x : Sym p) : regAt (0x1004 + 8 * x.toNat) p = some (.ctLen x) := by
  have h0 : ¬ 0x1004 + 8 * x.toNat < 0x0800 := by omega
  have h1 : ¬ 0x1004 + 8 * x.toNat < 0x1000 := by omega
  have h2 : (0x1004 + 8 * x.toNat - 0x1000) / 8 = x.toNat := by omega
  have h3 : (0x1004 + 8 * x.toNat - 0x1000) % 8 = 4 := by omega
  simp [regAt, h0, h1, h2, h3, x.isLt]

/-- Offsets with no register in the build (20_memory.md R42). -/
theorem regAt_unmapped {addr : Nat} (h : (0x0044 ≤ addr ∧ addr < 0x0800) ∨ (0x0800 + 4 * p.nNodes ≤ addr ∧ addr < 0x1000) ∨
    0x1000 + 8 * p.nSyms ≤ addr) : regAt addr p = none := by
  rcases h with ⟨h1, h2⟩ | ⟨h1, h2⟩ | h
  · rw [regAt, if_pos h2, List.getElem?_eq_none]
    simp [controlBlock]; omega
  · rw [regAt, if_neg (by omega), if_pos h2, if_neg (by omega)]
  · rw [regAt, if_neg (by omega), if_neg (by omega), if_neg (by omega)]

/-- The offset of a register (20_memory.md R42). -/
def Reg.addr : Reg p → Nat
  | .cmd => 0x0000
  | .status => 0x0004
  | .result => 0x0008
  | .faults => 0x000C
  | .ioinfo => 0x0010
  | .root => 0x0014
  | .maxlen => 0x0018
  | .dlimit => 0x001C
  | .dcount => 0x0020
  | .wstate => 0x0024
  | .wbits => 0x0028
  | .wbytes => 0x002C
  | .rstate => 0x0030
  | .rbits => 0x0034
  | .rbytes => 0x0038
  | .accRaw => 0x003C
  | .accstate => 0x0040
  | .node i => 0x0800 + 4 * i.toNat
  | .ctRaw x => 0x1000 + 8 * x.toNat
  | .ctLen x => 0x1004 + 8 * x.toNat

/-- A word-aligned offset names the register that stands there and no other (20_memory.md R42). -/
theorem regAt_eq_some {addr : Nat} {r : Reg p} (ha : addr % 4 = 0) : regAt addr p = some r ↔ addr = r.addr := by
  constructor
  · intro h
    simp only [regAt] at h
    split at h
    · have hk : addr / 4 < 17 := by
        by_contra hh
        rw [List.getElem?_eq_none (by simp [controlBlock]; omega)] at h
        cases h
      have ha4 : addr = 4 * (addr / 4) := by omega
      generalize addr / 4 = k at *
      subst ha4
      interval_cases k <;> simp [controlBlock] at h <;> subst h <;> rfl
    · split at h
      · split at h
        · next hi =>
          obtain rfl := Option.some.inj h
          rw [p.nNodes_eq] at hi
          simp only [Reg.addr, BitVec.toNat_ofNat, Nat.mod_eq_of_lt hi]; omega
        · cases h
      · split at h
        · next hx =>
          have := Option.some.inj h
          split at this <;> subst this <;> simp only [Reg.addr, BitVec.toNat_ofNat, Nat.mod_eq_of_lt hx] <;> omega
        · cases h
  · rintro rfl
    cases r with
    | node i => exact regAt_node i
    | ctRaw x => exact regAt_ctRaw x
    | ctLen x => exact regAt_ctLen x
    | _ => simp [Reg.addr, regAt, controlBlock]

/-- What a host write to a register other than `CMD` leaves (20_memory.md R41). -/
theorem writeReg_leaves (r : Reg p) (v : Word) (s : State p) :
    (writeReg r v s).writer = s.writer ∧ (writeReg r v s).reader = s.reader ∧ (writeReg r v s).decoder = s.decoder ∧
      (writeReg r v s).regs = s.regs ∧ (writeReg r v s).env = s.env ∧ (writeReg r v s).host = s.host := by
  cases r <;> exact ⟨rfl, rfl, rfl, rfl, rfl, rfl⟩

end Sys2Proof.Machine
end

