-- ==== Sys2Proof/Laws/Decode.lean ====
section
/-!
SUPPORT. Decoding said once: what a word that decodes looks like (spec/30_encoding.md R60 to R63), and that no word matches
two rows of the opcode map.
-/
namespace Sys2Proof

/-- A word is its four fields (30_encoding.md R60). -/
theorem CmdFields.toWord_ofWord (w : Word) : (CmdFields.ofWord w).toWord = w := by
  apply BitVec.eq_of_getLsbD_eq
  intro i hi
  interval_cases i <;> simp [CmdFields.toWord, CmdFields.ofWord, placeAt]

theorem Op.ofBits_eq_some {v : BitVec 4} {op : Op} : Op.ofBits v = some op ↔ v = op.bits := by
  revert v; cases op <;> decide

/-- What a word that decodes looks like: a legal `OP`, the must-be-zero parts 0, the operand taken from `ARG`. -/
theorem decodeWord_eq_ok {p : Params} {w : Word} {i : Instr} :
    decodeWord w p = .ok i ↔
      ∃ op : Op, (CmdFields.ofWord w).op = op.bits ∧ (CmdFields.ofWord w).z1 = 0#16 ∧ (CmdFields.ofWord w).z0 = 0#4 ∧
        op.argUse.mbzOk p.symW (CmdFields.ofWord w).arg = true ∧ i = op.instr (CmdFields.ofWord w).arg := by
  simp only [decodeWord, ← Op.ofBits_eq_some]
  cases Op.ofBits (CmdFields.ofWord w).op with
  | none => simp
  | some op =>
    dsimp only
    constructor
    · intro h
      split at h
      · next hz =>
        simp only [Bool.and_eq_true, beq_iff_eq] at hz
        exact ⟨op, rfl, hz.1.1, hz.1.2, hz.2, (Except.ok.inj h).symm⟩
      · cases h
    · rintro ⟨op', ho, h1, h0, ha, rfl⟩
      obtain rfl := Option.some.inj ho
      simp [h1, h0, ha]

/-- The decoder takes exactly the well-formed words. -/
theorem decodeWord_isOk_iff_wf {p : Params} {w : Word} : (decodeWord w p).isOk = (CmdFields.ofWord w).wf p := by
  simp only [decodeWord, CmdFields.wf, CmdFields.z1Zero, CmdFields.z0Zero, CmdFields.argOk]
  cases Op.ofBits (CmdFields.ofWord w).op with
  | none => rfl
  | some op => dsimp only; split <;> simp_all [Except.isOk, Except.toBool]

/-- Which sub-cause a word that does not decode has (30_encoding.md R63): `RsvdOp` exactly when `OP` names nothing. -/
theorem decodeWord_eq_rsvdOp {p : Params} {w : Word} :
    decodeWord w p = .error .rsvdOp ↔ Op.ofBits (CmdFields.ofWord w).op = none := by
  simp only [decodeWord]
  cases Op.ofBits (CmdFields.ofWord w).op with
  | none => simp
  | some op => dsimp only; split <;> simp

/-- No word is the command of two rows of the opcode map (30_encoding.md R62). -/
theorem opcodeRows_disjoint : opcodeRows.Pairwise fun r q => r.disjoint q = true := by decide

/-- Disjoint rows accept no word in common. -/
theorem OpcodeRow.not_accepts_both {r q : OpcodeRow} (h : r.disjoint q = true) {w : Word} (hr : r.accepts w = true) :
    q.accepts w = false := by
  simp only [OpcodeRow.disjoint, OpcodeRow.accepts, bne_iff_ne, ne_eq, beq_iff_eq, beq_eq_false_iff_ne] at *
  intro hq
  apply h
  rw [← hr, ← hq]
  apply BitVec.eq_of_getLsbD_eq
  intro i hi
  simp only [BitVec.getLsbD_and, BitVec.getLsbD_xor]
  cases w.getLsbD i <;> cases r.mask.getLsbD i <;> cases q.mask.getLsbD i <;> simp

end Sys2Proof
end

