-- ==== Sys2Proof/Laws/Frames.lean ====
section
/-!
SUPPORT. What the sub-steps of each family leave unchanged. `hideWriter`, `hideEncoder`, `hideReader`, `hideDecoder` blank
the parts a family may write; two states that agree once these are blanked agree on everything else.
-/
namespace Sys2Proof.Machine

variable {p : Params}

/-- The state with what the writer's sub-steps write blanked: the writer and the sink. -/
def hideWriter (s : State p) : State p :=
  { s with
    writer := Writer.atReset
    env := { s.env with sink := [], sinkReleased := false, sinkWriteAns := [], sinkReleaseAns := [], calls := [] } }

/-- With what the encoder's sub-steps write blanked: the writer's, the symbol input and `RESULT`. -/
def hideEncoder (s : State p) : State p :=
  { s with
    writer := Writer.atReset
    regs := { s.regs with result := 0#32 }
    env := { s.env with
      sink := [], sinkReleased := false, sinkWriteAns := [], sinkReleaseAns := [], symIn := [], symReadAns := [],
      calls := [] } }

/-- With what the reader's sub-steps write blanked: the reader and the source. -/
def hideReader (s : State p) : State p :=
  { s with
    reader := Reader.atReset
    env := { s.env with source := [], sourceReleased := false, sourceReadAns := [], sourceReleaseAns := [], calls := [] } }

/-- With what the decoder's sub-steps write blanked: the reader's, the decoder, the symbol output and `RESULT`. -/
def hideDecoder (s : State p) : State p :=
  { s with
    reader := Reader.atReset
    decoder := Decoder.atReset
    regs := { s.regs with result := 0#32 }
    env := { s.env with
      source := [], sourceReleased := false, sourceReadAns := [], sourceReleaseAns := [], symOut := [], symWriteAns := [],
      calls := [] } }

theorem hideEncoder_of_hideWriter {s t : State p} (h : hideWriter t = hideWriter s) : hideEncoder t = hideEncoder s := by
  simp only [hideWriter, hideEncoder, State.mk.injEq, Env.mk.injEq] at h ⊢
  simp_all

theorem hideDecoder_of_hideReader {s t : State p} (h : hideReader t = hideReader s) : hideDecoder t = hideDecoder s := by
  simp only [hideReader, hideDecoder, State.mk.injEq, Env.mk.injEq] at h ⊢
  simp_all

variable {α β : Type}

/-- Two sub-steps that each leave what `hide` does not blank leave it together. -/
theorem Run.ends_bind_hide {hide : State p → State p} {s : State p} {x : Run p α} {f : α → State p → Run p β}
    (hx : x.Ends fun t => hide t = hide s) (hf : ∀ a u, hide u = hide s → (f a u).Ends fun t => hide t = hide u) :
    (x.bind f).Ends fun t => hide t = hide s :=
  Run.ends_bind hx (fun a u hu => (hf a u hu).imp fun _ ht => ht.trans hu) fun _ h => h

/-! ## Ports -/

theorem sinkWrite_frame (b : Byte) (s : State p) : (sinkWrite b s).Ends fun t => hideWriter t = hideWriter s := by
  unfold sinkWrite; dsimp only; split <;> simp [hideWriter, State.setEnv]

theorem sinkRelease_frame (s : State p) : (sinkRelease s).Ends fun t => hideWriter t = hideWriter s := by
  unfold sinkRelease; dsimp only; split <;> simp [hideWriter, State.setEnv]

theorem sourceRead_frame (s : State p) : (sourceRead s).Ends fun t => hideReader t = hideReader s := by
  unfold sourceRead; dsimp only; split <;> [split; skip; skip] <;> simp [hideReader, State.setEnv]

theorem sourceRelease_frame (s : State p) : (sourceRelease s).Ends fun t => hideReader t = hideReader s := by
  unfold sourceRelease; dsimp only; split <;> simp [hideReader, State.setEnv]

theorem symRead_frame (s : State p) : (symRead s).Ends fun t => hideEncoder t = hideEncoder s := by
  unfold symRead; dsimp only; split <;> [split; skip] <;> simp [hideEncoder, State.setEnv]

theorem symWrite_frame (x : Sym p) (s : State p) : (symWrite x s).Ends fun t => hideDecoder t = hideDecoder s := by
  unfold symWrite; split <;> simp [hideDecoder, State.setEnv]

/-! ## The writer and the encoder -/

theorem writeBit_frame (b : Bool) (s : State p) : (writeBit b s).Ends fun t => hideWriter t = hideWriter s := by
  unfold writeBit; dsimp only
  split
  · refine Run.ends_bind_hide (sinkWrite_frame _ _) fun r u _ => ?_
    cases r <;> simp [hideWriter, State.setWriter]
  · simp [hideWriter, State.setWriter]

theorem writeBits_frame {w : Nat} (raw : BitVec w) (n : Nat) (s : State p) :
    (writeBits raw n s).Ends fun t => hideWriter t = hideWriter s := by
  induction n generalizing s with
  | zero => rfl
  | succ n ih => exact Run.ends_bind_hide (writeBit_frame _ s) fun _ u _ => ih u

theorem flushPartial_frame (s : State p) : (flushPartial s).Ends fun t => hideWriter t = hideWriter s := by
  unfold flushPartial
  split
  · rfl
  · refine Run.ends_bind_hide (sinkWrite_frame _ _) fun r u _ => ?_
    cases r <;> simp [hideWriter, State.setWriter]

theorem releaseSink_frame (err : Option (IoSub × Word)) (s : State p) :
    (releaseSink err s).Ends fun t => hideWriter t = hideWriter s := by
  unfold releaseSink
  split
  · rfl
  · exact Run.ends_bind_hide (sinkRelease_frame s) fun _ _ _ => rfl

theorem closeWriter_frame (s : State p) : (closeWriter s).Ends fun t => hideWriter t = hideWriter s := by
  unfold closeWriter
  refine Run.ends_bind_hide (flushPartial_frame s) fun err u _ => ?_
  refine Run.ends_bind_hide (releaseSink_frame err u) fun err v _ => ?_
  dsimp only; split <;> simp [hideWriter, State.setWriter]

theorem encodeSymbol_frame (x : Sym p) (s : State p) : (encodeSymbol x s).Ends fun t => hideEncoder t = hideEncoder s := by
  unfold encodeSymbol; dsimp only
  split
  · simp [hideEncoder, State.setResult, State.setRegs]
  · split
    · simp [hideEncoder, State.setResult, State.setRegs]
    · exact (writeBits_frame _ _ s).imp fun _ => hideEncoder_of_hideWriter

theorem encodeLoop_frame (n : Nat) (s : State p) : (encodeLoop n s).Ends fun t => hideEncoder t = hideEncoder s := by
  induction n generalizing s with
  | zero => exact (closeWriter_frame s).imp fun _ => hideEncoder_of_hideWriter
  | succ n ih =>
    refine Run.ends_bind_hide (symRead_frame s) fun r u _ => ?_
    cases r with
    | none => exact (closeWriter_frame u).imp fun _ => hideEncoder_of_hideWriter
    | some x => exact Run.ends_bind_hide (encodeSymbol_frame x u) fun _ v _ => ih v

/-! ## The reader and the decoder -/

theorem readBit_frame (s : State p) : (readBit s).Ends fun t => hideReader t = hideReader s := by
  unfold readBit
  split
  · split
    · rfl
    · refine Run.ends_bind_hide (sourceRead_frame s) fun r u _ => ?_
      cases r <;> simp [hideReader, deliverBit, State.setReader]
  · simp [hideReader, deliverBit, State.setReader]

theorem closeReader_frame (s : State p) : (closeReader s).Ends fun t => hideReader t = hideReader s := by
  unfold closeReader
  split
  · simp [hideReader, State.setReader]
  · refine Run.ends_bind_hide (sourceRelease_frame s) fun r u _ => ?_
    cases r <;> simp [hideReader, State.setReader]

theorem readByteLoop_frame (n : Nat) (v : Byte) (s : State p) :
    (readByteLoop n v s).Ends fun t => hideDecoder t = hideDecoder s := by
  induction n generalizing v s with
  | zero => simp [readByteLoop, hideDecoder, State.setResult, State.setRegs]
  | succ n ih =>
    refine Run.ends_bind_hide ((readBit_frame s).imp fun _ => hideDecoder_of_hideReader) fun r u _ => ?_
    cases r with
    | endOfInput => simp [hideDecoder, State.setResult, State.setRegs]
    | bit b => exact ih _ u

theorem startWalk_frame (s : State p) : hideDecoder (startWalk s) = hideDecoder s := by
  simp [startWalk, hideDecoder, State.setDecoder]

theorem walkBit_frame (b : Bool) (s : State p) : (walkBit b s).Ends fun t => hideDecoder t = hideDecoder s := by
  unfold walkBit; dsimp only
  split
  · simp [hideDecoder, State.setDecoder]
  · split <;> simp [hideDecoder, State.setDecoder]

theorem emitSymbol_frame (x : Sym p) (s : State p) : (emitSymbol x s).Ends fun t => hideDecoder t = hideDecoder s := by
  unfold emitSymbol
  refine Run.ends_bind_hide (symWrite_frame x s) fun _ u _ => ?_
  simp [startWalk, hideDecoder, State.setResult, State.setRegs, State.setDecoder]

theorem walkLoop_frame (n : Nat) (s : State p) : (walkLoop n s).Ends fun t => hideDecoder t = hideDecoder s := by
  induction n generalizing s with
  | zero => rfl
  | succ n ih =>
    refine Run.ends_bind_hide ((readBit_frame s).imp fun _ => hideDecoder_of_hideReader) fun r u _ => ?_
    cases r with
    | endOfInput => dsimp only; split <;> rfl
    | bit b =>
      refine Run.ends_bind_hide (walkBit_frame b u) fun node v _ => ?_
      split
      · exact emitSymbol_frame _ v
      · exact ih v

theorem decodeSymbol_frame (s : State p) : (decodeSymbol s).Ends fun t => hideDecoder t = hideDecoder s := by
  unfold decodeSymbol
  split
  · rfl
  · exact (walkLoop_frame _ _).imp fun _ h => h.trans (startWalk_frame s)

theorem decodeLoop_frame (n : Nat) (s : State p) : (decodeLoop n s).Ends fun t => hideDecoder t = hideDecoder s := by
  induction n generalizing s with
  | zero => rfl
  | succ n ih =>
    unfold decodeLoop
    split
    · rfl
    · refine Run.ends_bind_hide (decodeSymbol_frame s) fun r u _ => ?_
      cases r with
      | endOfInput => rfl
      | symbol x => exact ih u

end Sys2Proof.Machine
end

