-- ==== Sys2Proof/Laws/PerInstr.lean ====
section
/-!
SUPPORT. A statement for every command: its word matches a row of the opcode map of its own operation
(spec/30_encoding.md R62), with the must-be-zero parts 0 (R60, R61).
-/
namespace Sys2Proof.Laws.Encoded

/-- The word of the command matches the row of its operation. -/
def Statement (i : Instr) : Prop := ∃ r ∈ opcodeRows, r.op = i.op ∧ r.accepts (encodeWord i) = true

theorem wopen (leave : Bool) : Statement (.wopen leave) :=
  ⟨⟨.wopen, 0x00001000#32, 0xFFFFFFFE#32⟩, by decide, rfl, by cases leave <;> decide⟩

theorem wbit (b : Bool) : Statement (.wbit b) :=
  ⟨⟨.wbit, 0x00002000#32, 0xFFFFFFFE#32⟩, by decide, rfl, by cases b <;> decide⟩

theorem wbyte (v : Byte) : Statement (.wbyte v) :=
  ⟨⟨.wbyte, 0x00003000#32, 0xFFFFFF00#32⟩, by decide, rfl, by revert v; decide⟩

theorem wclose : Statement .wclose := ⟨⟨.wclose, 0x00004000#32, 0xFFFFFFFF#32⟩, by decide, rfl, by decide⟩

theorem ropen (leave : Bool) : Statement (.ropen leave) :=
  ⟨⟨.ropen, 0x00005000#32, 0xFFFFFFFE#32⟩, by decide, rfl, by cases leave <;> decide⟩

theorem rbit : Statement .rbit := ⟨⟨.rbit, 0x00006000#32, 0xFFFFFFFF#32⟩, by decide, rfl, by decide⟩

theorem rbyte : Statement .rbyte := ⟨⟨.rbyte, 0x00007000#32, 0xFFFFFFFF#32⟩, by decide, rfl, by decide⟩

theorem rclose : Statement .rclose := ⟨⟨.rclose, 0x00008000#32, 0xFFFFFFFF#32⟩, by decide, rfl, by decide⟩

theorem encsym (x : Sym) : Statement (.encsym x) :=
  ⟨⟨.encsym, 0x00009000#32, 0xFFFFFF00#32⟩, by decide, rfl, by revert x; decide⟩

theorem encode : Statement .encode := ⟨⟨.encode, 0x0000A000#32, 0xFFFFFFFF#32⟩, by decide, rfl, by decide⟩

theorem decsym : Statement .decsym := ⟨⟨.decsym, 0x0000B000#32, 0xFFFFFFFF#32⟩, by decide, rfl, by decide⟩

theorem decode : Statement .decode := ⟨⟨.decode, 0x0000C000#32, 0xFFFFFFFF#32⟩, by decide, rfl, by decide⟩

end Sys2Proof.Laws.Encoded
end

