-- ==== Sys2Proof/Laws/Ports.lean ====
section
/-!
SUPPORT. What each port call can do, said once per port (spec/20_memory.md R45 to R49): with an answer `ok` what an
error-free environment does, with `ioError` nothing but the call, with `never` no later state.
-/
namespace Sys2Proof.Machine

variable {p : Params}

/-- An environment all of whose answers to come are `ok` answers the next call with `ok`. -/
theorem nextAnswer_ok {l : List PortAnswer} (h : ∀ a ∈ l, a = .ok) : nextAnswer l = .ok := by
  cases l with
  | nil => rfl
  | cons a l => exact h a (by simp)

theorem nextSymAnswer_ok {l : List SymAnswer} (h : ∀ a ∈ l, a = .ok) : nextSymAnswer l = .ok := by
  cases l with
  | nil => rfl
  | cons a l => exact h a (by simp)

theorem tail_ok {α : Type} {P : α → Prop} {l : List α} (h : ∀ a ∈ l, P a) : ∀ a ∈ l.tail, P a :=
  fun a ha => h a (List.mem_of_mem_tail ha)

theorem sinkWrite_ok {b : Byte} {s : State p} (h : nextAnswer s.env.sinkWriteAns = .ok) :
    sinkWrite b s = .done .ok (s.setEnv { s.env with
      sink := s.env.sink ++ [b], sinkWriteAns := s.env.sinkWriteAns.tail, calls := s.env.calls ++ [.sinkWrite b] }) := by
  simp [sinkWrite, h]

theorem sinkWrite_ioError {b : Byte} {s : State p} {e : Word} (h : nextAnswer s.env.sinkWriteAns = .ioError e) :
    sinkWrite b s = .done (.ioError e) (s.setEnv { s.env with
      sinkWriteAns := s.env.sinkWriteAns.tail, calls := s.env.calls ++ [.sinkWrite b] }) := by
  simp [sinkWrite, h]

theorem sinkWrite_never {b : Byte} {s : State p} (h : nextAnswer s.env.sinkWriteAns = .never) :
    sinkWrite b s = .never .sinkWrite := by
  simp [sinkWrite, h]

theorem sinkRelease_ok {s : State p} (h : nextAnswer s.env.sinkReleaseAns = .ok) :
    sinkRelease s = .done .ok (s.setEnv { s.env with
      sinkReleased := true, sinkReleaseAns := s.env.sinkReleaseAns.tail, calls := s.env.calls ++ [.sinkRelease] }) := by
  simp [sinkRelease, h]

theorem sinkRelease_ioError {s : State p} {e : Word} (h : nextAnswer s.env.sinkReleaseAns = .ioError e) :
    sinkRelease s = .done (.ioError e) (s.setEnv { s.env with
      sinkReleased := true, sinkReleaseAns := s.env.sinkReleaseAns.tail, calls := s.env.calls ++ [.sinkRelease] }) := by
  simp [sinkRelease, h]

theorem sinkRelease_never {s : State p} (h : nextAnswer s.env.sinkReleaseAns = .never) :
    sinkRelease s = .never .sinkRelease := by
  simp [sinkRelease, h]

theorem sourceRead_byte {s : State p} {y : Byte} {rest : List Byte} (h : nextAnswer s.env.sourceReadAns = .ok)
    (hs : s.env.source = y :: rest) :
    sourceRead s = .done (.byte y) (s.setEnv { s.env with
      source := rest, sourceReadAns := s.env.sourceReadAns.tail, calls := s.env.calls ++ [.sourceRead] }) := by
  simp [sourceRead, h, hs]

theorem sourceRead_end {s : State p} (h : nextAnswer s.env.sourceReadAns = .ok) (hs : s.env.source = []) :
    sourceRead s = .done .endOfInput (s.setEnv { s.env with
      sourceReadAns := s.env.sourceReadAns.tail, calls := s.env.calls ++ [.sourceRead] }) := by
  simp [sourceRead, h, hs]

theorem sourceRead_ioError {s : State p} {e : Word} (h : nextAnswer s.env.sourceReadAns = .ioError e) :
    sourceRead s = .done (.ioError e) (s.setEnv { s.env with
      sourceReadAns := s.env.sourceReadAns.tail, calls := s.env.calls ++ [.sourceRead] }) := by
  simp [sourceRead, h]

theorem sourceRead_never {s : State p} (h : nextAnswer s.env.sourceReadAns = .never) :
    sourceRead s = .never .sourceRead := by
  simp [sourceRead, h]

theorem sourceRelease_ok {s : State p} (h : nextAnswer s.env.sourceReleaseAns = .ok) :
    sourceRelease s = .done .ok (s.setEnv { s.env with
      sourceReleased := true, sourceReleaseAns := s.env.sourceReleaseAns.tail,
      calls := s.env.calls ++ [.sourceRelease] }) := by
  simp [sourceRelease, h]

theorem sourceRelease_ioError {s : State p} {e : Word} (h : nextAnswer s.env.sourceReleaseAns = .ioError e) :
    sourceRelease s = .done (.ioError e) (s.setEnv { s.env with
      sourceReleased := true, sourceReleaseAns := s.env.sourceReleaseAns.tail,
      calls := s.env.calls ++ [.sourceRelease] }) := by
  simp [sourceRelease, h]

theorem sourceRelease_never {s : State p} (h : nextAnswer s.env.sourceReleaseAns = .never) :
    sourceRelease s = .never .sourceRelease := by
  simp [sourceRelease, h]

theorem symRead_symbol {s : State p} {x : Sym p} {rest : List (Sym p)} (h : nextSymAnswer s.env.symReadAns = .ok)
    (hs : s.env.symIn = x :: rest) :
    symRead s = .done (some x) (s.setEnv { s.env with
      symIn := rest, symReadAns := s.env.symReadAns.tail, calls := s.env.calls ++ [.symRead] }) := by
  simp [symRead, h, hs]

theorem symRead_end {s : State p} (h : nextSymAnswer s.env.symReadAns = .ok) (hs : s.env.symIn = []) :
    symRead s = .done none (s.setEnv { s.env with
      symReadAns := s.env.symReadAns.tail, calls := s.env.calls ++ [.symRead] }) := by
  simp [symRead, h, hs]

theorem symRead_never {s : State p} (h : nextSymAnswer s.env.symReadAns = .never) : symRead s = .never .symRead := by
  simp [symRead, h]

theorem symWrite_ok {x : Sym p} {s : State p} (h : nextSymAnswer s.env.symWriteAns = .ok) :
    symWrite x s = .done () (s.setEnv { s.env with
      symOut := s.env.symOut ++ [x], symWriteAns := s.env.symWriteAns.tail, calls := s.env.calls ++ [.symWrite x] }) := by
  simp [symWrite, h]

theorem symWrite_never {x : Sym p} {s : State p} (h : nextSymAnswer s.env.symWriteAns = .never) :
    symWrite x s = .never .symWrite := by
  simp [symWrite, h]

end Sys2Proof.Machine
end

