-- ==== Sys2Proof/Laws/Raises.lean ====
section
/-!
SUPPORT. What each sub-step can raise (spec/60_exceptions.md R181, column "raised by").
-/
namespace Sys2Proof.Machine

variable {p : Params}

variable {α β : Type}

/-- If the run raises, it raises something `P` holds of. -/
def Run.Raises (P : Raise → Prop) : Run p α → Prop
  | .raise r _ => P r
  | .done _ _ => True
  | .never _ => True

theorem Run.Raises.bind {P : Raise → Prop} {x : Run p α} {f : α → State p → Run p β} (hx : x.Raises P)
    (hf : ∀ a s, (f a s).Raises P) : (x.bind f).Raises P := by
  cases x with
  | done a s => exact hf a s
  | raise r s => exact hx
  | never p => trivial

theorem Run.Raises.imp {P Q : Raise → Prop} {x : Run p α} (hx : x.Raises P) (h : ∀ r, P r → Q r) : x.Raises Q := by
  cases x with
  | done a s => trivial
  | raise r s => exact h r hx
  | never p => trivial

/-- What writer and reader commands raise beside `BadState`. -/
def Raise.ioOnly (r : Raise) : Prop := r.kind = .ioError

/-- What encoder commands raise beside `BadState`. -/
def Raise.ofEncoder (r : Raise) : Prop := r.kind = .ioError ∨ r.kind = .unknownSymbol ∨ r.kind = .badConfig

/-- What decoder commands raise beside `BadState`. -/
def Raise.ofDecoder (r : Raise) : Prop := r.kind = .ioError ∨ r.kind = .corruptStream ∨ r.kind = .badConfig

theorem sinkWrite_raises (P : Raise → Prop) (b : Byte) (s : State p) : (sinkWrite b s).Raises P := by
  simp only [sinkWrite]; split <;> trivial

theorem sinkRelease_raises (P : Raise → Prop) (s : State p) : (sinkRelease s).Raises P := by
  simp only [sinkRelease]; split <;> trivial

theorem sourceRead_raises (P : Raise → Prop) (s : State p) : (sourceRead s).Raises P := by
  simp only [sourceRead]; split <;> [split; skip; skip] <;> trivial

theorem sourceRelease_raises (P : Raise → Prop) (s : State p) : (sourceRelease s).Raises P := by
  simp only [sourceRelease]; split <;> trivial

theorem symRead_raises (P : Raise → Prop) (s : State p) : (symRead s).Raises P := by
  simp only [symRead]; split <;> [split; skip] <;> trivial

theorem symWrite_raises (P : Raise → Prop) (x : Sym p) (s : State p) : (symWrite x s).Raises P := by
  simp only [symWrite]; split <;> trivial

theorem writeBit_raises (b : Bool) (s : State p) : (writeBit b s).Raises Raise.ioOnly := by
  simp only [writeBit]
  split
  · refine (sinkWrite_raises _ _ _).bind fun r s => ?_
    cases r with
    | ok => trivial
    | ioError e => exact rfl
  · trivial

theorem writeBits_raises {w : Nat} (raw : BitVec w) (n : Nat) (s : State p) : (writeBits raw n s).Raises Raise.ioOnly := by
  induction n generalizing s with
  | zero => trivial
  | succ n ih => exact (writeBit_raises _ _).bind fun _ s => ih s

theorem closeWriter_raises (s : State p) : (closeWriter s).Raises Raise.ioOnly := by
  refine Run.Raises.bind ?_ fun err s => Run.Raises.bind ?_ fun err s => ?_
  · simp only [flushPartial]
    split
    · trivial
    · exact (sinkWrite_raises _ _ _).bind fun r s => by cases r <;> trivial
  · simp only [releaseSink]
    split
    · trivial
    · exact (sinkRelease_raises _ _).bind fun r s => trivial
  · cases err with
    | none => trivial
    | some err => exact rfl

theorem encodeSymbol_raises (x : Sym p) (s : State p) : (encodeSymbol x s).Raises Raise.ofEncoder := by
  simp only [encodeSymbol]
  split
  · exact .inr (.inl rfl)
  · split
    · exact .inr (.inr rfl)
    · exact (writeBits_raises _ _ _).imp fun _ => .inl

theorem encodeLoop_raises (n : Nat) (s : State p) : (encodeLoop n s).Raises Raise.ofEncoder := by
  induction n generalizing s with
  | zero => exact (closeWriter_raises _).imp fun _ => .inl
  | succ n ih =>
    refine (symRead_raises _ s).bind fun r s => ?_
    cases r with
    | none => exact (closeWriter_raises _).imp fun _ => .inl
    | some x => exact (encodeSymbol_raises _ _).bind fun _ s => ih s

theorem readBit_raises (s : State p) : (readBit s).Raises Raise.ioOnly := by
  simp only [readBit]
  split
  · split
    · trivial
    · refine (sourceRead_raises _ _).bind fun r s => ?_
      cases r with
      | ioError e => exact rfl
      | byte y => trivial
      | endOfInput => trivial
  · trivial

theorem readByteLoop_raises (n : Nat) (v : Byte) (s : State p) : (readByteLoop n v s).Raises Raise.ioOnly := by
  induction n generalizing s v with
  | zero => trivial
  | succ n ih =>
    refine (readBit_raises _).bind fun r s => ?_
    cases r with
    | endOfInput => trivial
    | bit b => exact ih _ _

theorem closeReader_raises (s : State p) : (closeReader s).Raises Raise.ioOnly := by
  simp only [closeReader]
  split
  · trivial
  · refine (sourceRelease_raises _ _).bind fun r s => ?_
    cases r with
    | ok => trivial
    | ioError e => exact rfl

theorem walkBit_raises (b : Bool) (s : State p) : (walkBit b s).Raises Raise.ofDecoder := by
  simp only [walkBit]
  split
  · exact .inr (.inl rfl)
  · split
    · exact .inr (.inl rfl)
    · trivial

theorem walkLoop_raises (n : Nat) (s : State p) : (walkLoop n s).Raises Raise.ofDecoder := by
  induction n generalizing s with
  | zero => exact .inr (.inl rfl)
  | succ n ih =>
    refine ((readBit_raises s).imp fun _ => .inl).bind fun r s => ?_
    cases r with
    | endOfInput =>
      dsimp only
      split
      · trivial
      · exact .inr (.inl rfl)
    | bit b =>
      refine (walkBit_raises _ _).bind fun node s => ?_
      split
      · exact (symWrite_raises _ _ _).bind fun _ _ => trivial
      · exact ih _

theorem decodeSymbol_raises (s : State p) : (decodeSymbol s).Raises Raise.ofDecoder := by
  simp only [decodeSymbol]
  split
  · exact .inr (.inr rfl)
  · exact walkLoop_raises _ _

theorem decodeLoop_raises (n : Nat) (s : State p) : (decodeLoop n s).Raises Raise.ofDecoder := by
  induction n generalizing s with
  | zero => trivial
  | succ n ih =>
    unfold decodeLoop
    split
    · trivial
    · refine (decodeSymbol_raises _).bind fun r s => ?_
      cases r with
      | endOfInput => trivial
      | symbol x => exact ih _

end Sys2Proof.Machine
end

