-- ==== Sys2Proof/Laws/Reader.lean ====
section
/-!
SUPPORT. What the reader's sub-steps do while the source answers without error: `Took s t bits` says that going from `s` to
`t` exactly `bits` were delivered (spec/41_bitreader.md R102, R105).
-/
namespace Sys2Proof.Machine

variable {p : Params}

theorem rcnt_cases {c : BitVec 4} (h : c.toNat ≤ 8) :
    c = 0#4 ∨ c = 1#4 ∨ c = 2#4 ∨ c = 3#4 ∨ c = 4#4 ∨ c = 5#4 ∨ c = 6#4 ∨ c = 7#4 ∨ c = 8#4 := by
  revert c; decide

@[simp] theorem unreadBits_length (r : Reader p) : (unreadBits r).length = r.rcnt.toNat := by simp [unreadBits]

theorem unreadBits_nil {r : Reader p} (h : r.rcnt = 0#4) : unreadBits r = [] := by simp [unreadBits, h]

/-- The next bit is `RBUF[RCNT-1]` (10_state.md R16). -/
theorem unreadBits_cons {r : Reader p} (h0 : r.rcnt ≠ 0#4) (h8 : r.rcnt.toNat ≤ 8) :
    unreadBits r = nextBit r :: unreadBits (bitDelivered r) := by
  obtain ⟨rbuf, rcnt, reof, rbits, rbytes, ropenf, rleave⟩ := r
  rcases rcnt_cases h8 with rfl | rfl | rfl | rfl | rfl | rfl | rfl | rfl | rfl
  all_goals first
    | exact absurd rfl h0
    | simp [unreadBits, nextBit, bitDelivered, List.range_succ]

theorem unreadBits_bytePulled (r : Reader p) (y : Byte) : unreadBits (bytePulled r y) = byteBits y := by
  simp [unreadBits, bytePulled, byteBits, List.range_succ]

theorem toNat_sub_one {c : BitVec 4} (h0 : c ≠ 0#4) : (c - 1).toNat = c.toNat - 1 := by
  revert c; decide

theorem rcnt_delivered {r : Reader p} (h0 : r.rcnt ≠ 0#4) : (bitDelivered r).rcnt.toNat = r.rcnt.toNat - 1 :=
  toNat_sub_one h0

/-- From `s` to `t` the reader has delivered `bits` and nothing else has happened (41_bitreader.md R105). -/
structure Took (s t : State p) (bits : List Bool) : Prop where
  frame : hideReader t = hideReader s
  ropenf : t.reader.ropenf = s.reader.ropenf
  rleave : t.reader.rleave = s.reader.rleave
  rcnt : t.reader.rcnt.toNat ≤ 8
  come : bitsToCome s = bits ++ bitsToCome t
  rbits : t.reader.rbits = s.reader.rbits + BitVec.ofNat p.cntW bits.length
  answers : ∀ a ∈ t.env.sourceReadAns, a = PortAnswer.ok
  released : t.env.sourceReleased = s.env.sourceReleased
  releaseAns : t.env.sourceReleaseAns = s.env.sourceReleaseAns

theorem Took.refl {s : State p} (h8 : s.reader.rcnt.toNat ≤ 8) (ha : ∀ a ∈ s.env.sourceReadAns, a = PortAnswer.ok) :
    Took s s [] :=
  ⟨rfl, rfl, rfl, h8, by simp, by simp, ha, rfl, rfl⟩

theorem Took.trans {s t u : State p} {xs ys : List Bool} (h : Took s t xs) (k : Took t u ys) : Took s u (xs ++ ys) := by
  refine ⟨k.frame.trans h.frame, k.ropenf.trans h.ropenf, k.rleave.trans h.rleave, k.rcnt, ?_, ?_, k.answers,
    k.released.trans h.released, k.releaseAns.trans h.releaseAns⟩
  · rw [h.come, k.come, List.append_assoc]
  · rw [k.rbits, h.rbits, List.length_append, BitVec.ofNat_add, BitVec.add_assoc]

/-- A bit to come is delivered (41_bitreader.md R102). -/
theorem readBit_took {s : State p} {b : Bool} {rest : List Bool} (h8 : s.reader.rcnt.toNat ≤ 8)
    (ha : ∀ a ∈ s.env.sourceReadAns, a = PortAnswer.ok) (hb : bitsToCome s = b :: rest) :
    ∃ t, readBit s = .done (.bit b) t ∧ Took s t [b] := by
  by_cases h0 : s.reader.rcnt = 0#4
  · cases he : s.reader.reof with
    | true => simp [bitsToCome, unreadBits_nil h0, he] at hb
    | false =>
      cases hs : s.env.source with
      | nil => simp [bitsToCome, unreadBits_nil h0, hs] at hb
      | cons y ys =>
        have hp : bitsToCome s = y.getLsbD 7 :: (unreadBits (bitDelivered (bytePulled s.reader y)) ++ unpack ys) := by
          rw [bitsToCome, unreadBits_nil h0, he, hs, unpack_cons, ← unreadBits_bytePulled s.reader y,
            unreadBits_cons (by simp [bytePulled]) (by simp [bytePulled])]
          simp [nextBit, bytePulled]
        obtain ⟨rfl, -⟩ : y.getLsbD 7 = b ∧ _ := by simpa [hp] using hb
        refine ⟨_, by
          simp only [readBit, h0, he, if_true]
          rw [sourceRead_byte (nextAnswer_ok ha) hs]; rfl, ?_⟩
        refine ⟨by simp [hideReader, State.setReader, State.setEnv], rfl, rfl, ?_, ?_, by simp [bitDelivered, bytePulled],
          tail_ok ha, rfl, rfl⟩
        · show (8#4 - 1#4).toNat ≤ 8; decide
        · rw [hp]; simp [bitsToCome, bitDelivered, bytePulled, he]
  · have hp : bitsToCome s = nextBit s.reader :: (unreadBits (bitDelivered s.reader) ++
        if s.reader.reof then [] else unpack s.env.source) := by
      rw [bitsToCome, unreadBits_cons h0 h8]; rfl
    obtain ⟨rfl, -⟩ : nextBit s.reader = b ∧ _ := by simpa [hp] using hb
    refine ⟨_, by simp only [readBit, h0, if_false, deliverBit]; rfl, ?_⟩
    refine ⟨by simp [hideReader, State.setReader], rfl, rfl, ?_, ?_, by simp [bitDelivered], ha, rfl, rfl⟩
    · rw [State.setReader_reader, rcnt_delivered h0]; omega
    · rw [hp]; rfl

/-- With no bit to come the reader answers end-of-input (41_bitreader.md R102 case c). -/
theorem readBit_end {s : State p} (h8 : s.reader.rcnt.toNat ≤ 8) (ha : ∀ a ∈ s.env.sourceReadAns, a = PortAnswer.ok)
    (hb : bitsToCome s = []) :
    ∃ t, readBit s = .done .endOfInput t ∧ Took s t [] ∧ t.reader.reof = true := by
  by_cases h0 : s.reader.rcnt = 0#4
  · cases he : s.reader.reof with
    | true => exact ⟨s, by simp [readBit, h0, he], Took.refl h8 ha, he⟩
    | false =>
      cases hs : s.env.source with
      | cons y ys => simp [bitsToCome, he, hs, unpack_cons, byteBits_eq] at hb
      | nil =>
        refine ⟨_, by
          simp only [readBit, h0, he, if_true]
          rw [sourceRead_end (nextAnswer_ok ha) hs]; rfl, ?_, rfl⟩
        refine ⟨by simp [hideReader, State.setReader, State.setEnv], rfl, rfl, by simp [h0], ?_, by simp,
          tail_ok ha, rfl, rfl⟩
        rw [hb, bitsToCome]; simp [unreadBits, h0]
  · rw [bitsToCome, unreadBits_cons h0 h8] at hb; simp at hb

/-- While bits are held, a bit read asks the source nothing (41_bitreader.md R102 "lazily"). -/
theorem readBit_held {s : State p} (h0 : s.reader.rcnt ≠ 0#4) :
    readBit s = .done (.bit (nextBit s.reader)) (s.setReader (bitDelivered s.reader)) := by
  simp [readBit, h0, deliverBit]

theorem readBit_ioError {s : State p} {e : Word} (h0 : s.reader.rcnt = 0#4) (he : s.reader.reof = false)
    (ha : nextAnswer s.env.sourceReadAns = .ioError e) :
    readBit s = .raise (.io .sourceRead e) (s.setEnv { s.env with
      sourceReadAns := s.env.sourceReadAns.tail, calls := s.env.calls ++ [.sourceRead] }) := by
  simp only [readBit, h0, he, if_true]
  rw [sourceRead_ioError ha]; rfl

end Sys2Proof.Machine
end

