-- ==== Sys2Proof/Laws/Walk.lean ====
section
/-!
SUPPORT. The decoder's walk: what one bit does, and that a bit string that spells a path takes the walk along it
(spec/43_decoder.md R136, R138).
-/
namespace Sys2Proof.Machine

variable {p : Params}

/-- Going from state to state with the decoder as it is does not matter to what the reader delivered. -/
theorem Took.setDecoder {s t : State p} {bits : List Bool} (h : Took s t bits) (d : Decoder p) :
    Took (s.setDecoder d) (t.setDecoder d) bits := by
  refine ⟨?_, h.ropenf, h.rleave, h.rcnt, h.come, h.rbits, h.answers, h.released, h.releaseAns⟩
  have := congrArg (fun u => u.setDecoder d) h.frame
  simpa [hideReader, State.setDecoder] using this

theorem Took.decoder {s t : State p} {bits : List Bool} (h : Took s t bits) : t.decoder = s.decoder :=
  congrArg (fun u => u.decoder) h.frame

theorem Took.mem {s t : State p} {bits : List Bool} (h : Took s t bits) : t.mem = s.mem :=
  congrArg (fun u => u.mem) h.frame

theorem Took.conf {s t : State p} {bits : List Bool} (h : Took s t bits) : t.conf = s.conf :=
  congrArg (fun u => u.conf) h.frame

theorem Took.regs {s t : State p} {bits : List Bool} (h : Took s t bits) : t.regs = s.regs :=
  congrArg (fun u => u.regs) h.frame

theorem Took.symOut {s t : State p} {bits : List Bool} (h : Took s t bits) : t.env.symOut = s.env.symOut :=
  congrArg (fun u => u.env.symOut) h.frame

theorem Took.symWriteAns {s t : State p} {bits : List Bool} (h : Took s t bits) : t.env.symWriteAns = s.env.symWriteAns :=
  congrArg (fun u => u.env.symWriteAns) h.frame

/-- A deliver after a deliver, the walk having moved in between. -/
theorem Took.trans_setDecoder {s t u : State p} {xs ys : List Bool} {d : Decoder p} (h : Took s t xs)
    (k : Took (t.setDecoder d) u ys) : Took s (u.setDecoder s.decoder) (xs ++ ys) := by
  have := k.setDecoder s.decoder
  rw [State.setDecoder_setDecoder, ← h.decoder, State.setDecoder_self] at this
  rw [← h.decoder]
  exact h.trans this

theorem toNat_add_one {c : CodeLen} (h : c.toNat ≤ 32) : (c + 1).toNat = c.toNat + 1 := by
  revert c; decide

/-- The decoder after the bits `c` have led it to node `n`: the accumulator and `CUR` move together
(43_decoder.md R136). -/
def walked (d : Decoder p) (c : List Bool) (n : NodeIdx p) : Decoder p :=
  { c.foldl appendBit d with cur := n }

theorem foldl_appendBit_accLen (d : Decoder p) (c : List Bool) :
    (c.foldl appendBit d).accLen = d.accLen + BitVec.ofNat 6 c.length := by
  induction c generalizing d with
  | nil => simp
  | cons b c ih =>
    rw [List.foldl_cons, ih, List.length_cons, BitVec.ofNat_add]
    simp only [appendBit]
    rw [BitVec.add_assoc]
    exact congrArg _ (BitVec.add_comm _ _)

theorem foldl_appendBit_accRaw (d : Decoder p) (c : List Bool) :
    (c.foldl appendBit d).accRaw = c.foldl (fun (a : RawCode p) b => a <<< 1 ||| (BitVec.ofBool b).setWidth p.lmax) d.accRaw := by
  induction c generalizing d with
  | nil => rfl
  | cons b c ih => rw [List.foldl_cons, ih]; rfl

theorem foldl_appendBit_dcount (d : Decoder p) (c : List Bool) : (c.foldl appendBit d).dcount = d.dcount := by
  induction c generalizing d with
  | nil => rfl
  | cons b c ih => rw [List.foldl_cons, ih]; rfl

theorem foldl_appendBit_cur (d : Decoder p) (c : List Bool) : (c.foldl appendBit d).cur = d.cur := by
  induction c generalizing d with
  | nil => rfl
  | cons b c ih => rw [List.foldl_cons, ih]; rfl

theorem appendBit_cur_comm (d : Decoder p) (n : NodeIdx p) (c : List Bool) :
    ({ c.foldl appendBit { d with cur := n } with cur := d.cur } : Decoder p) = c.foldl appendBit d := by
  induction c generalizing d with
  | nil => rfl
  | cons b c ih => exact ih (appendBit d b)

theorem walked_cons (d : Decoder p) (b : Bool) (c : List Bool) (m n : NodeIdx p) :
    walked { appendBit d b with cur := m } c n = walked d (b :: c) n := by
  have h := appendBit_cur_comm (appendBit d b) m c
  simp only [walked, List.foldl_cons, ← h]

/-- One bit of the walk that moves to a child (43_decoder.md R138). -/
theorem walkBit_moves {b : Bool} {s : State p} {c : NodeIdx p} (hl : s.decoder.accLen.toNat < s.conf.maxlen.toNat)
    (hm : s.conf.maxlen.toNat ≤ p.lmax) (hc : child (s.mem.nodeAt s.decoder.cur) b p = some c) :
    walkBit b s = .done (s.mem.nodeAt c) (s.setDecoder { appendBit s.decoder b with cur := c }) := by
  have ha : (s.decoder.accLen + 1).toNat = s.decoder.accLen.toNat + 1 := toNat_add_one (by have := p.lmax_le; omega)
  have : ¬ s.conf.maxlen.toNat < (appendBit s.decoder b).accLen.toNat := by rw [appendBit, ha]; omega
  have hc' : child (s.mem.nodeAt (appendBit s.decoder b).cur) b p = some c := hc
  simp only [walkBit, State.setDecoder_conf, State.setDecoder_decoder, this, if_false, State.setDecoder_mem, hc',
    State.setDecoder_setDecoder]

/-- One bit of the walk that selects no child (43_decoder.md R138, `NoChild`). -/
theorem walkBit_noChild {b : Bool} {s : State p} (hl : s.decoder.accLen.toNat < s.conf.maxlen.toNat)
    (hm : s.conf.maxlen.toNat ≤ p.lmax) (hc : child (s.mem.nodeAt s.decoder.cur) b p = none) :
    walkBit b s = .raise (.corrupt .noChild) (s.setDecoder (appendBit s.decoder b)) := by
  have ha : (s.decoder.accLen + 1).toNat = s.decoder.accLen.toNat + 1 := toNat_add_one (by have := p.lmax_le; omega)
  have : ¬ s.conf.maxlen.toNat < (appendBit s.decoder b).accLen.toNat := by rw [appendBit, ha]; omega
  have hc' : child (s.mem.nodeAt (appendBit s.decoder b).cur) b p = none := hc
  simp only [walkBit, State.setDecoder_conf, State.setDecoder_decoder, this, if_false, State.setDecoder_mem, hc']

/-- One bit too many (43_decoder.md R138, `TooLong`). -/
theorem walkBit_tooLong {b : Bool} {s : State p} (hl : s.conf.maxlen.toNat = s.decoder.accLen.toNat)
    (hm : s.conf.maxlen.toNat ≤ p.lmax) :
    walkBit b s = .raise (.corrupt .tooLong) (s.setDecoder (appendBit s.decoder b)) := by
  have ha : (s.decoder.accLen + 1).toNat = s.decoder.accLen.toNat + 1 := toNat_add_one (by have := p.lmax_le; omega)
  have : s.conf.maxlen.toNat < (appendBit s.decoder b).accLen.toNat := by rw [appendBit, ha]; omega
  simp only [walkBit, State.setDecoder_conf, State.setDecoder_decoder, this, if_true]

/-- A bit string that spells a path takes the walk along it: at a Leaf the symbol is emitted, else the walk goes on from
where the path ends (43_decoder.md R136, R138). -/
theorem walkLoop_path {s : State p} {b : Bool} {c rest : List Bool} {n : NodeIdx p} (k : Nat) (h8 : s.reader.rcnt.toNat ≤ 8)
    (ha : ∀ a ∈ s.env.sourceReadAns, a = PortAnswer.ok) (hm : s.conf.maxlen.toNat ≤ p.lmax)
    (hl : s.decoder.accLen.toNat + (b :: c).length ≤ s.conf.maxlen.toNat)
    (hb : bitsToCome s = b :: c ++ rest) (hp : path s.mem s.decoder.cur (b :: c) = some n) :
    ∃ t, Took s t (b :: c) ∧
      walkLoop (k + (b :: c).length) s =
        if isLeaf (s.mem.nodeAt n) then emitSymbol (symOf (s.mem.nodeAt n) p) (t.setDecoder (walked s.decoder (b :: c) n))
        else walkLoop k (t.setDecoder (walked s.decoder (b :: c) n)) := by
  induction c generalizing s b with
  | nil =>
    obtain ⟨t, ht, hk⟩ := readBit_took h8 ha hb
    rw [path] at hp
    split at hp
    · cases hp
    · split at hp
      · cases hp
      · next hn c hc =>
        obtain rfl : c = n := by simpa [path] using hp
        have hw : walkBit b t = _ := walkBit_moves (c := c) (by rw [hk.decoder, hk.conf]; simp at hl; omega)
          (by rw [hk.conf]; exact hm) (by rw [hk.mem, hk.decoder]; exact hc)
        refine ⟨t, hk, ?_⟩
        simp only [List.length_singleton, walkLoop, ht, Run.bind_done, hw, hk.mem, hk.decoder]
        rfl
  | cons b' c ih =>
    obtain ⟨t, ht, hk⟩ := readBit_took h8 ha hb
    rw [path] at hp
    split at hp
    · cases hp
    · split at hp
      · cases hp
      · next hn c' hc =>
        have hw : walkBit b t = _ := walkBit_moves (c := c') (by rw [hk.decoder, hk.conf]; simp at hl; omega)
          (by rw [hk.conf]; exact hm) (by rw [hk.mem, hk.decoder]; exact hc)
        have hleaf : isLeaf (s.mem.nodeAt c') = false := by
          rw [path] at hp; split at hp <;> simp_all
        have hcome := hk.come
        rw [hb, List.cons_append] at hcome
        have hlen : (appendBit s.decoder b).accLen.toNat = s.decoder.accLen.toNat + 1 :=
          toNat_add_one (by have := p.lmax_le; simp at hl; omega)
        obtain ⟨u, hu, hv⟩ := ih (s := t.setDecoder { appendBit s.decoder b with cur := c' }) (b := b') hk.rcnt hk.answers
          (by rw [State.setDecoder_conf, hk.conf]; exact hm)
          (by rw [State.setDecoder_decoder, State.setDecoder_conf, hk.conf]; simp at hl ⊢; omega)
          (by show bitsToCome t = _; simpa using hcome.symm)
          (by rw [State.setDecoder_mem, hk.mem]; exact hp)
        refine ⟨u.setDecoder s.decoder, hk.trans_setDecoder hu, ?_⟩
        rw [show k + (b :: b' :: c).length = (k + (b' :: c).length) + 1 from rfl]
        simp only [walkLoop, ht, Run.bind_done, hw, hk.mem, hleaf]
        simp only [hk.decoder] at hv ⊢
        rw [State.setDecoder_setDecoder, if_neg (by simp), hv]
        simp only [State.setDecoder_decoder, State.setDecoder_mem, hk.mem]
        rw [walked_cons]

/-- The state in which the walk asks the source for another byte, after the bits held and those of `pulled` have led it to `n`
(43_decoder.md R136, R138; 41_bitreader.md R102). -/
def pulledState (s : State p) (pulled more : List Byte) (ans : List PortAnswer) (n : NodeIdx p) : State p :=
  { s with
    reader := { s.reader with
      rbuf := pulled.getLastD s.reader.rbuf, rcnt := 0#4
      rbits := s.reader.rbits + BitVec.ofNat p.cntW (unreadBits s.reader ++ unpack pulled).length
      rbytes := s.reader.rbytes + BitVec.ofNat p.cntW pulled.length }
    decoder := walked s.decoder (unreadBits s.reader ++ unpack pulled) n
    env := { s.env with
      source := more, sourceReadAns := ans, calls := s.env.calls ++ List.replicate pulled.length .sourceRead } }

/-- What a bit read leaves of the bytes the walk is to pull: `pulled'` in place of `pulled`. -/
structure PullsOn (s u : State p) (b : Bool) (pulled pulled' more : List Byte) (ans : List PortAnswer) (n : NodeIdx p) : Prop where
  decoder : u.decoder = s.decoder
  mem : u.mem = s.mem
  conf : u.conf = s.conf
  rcnt : u.reader.rcnt.toNat ≤ 8
  reof : u.reader.reof = false
  source : u.env.source = pulled' ++ more
  answers : u.env.sourceReadAns = List.replicate pulled'.length .ok ++ ans
  state : ∀ c, pulledState (u.setDecoder { appendBit u.decoder b with cur := c }) pulled' more ans n =
    pulledState s pulled more ans n

/-- A bit read while bits are held or a byte of `pulled` is to come. -/
theorem readBit_pulled {s : State p} {pulled more : List Byte} {ans : List PortAnswer} {n : NodeIdx p}
    (h8 : s.reader.rcnt.toNat ≤ 8) (he : s.reader.reof = false) (hs : s.env.source = pulled ++ more)
    (ha : s.env.sourceReadAns = List.replicate pulled.length .ok ++ ans)
    (hN : 0 < (unreadBits s.reader ++ unpack pulled).length) :
    ∃ b u pulled', readBit s = .done (.bit b) u ∧
      unreadBits s.reader ++ unpack pulled = b :: (unreadBits u.reader ++ unpack pulled') ∧
      PullsOn s u b pulled pulled' more ans n := by
  have h1 : ∀ k, BitVec.ofNat p.cntW (k + 1) = 1 + BitVec.ofNat p.cntW k := fun k => by
    rw [Nat.add_comm, BitVec.ofNat_add]; rfl
  by_cases h0 : s.reader.rcnt = 0#4
  · cases pulled with
    | nil => simp [unreadBits_nil h0] at hN
    | cons y ys =>
      have hb : unreadBits s.reader ++ unpack (y :: ys) =
          nextBit (bytePulled s.reader y) :: (unreadBits (bitDelivered (bytePulled s.reader y)) ++ unpack ys) := by
        rw [unreadBits_nil h0, unpack_cons, ← unreadBits_bytePulled s.reader y,
          unreadBits_cons (by simp [bytePulled]) (by simp [bytePulled])]
        rfl
      have hr : readBit s = .done (.bit (nextBit (bytePulled s.reader y))) ((s.setReader
          (bitDelivered (bytePulled s.reader y))).setEnv { s.env with
            source := ys ++ more, sourceReadAns := s.env.sourceReadAns.tail, calls := s.env.calls ++ [.sourceRead] }) := by
        simp only [readBit, h0, he, if_true]
        rw [sourceRead_byte (by rw [ha]; rfl) hs]; rfl
      refine ⟨_, _, ys, hr, hb, rfl, rfl, rfl, ?_, he, rfl, ?_, fun c => ?_⟩
      · show (8#4 - 1#4).toNat ≤ 8; decide
      · show (List.tail s.env.sourceReadAns) = _; rw [ha]; rfl
      · simp only [pulledState, State.setDecoder, State.setReader, State.setEnv, hb, walked_cons, List.length_cons, h1,
          List.getLastD_cons]
        simp [bitDelivered, bytePulled, BitVec.add_assoc, List.replicate_succ]
  · have hb : unreadBits s.reader ++ unpack pulled =
        nextBit s.reader :: (unreadBits (bitDelivered s.reader) ++ unpack pulled) := by
      rw [unreadBits_cons h0 h8]; rfl
    refine ⟨_, _, pulled, readBit_held h0, hb, rfl, rfl, rfl, ?_, he, hs, ha, fun c => ?_⟩
    · rw [State.setReader_reader, rcnt_delivered h0]; omega
    · simp only [pulledState, State.setDecoder, State.setReader, hb, walked_cons, List.length_cons, h1]
      simp [bitDelivered, BitVec.add_assoc]

/-- One round of the walk that delivers a bit and moves to an Internal node. -/
theorem walkLoop_step {s u : State p} {b : Bool} {c : NodeIdx p} (k : Nat) (hr : readBit s = .done (.bit b) u)
    (hw : walkBit b u = .done (u.mem.nodeAt c) (u.setDecoder { appendBit u.decoder b with cur := c }))
    (hc : isLeaf (u.mem.nodeAt c) = false) :
    walkLoop (k + 1) s = walkLoop k (u.setDecoder { appendBit u.decoder b with cur := c }) := by
  simp [walkLoop, hr, hw, hc]

/-- The bits held and those of any bytes the source gives, when they spell a path to an Internal node within `MAXLEN`, take the
walk along it to where it asks the source again (43_decoder.md R136, R138). -/
theorem walkLoop_pulled {s : State p} {pulled more : List Byte} {ans : List PortAnswer} {n : NodeIdx p} (k : Nat)
    (h8 : s.reader.rcnt.toNat ≤ 8) (he : s.reader.reof = false) (hs : s.env.source = pulled ++ more)
    (ha : s.env.sourceReadAns = List.replicate pulled.length .ok ++ ans) (hm : s.conf.maxlen.toNat ≤ p.lmax)
    (hl : s.decoder.accLen.toNat + (unreadBits s.reader ++ unpack pulled).length ≤ s.conf.maxlen.toNat)
    (hp : path s.mem s.decoder.cur (unreadBits s.reader ++ unpack pulled) = some n)
    (hn : isLeaf (s.mem.nodeAt n) = false) :
    walkLoop (k + (unreadBits s.reader ++ unpack pulled).length) s = walkLoop k (pulledState s pulled more ans n) := by
  generalize hN : (unreadBits s.reader ++ unpack pulled).length = N at hl ⊢
  induction N generalizing s pulled with
  | zero =>
    have h0 : s.reader.rcnt = 0#4 := by
      have : s.reader.rcnt.toNat = 0 := by simp at hN; omega
      exact BitVec.eq_of_toNat_eq this
    obtain rfl : pulled = [] := by
      cases pulled with
      | nil => rfl
      | cons y ys => simp at hN
    have hcur : s.decoder.cur = n := by simpa [unreadBits_nil h0, path] using hp
    have : pulledState s [] more ans n = s := by
      have hs' : more = s.env.source := by simpa using hs.symm
      have ha' : ans = s.env.sourceReadAns := by simpa using ha.symm
      apply State.ext_parts <;> simp [pulledState, unreadBits_nil h0, walked, ← hcur, ← h0, hs', ha']
    rw [this, Nat.add_zero]
  | succ N ih =>
    obtain ⟨b, u, pulled', hr, hb, hu⟩ := readBit_pulled (n := n) h8 he hs ha (by omega)
    rw [hb, path] at hp
    split at hp
    · cases hp
    · split at hp
      · cases hp
      · next c hc =>
        have hlen : (appendBit s.decoder b).accLen.toNat = s.decoder.accLen.toNat + 1 :=
          toNat_add_one (by have := p.lmax_le; omega)
        have hw : walkBit b u = _ := walkBit_moves (c := c) (by rw [hu.decoder, hu.conf]; omega) (by rw [hu.conf]; exact hm)
          (by rw [hu.mem, hu.decoder]; exact hc)
        have hleaf : isLeaf (u.mem.nodeAt c) = false := by
          rw [hu.mem]
          cases hd : unreadBits u.reader ++ unpack pulled' with
          | nil => rw [hd] at hp; obtain rfl : c = n := by simpa [path] using hp
                   exact hn
          | cons b' d => rw [hd, path] at hp; split at hp <;> simp_all
        rw [← Nat.add_assoc, walkLoop_step _ hr hw hleaf, ih (s := u.setDecoder { appendBit u.decoder b with cur := c })
          (pulled := pulled') hu.rcnt hu.reof hu.source hu.answers (by rw [State.setDecoder_conf, hu.conf]; exact hm)
          (by rw [State.setDecoder_mem, hu.mem, State.setDecoder_decoder]; exact hp)
          (by rw [State.setDecoder_mem, hu.mem]; exact hn)
          (by have := congrArg List.length hb; rw [hN, List.length_cons] at this; exact (Nat.succ.inj this).symm)
          (by
            rw [State.setDecoder_decoder, State.setDecoder_conf, hu.decoder, hu.conf]
            show (appendBit s.decoder b).accLen.toNat + N ≤ _
            omega), hu.state c]

end Sys2Proof.Machine
end

