-- ==== Sys2Proof/Laws/Writer.lean ====
section
/-!
SUPPORT. What the writer's sub-steps do while the sink accepts every byte: `Wrote s t bits` says that going from `s` to `t`
exactly `bits` were accepted (spec/40_bitwriter.md R82, R84, R85).
-/
namespace Sys2Proof.Machine

variable {p : Params}

/-- From `s` to `t` the writer has accepted `bits` and nothing else has happened: the bytes handed to the sink and the bits
then held are the bits held before and `bits` (40_bitwriter.md R85). -/
structure Wrote (s t : State p) (bits : List Bool) : Prop where
  frame : hideWriter t = hideWriter s
  wopenf : t.writer.wopenf = s.writer.wopenf
  wleave : t.writer.wleave = s.writer.wleave
  low : t.writer.wbuf <<< t.writer.wcnt.toNat = 0#8
  wbits : t.writer.wbits = s.writer.wbits + BitVec.ofNat p.cntW bits.length
  answers : ∀ a ∈ t.env.sinkWriteAns, a = PortAnswer.ok
  released : t.env.sinkReleased = s.env.sinkReleased
  releaseAns : t.env.sinkReleaseAns = s.env.sinkReleaseAns
  out : ∃ out, t.env.sink = s.env.sink ++ out ∧ unpack out ++ heldBits t.writer = heldBits s.writer ++ bits ∧
    t.writer.wbytes = s.writer.wbytes + BitVec.ofNat p.cntW out.length

theorem Wrote.refl {s : State p} (hz : s.writer.wbuf <<< s.writer.wcnt.toNat = 0#8)
    (ha : ∀ a ∈ s.env.sinkWriteAns, a = PortAnswer.ok) : Wrote s s [] :=
  ⟨rfl, rfl, rfl, hz, by simp, ha, rfl, rfl, [], by simp⟩

theorem Wrote.trans {s t u : State p} {xs ys : List Bool} (h : Wrote s t xs) (k : Wrote t u ys) : Wrote s u (xs ++ ys) := by
  obtain ⟨out, ho, hb, hw⟩ := h.out
  obtain ⟨out', ho', hb', hw'⟩ := k.out
  refine ⟨k.frame.trans h.frame, k.wopenf.trans h.wopenf, k.wleave.trans h.wleave, k.low, ?_, k.answers,
    k.released.trans h.released, k.releaseAns.trans h.releaseAns, out ++ out', ?_, ?_, ?_⟩
  · rw [k.wbits, h.wbits, List.length_append, BitVec.ofNat_add, BitVec.add_assoc]
  · rw [ho', ho, List.append_assoc]
  · rw [unpack_append, List.append_assoc, hb', ← List.append_assoc, hb, List.append_assoc]
  · rw [hw', hw, List.length_append, BitVec.ofNat_add, BitVec.add_assoc]

/-- One bit, the sink accepting every byte (40_bitwriter.md R82). -/
theorem writeBit_wrote {b : Bool} {s : State p} (hz : s.writer.wbuf <<< s.writer.wcnt.toNat = 0#8)
    (ha : ∀ a ∈ s.env.sinkWriteAns, a = PortAnswer.ok) : ∃ t, writeBit b s = .done () t ∧ Wrote s t [b] := by
  by_cases h7 : s.writer.wcnt = 7#3
  · refine ⟨_, by simp only [writeBit, h7, if_true]; rw [sinkWrite_ok (by simpa using nextAnswer_ok ha)]; rfl, ?_⟩
    refine ⟨by simp [hideWriter, State.setWriter, State.setEnv], rfl, rfl, by simp, by simp, ?_, rfl, rfl,
      [placeBit s.writer b], by simp, ?_, by simp⟩
    · exact tail_ok ha
    · rw [heldBits_nil (by simp), unpack_cons, byteBits_place b hz h7]; simp
  · refine ⟨_, by simp only [writeBit, h7, if_false]; rfl, ?_⟩
    refine ⟨by simp [hideWriter, State.setWriter], rfl, rfl, place_low_zero b hz h7, by simp, ha, rfl, rfl,
      [], by simp, by simpa using heldBits_place b hz h7, by simp⟩

/-- The low `n` bits of a value, the most significant first (40_bitwriter.md R83, 42_encoder.md R123). -/
theorem writeBits_wrote {w : Nat} {raw : BitVec w} {n : Nat} {s : State p} (hz : s.writer.wbuf <<< s.writer.wcnt.toNat = 0#8)
    (ha : ∀ a ∈ s.env.sinkWriteAns, a = PortAnswer.ok) :
    ∃ t, writeBits raw n s = .done () t ∧ Wrote s t (codeBits raw n) := by
  induction n generalizing s with
  | zero => exact ⟨s, rfl, Wrote.refl hz ha⟩
  | succ n ih =>
    obtain ⟨t, ht, hw⟩ := writeBit_wrote (b := raw.getLsbD n) hz ha
    obtain ⟨u, hu, hv⟩ := ih hw.low hw.answers
    exact ⟨u, by rw [writeBits, ht, Run.bind_done, hu], by rw [codeBits_succ]; exact hw.trans hv⟩

/-- One bit short of a byte: no port is called (40_bitwriter.md R82 case a). -/
theorem writeBit_short {b : Bool} {s : State p} (h7 : s.writer.wcnt ≠ 7#3) :
    writeBit b s = .done () (s.setWriter { s.writer with
      wbuf := placeBit s.writer b, wcnt := s.writer.wcnt + 1, wbits := s.writer.wbits + 1 }) := by
  simp [writeBit, h7]

/-- The eighth bit, the sink accepting the byte (40_bitwriter.md R82 case b). -/
theorem writeBit_full {b : Bool} {s : State p} (h7 : s.writer.wcnt = 7#3) (ha : nextAnswer s.env.sinkWriteAns = .ok) :
    writeBit b s = .done () ((s.setWriter { s.writer with
      wbuf := 0#8, wcnt := 0#3, wbits := s.writer.wbits + 1, wbytes := s.writer.wbytes + 1 }).setEnv { s.env with
        sink := s.env.sink ++ [placeBit s.writer b], sinkWriteAns := s.env.sinkWriteAns.tail
        calls := s.env.calls ++ [.sinkWrite (placeBit s.writer b)] }) := by
  simp only [writeBit, h7, if_true]
  rw [sinkWrite_ok (by simpa using ha)]; rfl

/-- The eighth bit, the sink failing: the byte is lost, the bit counted (40_bitwriter.md R82 case c). -/
theorem writeBit_ioError {b : Bool} {s : State p} {e : Word} (h7 : s.writer.wcnt = 7#3)
    (ha : nextAnswer s.env.sinkWriteAns = .ioError e) :
    writeBit b s = .raise (.io .sinkWrite e) ((s.setWriter { s.writer with
      wbuf := 0#8, wcnt := 0#3, wbits := s.writer.wbits + 1 }).setEnv { s.env with
        sinkWriteAns := s.env.sinkWriteAns.tail, calls := s.env.calls ++ [.sinkWrite (placeBit s.writer b)] }) := by
  simp only [writeBit, h7, if_true]
  rw [sinkWrite_ioError (by simpa using ha)]; rfl

theorem writeBit_never {b : Bool} {s : State p} (h7 : s.writer.wcnt = 7#3) (ha : nextAnswer s.env.sinkWriteAns = .never) :
    writeBit b s = .never .sinkWrite := by
  simp only [writeBit, h7, if_true]
  rw [sinkWrite_never (by simpa using ha)]; rfl

theorem toNat_add_one_wcnt {c : BitVec 3} (h7 : c ≠ 7#3) : (c + 1).toNat = c.toNat + 1 := by
  revert c; decide

/-- The low `n` bits of a value when the sink never answers the `j`-th byte they complete, counted from 0. -/
theorem writeBits_never {w : Nat} {raw : BitVec w} {n j : Nat} {s : State p} {later : List PortAnswer}
    (ha : s.env.sinkWriteAns = List.replicate j .ok ++ .never :: later) (hj : j < (s.writer.wcnt.toNat + n) / 8) :
    writeBits raw n s = .never .sinkWrite := by
  induction n generalizing s j with
  | zero => have := s.writer.wcnt.isLt; omega
  | succ n ih =>
    by_cases h7 : s.writer.wcnt = 7#3
    · cases j with
      | zero => rw [writeBits, writeBit_never h7 (by rw [ha]; rfl)]; rfl
      | succ j =>
        rw [writeBits, writeBit_full h7 (by rw [ha]; rfl), Run.bind_done]
        exact ih (j := j) (by rw [State.setEnv_env, ha]; rfl) (by
          rw [h7] at hj; simp at hj ⊢; omega)
    · rw [writeBits, writeBit_short h7, Run.bind_done]
      exact ih ha (by rw [State.setWriter_writer, toNat_add_one_wcnt h7]; omega)

/-- The low `n` bits of a value when the sink fails at the `j`-th byte they complete, counted from 0: the bytes before it are in
the sink, the bits up to and with it are counted and lost, the rest is not written (40_bitwriter.md R82, 42_encoder.md R121). -/
theorem writeBits_ioError {w : Nat} {raw : BitVec w} {n j : Nat} {s : State p} {e : Word} {later : List PortAnswer}
    (hz : s.writer.wbuf <<< s.writer.wcnt.toNat = 0#8)
    (ha : s.env.sinkWriteAns = List.replicate j .ok ++ .ioError e :: later) (hj : j < (s.writer.wcnt.toNat + n) / 8) :
    writeBits raw n s = .raise (.io .sinkWrite e) ((s.setWriter { s.writer with
      wbuf := 0#8, wcnt := 0#3
      wbits := s.writer.wbits + BitVec.ofNat p.cntW (8 * (j + 1) - s.writer.wcnt.toNat)
      wbytes := s.writer.wbytes + BitVec.ofNat p.cntW j }).setEnv { s.env with
        sink := s.env.sink ++ (pack ((heldBits s.writer ++ codeBits raw n).take (8 * (j + 1)))).take j
        sinkWriteAns := later
        calls := s.env.calls ++ (pack ((heldBits s.writer ++ codeBits raw n).take (8 * (j + 1)))).map .sinkWrite }) := by
  induction n generalizing s j with
  | zero => have := s.writer.wcnt.isLt; omega
  | succ n ih =>
    by_cases h7 : s.writer.wcnt = 7#3
    · have hl : (heldBits s.writer).length = 7 := by rw [heldBits_length, h7]; rfl
      have hp : ∀ k, pack ((heldBits s.writer ++ codeBits raw (n + 1)).take (8 * (k + 1))) =
          placeBit s.writer (raw.getLsbD n) :: pack ((codeBits raw n).take (8 * k)) := by
        intro k
        rw [codeBits_succ, List.append_cons, ← byteBits_place _ hz h7, List.take_append, List.take_of_length_le (by simp),
          byteBits_length, show 8 * (k + 1) - 8 = 8 * k by omega, pack_byteBits]
      cases j with
      | zero =>
        rw [writeBits, writeBit_ioError h7 (by rw [ha]; rfl), Run.bind_raise, hp, ha, h7]
        simp
      | succ j =>
        rw [writeBits, writeBit_full h7 (by rw [ha]; rfl), Run.bind_done,
          ih (j := j) (by simp) (by rw [State.setEnv_env, ha]; rfl) (by rw [h7] at hj; simp at hj ⊢; omega), hp]
        have h1 : BitVec.ofNat p.cntW (8 * (j + 1 + 1) - 7) = 1 + BitVec.ofNat p.cntW (8 * (j + 1)) := by
          rw [show 8 * (j + 1 + 1) - 7 = 1 + 8 * (j + 1) by omega, BitVec.ofNat_add]; rfl
        have h2 : BitVec.ofNat p.cntW (j + 1) = 1 + BitVec.ofNat p.cntW j := by
          rw [Nat.add_comm j 1, BitVec.ofNat_add]; rfl
        simp [h7, h1, h2, BitVec.add_assoc, heldBits_nil, State.setWriter, State.setEnv]
    · have hlt : s.writer.wcnt.toNat < 7 := by
        have := s.writer.wcnt.isLt
        have : s.writer.wcnt.toNat ≠ 7 := fun h => h7 (BitVec.eq_of_toNat_eq h)
        omega
      have hh := heldBits_place (raw.getLsbD n) hz h7
      rw [writeBits, writeBit_short h7, Run.bind_done,
        ih (s := s.setWriter { s.writer with
          wbuf := placeBit s.writer (raw.getLsbD n), wcnt := s.writer.wcnt + 1, wbits := s.writer.wbits + 1 })
        (j := j) (place_low_zero _ hz h7) ha (by rw [State.setWriter_writer, toNat_add_one_wcnt h7]; omega)]
      have h1 : BitVec.ofNat p.cntW (8 * (j + 1) - s.writer.wcnt.toNat) =
          1 + BitVec.ofNat p.cntW (8 * (j + 1) - (s.writer.wcnt.toNat + 1)) := by
        rw [show 8 * (j + 1) - s.writer.wcnt.toNat = 1 + (8 * (j + 1) - (s.writer.wcnt.toNat + 1)) by omega, BitVec.ofNat_add]
        rfl
      simp only [State.setWriter_writer, State.setWriter_env, hh, toNat_add_one_wcnt h7, h1, BitVec.add_assoc,
        State.setWriter_setWriter, codeBits_succ, List.append_assoc, List.singleton_append]

/-- A present symbol with a good length: its code (42_encoder.md R121). -/
theorem encodeSymbol_wrote {x : Sym p} {s : State p} (hg : GoodEntry (s.mem.codeAt x))
    (hz : s.writer.wbuf <<< s.writer.wcnt.toNat = 0#8) (ha : ∀ a ∈ s.env.sinkWriteAns, a = PortAnswer.ok) :
    ∃ t, encodeSymbol x s = .done () t ∧ Wrote s t (codeBits (s.mem.codeAt x).raw (s.mem.codeAt x).len.toNat) := by
  have hb : badCodeLen (s.mem.codeAt x) = false := by
    have := hg.2.1; have := hg.2.2
    simp [badCodeLen]; omega
  simp only [encodeSymbol, hg.1, hb]
  exact writeBits_wrote hz ha

/-- The close, the sink answering without error: the held bits go out packed, the writer is closed, the sink released unless
`WLEAVE` (40_bitwriter.md R84). -/
theorem closeWriter_ok {s : State p} (hz : s.writer.wbuf <<< s.writer.wcnt.toNat = 0#8)
    (ha : SinkErrorFree s.env) :
    ∃ t, closeWriter s = .done () t ∧ hideWriter t = hideWriter s ∧
      t.env.sink = s.env.sink ++ pack (heldBits s.writer) ∧
      t.env.sinkReleased = (s.env.sinkReleased || !s.writer.wleave) ∧
      t.writer = { s.writer with
        wbuf := 0#8, wcnt := 0#3, wopenf := false
        wbytes := s.writer.wbytes + BitVec.ofNat p.cntW (pack (heldBits s.writer)).length } := by
  have hw := nextAnswer_ok ha.1
  have hr := nextAnswer_ok ha.2
  rw [pack_heldBits hz]
  by_cases h0 : s.writer.wcnt = 0#3 <;> by_cases hl : s.writer.wleave
  · have hb : s.writer.wbuf = 0#8 := by simpa [h0] using hz
    refine ⟨_, by simp only [closeWriter, flushPartial, h0, if_true, Run.bind_done, releaseSink, hl]; rfl, ?_⟩
    simp [hideWriter, State.setWriter, hl, h0, hb]
  · have hb : s.writer.wbuf = 0#8 := by simpa [h0] using hz
    refine ⟨_, by
      simp only [closeWriter, flushPartial, h0, if_true, Run.bind_done, releaseSink, hl]
      rw [sinkRelease_ok hr]; rfl, ?_⟩
    simp [hideWriter, State.setWriter, State.setEnv, hl, h0, hb]
  · refine ⟨_, by
      simp only [closeWriter, flushPartial, h0, if_false]
      rw [sinkWrite_ok (by simpa using hw)]
      simp only [Run.bind_done, releaseSink, State.setWriter_writer, State.setEnv_writer, hl, if_true]; rfl, ?_⟩
    simp [hideWriter, State.setWriter, State.setEnv, hl, h0]
  · refine ⟨_, by
      simp only [closeWriter, flushPartial, h0, if_false]
      rw [sinkWrite_ok (by simpa using hw)]
      simp only [Run.bind_done, releaseSink, State.setWriter_writer, State.setEnv_writer, hl]
      rw [sinkRelease_ok (by simpa using hr)]; rfl, ?_⟩
    simp [hideWriter, State.setWriter, State.setEnv, hl, h0]

end Sys2Proof.Machine
end

