-- ==== Sys2Proof/Tests/Slice0.lean ====
section
/-!
SUPPORT. Tests: words written out from spec/30_encoding.md, single steps with results taken from the examples of the rules
and from spec/95_test_vectors.md, and for every statement with hypotheses a state that meets them.
-/
namespace Sys2Proof.Tests
open Sys2Proof.Machine

/-! ## Well-formedness: an ill-formed word for each check (30_encoding.md R60, R61, R63) -/

theorem test_wf_accepts : CmdFields.wf { z1 := 0#16, op := 0x3#4, z0 := 0#4, arg := 0xA5#8 } = true := by decide
theorem test_wf_opLegal : CmdFields.wf { z1 := 0#16, op := 0xD#4, z0 := 0#4, arg := 0#8 } = false := by decide
theorem test_wf_z1Zero : CmdFields.wf { z1 := 0x8000#16, op := 0x6#4, z0 := 0#4, arg := 0#8 } = false := by decide
theorem test_wf_z0Zero : CmdFields.wf { z1 := 0#16, op := 0x9#4, z0 := 0x1#4, arg := 0x41#8 } = false := by decide
theorem test_wf_argOk_none : CmdFields.wf { z1 := 0#16, op := 0x4#4, z0 := 0#4, arg := 0x01#8 } = false := by decide
theorem test_wf_argOk_flag : CmdFields.wf { z1 := 0#16, op := 0x2#4, z0 := 0#4, arg := 0x02#8 } = false := by decide
theorem test_mbz_byte_sym : ArgUse.byte.mbzOk 8 0xFF#8 = true ∧ ArgUse.sym.mbzOk 8 0xFF#8 = true ∧
    ArgUse.sym.mbzOk 4 0x0F#8 = true ∧ ArgUse.sym.mbzOk 4 0x10#8 = false := by decide

/-! ## Decoding: Z1 (16 bits), OP (4), Z0 (4), ARG (8), written bit by bit (30_encoding.md R60, R62) -/

theorem test_decode_wopen : decodeWord 0b0000000000000000_0001_0000_00000001#32 = .ok (.wopen true) := by decide
theorem test_decode_wbit : decodeWord 0b0000000000000000_0010_0000_00000000#32 = .ok (.wbit false) := by decide
theorem test_decode_wbyte : decodeWord 0b0000000000000000_0011_0000_10100101#32 = .ok (.wbyte 0xA5#8) := by decide
theorem test_decode_wclose : decodeWord 0b0000000000000000_0100_0000_00000000#32 = .ok .wclose := by decide
theorem test_decode_ropen : decodeWord 0b0000000000000000_0101_0000_00000000#32 = .ok (.ropen false) := by decide
theorem test_decode_rbit : decodeWord 0b0000000000000000_0110_0000_00000000#32 = .ok .rbit := by decide
theorem test_decode_rbyte : decodeWord 0b0000000000000000_0111_0000_00000000#32 = .ok .rbyte := by decide
theorem test_decode_rclose : decodeWord 0b0000000000000000_1000_0000_00000000#32 = .ok .rclose := by decide
theorem test_decode_encsym : decodeWord 0b0000000000000000_1001_0000_01000001#32 = .ok (.encsym 0x41#8) := by decide
theorem test_decode_encode : decodeWord 0b0000000000000000_1010_0000_00000000#32 = .ok .encode := by decide
theorem test_decode_decsym : decodeWord 0b0000000000000000_1011_0000_00000000#32 = .ok .decsym := by decide
theorem test_decode_decode : decodeWord 0b0000000000000000_1100_0000_00000000#32 = .ok .decode := by decide
theorem test_decode_all_zero : decodeWord 0#32 = .error .rsvdOp := by decide
theorem test_decode_rsvd_op_before_bits : decodeWord 0xFFFFFFFF#32 = .error .rsvdOp := by decide
theorem test_decode_wide_bits : decodeWord 0x80004000#32 = .error .rsvdBits := by decide
theorem test_table_word : decodeTableWord 32 0x00009041 = some (.encsym 0x41#8) := by decide
theorem test_table_word_short : decodeTableWord 16 0x3000 = some (.wbyte 0x00#8) := by decide

/-! ## Small states -/

/-- A closed unit but for an open writer with this partial byte. -/
def writing (wbuf : Byte) (wcnt : BitVec 3) : State :=
  { State.reset with writer := { Writer.atReset with wbuf := wbuf, wcnt := wcnt, wopenf := true } }

/-- A closed unit but for an open reader with these bits held, the source to give these bytes. -/
def reading (rbuf : Byte) (rcnt : BitVec 4) (source : List Byte) : State :=
  { State.reset with
    reader := { Reader.atReset with rbuf := rbuf, rcnt := rcnt, ropenf := true }
    env := { Env.atReset with source := source } }

/-- `.int 0, 1, 2`, `.leaf 1, 'A'`, `.leaf 2, 'B'`; A is 0, B is 1 (43_decoder.md R138, example). -/
def twoLeaves : Memory .default :=
  { node := [(0, 0x02020201#32), (1, 0x80000041#32), (2, 0x80000042#32)]
    ct := [(0x41, { valid := true, len := 1#6, rawWord := 0#32 }), (0x42, { valid := true, len := 1#6, rawWord := 1#32 })] }

/-- `.int 0, 1, -`, `.leaf 1, 'A'` (43_decoder.md R144). -/
def oneLeaf : Memory .default :=
  { node := [(0, 0x00000201#32), (1, 0x80000041#32)], ct := [(0x41, { valid := true, len := 1#6, rawWord := 0#32 })] }

/-- `.int 0, 1, 2`, `.leaf 1, 'A'`, `.int 2, 3, 4`, `.leaf 3, 'B'`, node 4 not written. -/
def threeDeep : Memory .default :=
  { node := [(0, 0x02020201#32), (1, 0x80000041#32), (2, 0x02040203#32), (3, 0x80000042#32)], ct := [] }

/-- Node 0 is its own left child, so zeros stay there; its right child is a Leaf (43_decoder.md R141: any contents of the store). -/
def zerosLoop : Memory .default := { node := [(0, 0x02010200#32), (1, 0x80000041#32)], ct := [] }

/-- A build that shrinks every parameter (00_scope.md R5, 20_memory.md R42). -/
abbrev smallBuild : Params where
  symW := 4
  lmax := 12
  nNodes := 32
  nidxW := 5
  cntW := 16
  busW := 32
  symW_le := by decide
  lmax_le := by decide
  nNodes_eq := by decide
  nidxW_le := by decide
  cntW_le := by decide
  busW_eq := by decide

/-- A state with a tree, a table and a greatest length. -/
def configured (m : Memory .default) (maxlen : CodeLen) (s : State) : State :=
  { s with mem := m, conf := { s.conf with maxlen := maxlen } }

/-- A state with an environment's answers to the sink's calls. -/
def sinkAnswers (w r : List PortAnswer) (s : State) : State :=
  { s with env := { s.env with sinkWriteAns := w, sinkReleaseAns := r } }

/-- A state with an environment's answers to the source's calls. -/
def sourceAnswers (rd rl : List PortAnswer) (s : State) : State :=
  { s with env := { s.env with sourceReadAns := rd, sourceReleaseAns := rl } }

/-- What is seen of the next state, if there is one. -/
def seen {α : Type} (f : State → α) : Host.Outcome State Fault Refusal → Option α
  | .next s => some (f s)
  | _ => none

/-! ## One step of each command -/

theorem test_reset_idles : step State.reset = .next State.reset := rfl

/-- After reset, `WOPEN leave` gives `WSTATE` = 0x00000003 (R81). -/
theorem test_wopen : seen (busRead 0x0024) (step (State.reset.withFetchWord 32 0x00001001)) = some 0x00000003#32 := by decide

/-- After reset, `ROPEN` gives `RSTATE` = 0x00000001 (R101). -/
theorem test_ropen : seen (busRead 0x0030) (step (State.reset.withFetchWord 32 0x00005000)) = some 0x00000001#32 := by decide

/-- `WBIT 1`, `WBIT 0`, then `WBIT 1` gives `WBUF` = 0xA0, `WCNT` = 3 (R82). -/
theorem test_wbit_third : seen (fun s => (s.writer.wbuf, s.writer.wcnt)) (exec (.wbit true) (writing 0x80#8 2#3)) =
    some (0xA0#8, 3#3) := by decide

/-- The eighth bit emits the byte and empties the buffer (R82). -/
theorem test_wbit_eighth : seen (fun s => (s.env.sink, s.writer.wbuf, s.writer.wcnt, s.writer.wbytes))
    (exec (.wbit true) (writing 0x54#8 7#3)) = some ([0x55#8], 0#8, 0#3, 1#32) := by decide

/-- `WCNT` = 3, `WBUF` = 0xA0: `WBYTE 0xFF` emits 0xBF and leaves 0xE0, 3 (R83). -/
theorem test_wbyte : seen (fun s => (s.env.sink, s.writer.wbuf, s.writer.wcnt)) (exec (.wbyte 0xFF#8) (writing 0xA0#8 3#3)) =
    some ([0xBF#8], 0xE0#8, 3#3) := by decide

/-- `WBUF` = 0xA0, `WCNT` = 3, `WLEAVE` = 0: `SinkWrite(0xA0)`, `SinkRelease()`, then `WSTATE` = 0 (R84). -/
theorem test_wclose : seen (fun s => (s.env.calls, busRead 0x0024 s)) (exec .wclose (writing 0xA0#8 3#3)) =
    some ([.sinkWrite 0xA0#8, .sinkRelease], 0#32) := by decide

/-- Flush and release both fail: the first is reported, the writer ends closed (R84 case c). -/
theorem test_wclose_two_errors : seen (fun s => (s.regs.status, s.regs.ioinfo, s.writer.wopenf))
    (exec .wclose (sinkAnswers [.ioError 7#32] [.ioError 9#32] (writing 0x80#8 1#3))) =
    some (0x00000105#32, 7#32, false) := by decide

/-- The third `RBIT` of 0xA0 returns 1 and leaves `RCNT` = 5 (R102). -/
theorem test_rbit : seen (fun s => (s.regs.result, s.reader.rcnt)) (exec .rbit (reading 0xA0#8 6#4 [])) =
    some (1#32, 5#4) := by decide

/-- A bit is read from a new byte, bit 7 first (R102). -/
theorem test_rbit_pulls : seen (fun s => (s.regs.result, s.reader.rbuf, s.reader.rcnt, s.reader.rbytes))
    (exec .rbit (reading 0#8 0#4 [0xA0#8])) = some (1#32, 0xA0#8, 7#4, 1#32) := by decide

/-- Source 0xA5, 0x3C: after one `RBIT`, `RBYTE` returns 0x4A and leaves `RCNT` = 7 (R103). -/
theorem test_rbyte : seen (fun s => (s.regs.result, s.reader.rcnt)) (exec .rbyte (reading 0xA5#8 7#4 [0x3C#8])) =
    some (0x4A#32, 7#4) := by decide

/-- End-of-input inside `RBYTE` consumes the held bits and returns none (R103 case b). -/
theorem test_rbyte_short : seen (fun s => (s.regs.status, s.regs.result, s.reader.rbits, s.reader.reof))
    (exec .rbyte (reading 0xFF#8 3#4 [])) = some (0x00000020#32, 0#32, 3#32, true) := by decide

/-- `RSTATE` = 0x0000A051 becomes 0x0000A050 (R104). -/
theorem test_rclose : seen (fun s => (busRead 0x0030 s, s.env.sourceReleased)) (exec .rclose (reading 0xA0#8 5#4 [])) =
    some (0x0000A050#32, true) := by decide

/-- `CT['A']` = (2, 2), `WCNT` = 7, `WBUF` = 0x54: `ENCSYM 'A'` emits 0x55 and leaves 0x00, 1 (R121). -/
theorem test_encsym : seen (fun s => (s.env.sink, s.writer.wbuf, s.writer.wcnt))
    (exec (.encsym 0x41#8) { writing 0x54#8 7#3 with
      mem := { node := [], ct := [(0x41, { valid := true, len := 2#6, rawWord := 2#32 })] } }) =
    some ([0x55#8], 0#8, 1#3) := by decide

/-- An absent symbol (R121, R30). -/
theorem test_encsym_unknown : seen (fun s => (s.regs.status, s.regs.result, s.regs.faults))
    (exec (.encsym 0x5A#8) (writing 0#8 0#3)) = some (0x00000002#32, 0x5A#32, 0x004#32) := by decide

/-- `CT['A']` = (0, 1), input A, A, A: one byte 0x00, released, `WBITS` = 3, `WBYTES` = 1 (R122). -/
theorem test_encode : seen (fun s => (s.env.sink, s.env.sinkReleased, s.writer.wbits, s.writer.wbytes))
    (exec .encode { writing 0#8 0#3 with mem := oneLeaf, env := { Env.atReset with symIn := [0x41#8, 0x41#8, 0x41#8] } }) =
    some ([0x00#8], true, 3#32, 1#32) := by decide

/-- Source 0x40: the second `DECSYM` reads bit 1 and returns 'B' (R138). -/
theorem test_decsym : seen (fun s => (s.regs.result, s.env.symOut, s.reader.rcnt))
    (exec .decsym (configured twoLeaves 1#6 (reading 0x40#8 7#4 []))) = some (0x42#32, [0x42#8], 6#4) := by decide

/-- The single-symbol tree: a 1 bit selects nothing, and has been consumed (R144, R138 case c). -/
theorem test_decsym_noChild : seen (fun s => (s.regs.status, s.reader.rcnt, s.decoder.accRaw, s.decoder.accLen))
    (exec .decsym (configured oneLeaf 1#6 (reading 0x80#8 8#4 []))) = some (0x00000303#32, 7#4, 1#32, 1#6) := by decide

/-- The byte 0x00 by the single-symbol tree: `DECODEALL` emits eight A and ends (R142). -/
theorem test_decode : seen (fun s => (s.env.symOut.length, s.regs.status, s.decoder.dcount))
    (exec .decode (configured oneLeaf 1#6 (reading 0#8 0#4 [0x00#8]))) = some (8, 0x00000020#32, 8#32) := by decide

/-- `DECODEN 3` of the same emits three and returns `Limit` with `RCNT` = 5 (R142). -/
theorem test_decodeN : seen (fun s => (s.env.symOut, s.regs.status, s.reader.rcnt))
    (decodeN 3#32 (configured oneLeaf 1#6 (reading 0#8 0#4 [0x00#8]))) =
    some ([0x41#8, 0x41#8, 0x41#8], 0x00000030#32, 5#4) := by decide

/-- A command on a closed wrapper (R186): only `STATUS` and `FAULTS` change. -/
theorem test_badState : exec .rbyte State.reset = .next { State.reset with
    regs := { Regs.atReset with status := 0x00000307#32, faults := 0x080#32 } } := rfl

/-- An illegal word is stored in `CMD` (R63, R183). -/
theorem test_badCommand : seen State.regs (step (State.reset.withFetchWord 32 0x0000D000)) =
    some { Regs.atReset with cmd := 0x0000D000#32, status := 0x00000106#32, faults := 0x040#32 } := by decide

/-- A register write and its read back; the last `CT_LEN` word is at 0x17FC (20_memory.md R42, R43). -/
theorem test_bus : seen (busRead 0x17FC) (hostAct (.write 0x17FC 0xFFFFFFFF#32) State.reset) = some 0x8000003F#32 := by decide
theorem test_bus_unaligned : hostAct (.read 0x0002) State.reset = .refused (.unalignedAccess 0x0002) := rfl
/-- The last registers of the two arrays, and the offsets after them, at the defaults and in the small build (20_memory.md R42). -/
theorem test_array_tops : regAt 0x0FFC = some (.node 511#9) ∧ regAt 0x17FC = some (.ctLen 0xFF#8) ∧ regAt 0x1800 = none ∧
    regAt 0x087C smallBuild = some (.node 31#5) ∧ regAt 0x0880 smallBuild = none ∧
    regAt 0x107C smallBuild = some (.ctLen 0xF#4) ∧ regAt 0x1080 smallBuild = none := by decide

/-- With `SYM_W` = 4 the bits of `ARG` above bit 3 must be 0 (30_encoding.md R61 d). -/
theorem test_small_encsym : decodeWord 0x0000900F#32 smallBuild = .ok (.encsym 0x0F#8) ∧
    decodeWord 0x00009010#32 smallBuild = .error .rsvdBits := by decide

/-- With `LMAX` = 12 `CT_RAW` still stores all 32 bits, and `RAW` is the low 12 of them (20_memory.md R43, 30_encoding.md R67). -/
theorem test_small_ctRaw : ∃ t, hostAct (.write 0x1000 0xFFFFF123#32) (State.resetOf smallBuild) = .next t ∧
    busRead 0x1000 t = 0xFFFFF123#32 ∧ (t.mem.codeAt 0#4).raw = 0x123#12 :=
  ⟨_, rfl, by decide, by decide⟩

/-- With `CNT_W` = 16 a counter wraps at 2^16 (50_invariants_and_properties.md R169). -/
theorem test_small_counter : ∃ t, execIn (.wbit true) { State.resetOf smallBuild with
      writer := { Writer.atReset with wopenf := true, wbits := 0xFFFF#16 } } = .next t ∧ busRead 0x0028 t = 0#32 :=
  ⟨_, rfl, by decide⟩

theorem test_child_lone : child 0x02070000#32 false = some 7#9 ∧ child 0x02070000#32 true = none := by decide
theorem test_pack : pack [true, false, true, true, false, false, false, false, true] = [0xB0#8, 0x80#8] := by decide
theorem test_unpack : unpack [0xA0#8] = [true, false, true, false, false, false, false, false] := by decide

/-! ## Witnesses: for each statement with hypotheses, a state and operands that meet them -/

theorem witness_rows : (⟨.wbyte, 0x00003000#32, 0xFFFFFF00#32⟩ : OpcodeRow) ∈ opcodeRows ∧
    0x000030FF#32 &&& 0xFFFFFF00#32 = 0x00003000#32 ∧ (⟨.decode, 0x0000C000#32, 0xFFFFFFFF#32⟩ : OpcodeRow) ∈ opcodeRows := by
  decide

/-- Illegal words of both sub-causes: a reserved `OP`; a legal one with a bit set above it, and with a bit of `ARG` set. -/
theorem witness_illegal_op : (∀ r ∈ opcodeRows, 0x00000000#32 &&& r.mask ≠ r.pattern) ∧
    ∀ r ∈ opcodeRows, 0xFFFFFFFF#32 &&& r.mask ≠ r.pattern := by decide
theorem witness_illegal_bits : (∀ r ∈ opcodeRows, 0x00011000#32 &&& r.mask ≠ r.pattern) ∧
    ∀ r ∈ opcodeRows, 0x0000C001#32 &&& r.mask ≠ r.pattern := by decide

/-- Commands with and without a word in a build, at the boundary of `SYM_W`. -/
theorem witness_wf : (Instr.encsym 0x0F#8).wf smallBuild = true ∧ (Instr.encsym 0x10#8).wf smallBuild = false ∧
    (Instr.encsym 0xFF#8).wf = true := by decide

/-- A command word about to be written to `CMD` in another build. -/
theorem witness_step_in_build : ∃ (p : Params) (s : State p) (w : Word) (i : Instr) (rest : List (HostAction p)),
    s.host.pending = .write 0x0000 w :: rest ∧ decodeWord w p = .ok i :=
  ⟨smallBuild, withCommand 0x0000900F#32 (State.resetOf smallBuild), 0x0000900F#32, .encsym 0x0F#8, [], rfl, rfl⟩

/-- The first and the last offset past the top of each array, in the small build; at the defaults the node store leaves none. -/
theorem witness_past_the_tops :
    (∀ addr ∈ [0x0880, 0x0FFC, 0x1080, 0x17FC, 0x1800], addr % 4 = 0 ∧
      ((0x0800 + 4 * 2 ^ smallBuild.nidxW ≤ addr ∧ addr < 0x1000) ∨ 0x1000 + 8 * 2 ^ smallBuild.symW ≤ addr)) ∧
    (∀ addr ∈ [0x1800, 0xFFFFFFFC], addr % 4 = 0 ∧
      ((0x0800 + 4 * 2 ^ Params.default.nidxW ≤ addr ∧ addr < 0x1000) ∨ 0x1000 + 8 * 2 ^ Params.default.symW ≤ addr)) := by
  decide

theorem witness_step : ∃ (s : State) (w : Word) (i : Instr) (rest : List (HostAction .default)), s.host.pending = .write 0x0000 w :: rest ∧ decodeWord w = .ok i :=
  ⟨State.reset.withFetchWord 32 0x00001001, 0x00001001#32, .wopen true, [], rfl, rfl⟩

theorem witness_host_read : ∃ (s : State) (addr : Nat) (rest : List (HostAction .default)), s.host.pending = .read addr :: rest ∧ addr % 4 = 0 :=
  ⟨{ State.reset with host := { pending := [.read 0x17FC], reads := [] } }, 0x17FC, [], rfl, rfl⟩

theorem witness_unmapped : ∀ addr ∈ [0x0044, 0x07FC, 0x1800, 0xFFFFFFFC],
    addr % 4 = 0 ∧ ((0x0044 ≤ addr ∧ addr < 0x0800) ∨ 0x1800 ≤ addr) := by decide

theorem witness_register_write : ∃ (s t : State) (addr : Nat) (v : Word), addr ≠ 0x0000 ∧ hostAct (.write addr v) s = .next t :=
  ⟨State.reset, _, 0x0018, 0xFFFFFFFF#32, by decide, rfl⟩

theorem witness_other_register : ∃ (s t : State) (addr other : Nat) (v : Word), addr ≠ 0x0000 ∧ hostAct (.write addr v) s = .next t ∧
    other % 4 = 0 ∧ other ≠ addr :=
  ⟨State.reset, _, 0x1000, 0x1004, 5#32, by decide, rfl, by decide, by decide⟩

theorem witness_reset : ∃ s t : State, s.writer.wopenf = true ∧ hostAct .reset s = .next t :=
  ⟨writing 0xA0#8 3#3, _, rfl, rfl⟩

theorem witness_idle : State.reset.host.pending = [] := rfl

theorem witness_wrong_state :
    ((Instr.wopen true).op = .wopen ∧ (writing 0#8 0#3).writer.wopenf = true) ∧
    (Instr.encode.op ∈ [Op.wbit, .wbyte, .wclose, .encsym, .encode] ∧ State.reset.writer.wopenf = false) ∧
    ((Instr.ropen false).op = .ropen ∧ (reading 0#8 0#4 []).reader.ropenf = true) ∧
    (Instr.decode.op ∈ [Op.rbit, .rbyte, .rclose, .decsym, .decode] ∧ State.reset.reader.ropenf = false) := by decide

theorem witness_every_command_ends (i : Instr) : ∃ t, exec i State.reset = .next t := by
  cases i <;> exact ⟨_, rfl⟩

theorem witness_execute : ∃ t, execute 0x00006000#32 State.reset = .next t ∧ errField t.regs.status ≠ 0#4 :=
  ⟨_, rfl, by decide⟩

theorem witness_fault_kept : ∃ (a : HostAction .default) (s t : State) (k : Nat), a ≠ .reset ∧ hostAct a s = .next t ∧
    s.regs.faults.getLsbD k = true :=
  ⟨.write 0x0000 0x00001000#32, { State.reset with regs := { Regs.atReset with faults := 0x100#32 } }, _, 8, by decide, rfl,
    by decide⟩

/-- Both ends: a command without and one with an I/O error. -/
theorem witness_ioinfo : (∃ t, exec .rbit (reading 0#8 0#4 []) = .next t ∧ errField t.regs.status ≠ 5#4) ∧
    (∃ t, exec .rbit (sourceAnswers [.ioError 9#32] [] (reading 0#8 0#4 [])) = .next t ∧ errField t.regs.status = 5#4) :=
  ⟨⟨_, rfl, by decide⟩, ⟨_, rfl, by decide⟩⟩

/-- An environment that answers every call, some with errors. -/
theorem witness_answering : ∃ s : State,
    (∀ a ∈ s.env.sinkWriteAns ++ s.env.sinkReleaseAns ++ s.env.sourceReadAns ++ s.env.sourceReleaseAns,
      a ≠ PortAnswer.never) ∧ (∀ a ∈ s.env.symReadAns ++ s.env.symWriteAns, a ≠ SymAnswer.never) :=
  ⟨sinkAnswers [.ok, .ioError 1#32] [.ioError 2#32] (writing 0#8 0#3), by decide, by decide⟩

/-- One state for each clause about a sink that never answers, the commands `WBIT`, `WBYTE`, `WCLOSE` (flush, release), `ENCSYM` (at
the first and at the last of its bytes). -/
theorem witness_unanswered_writer :
    (∃ s : State, s.writer.wopenf = true ∧ s.writer.wcnt = 7#3 ∧ nextAnswer s.env.sinkWriteAns = .never) ∧
    (∃ s : State, s.writer.wopenf = true ∧ s.writer.wcnt ≠ 0#3 ∧ nextAnswer s.env.sinkWriteAns = .never) ∧
    (∃ s : State, s.writer.wopenf = true ∧ ¬(s.writer.wcnt ≠ 0#3 ∧ nextAnswer s.env.sinkWriteAns = .never) ∧
      s.writer.wleave = false ∧ nextAnswer s.env.sinkReleaseAns = .never) ∧
    (∀ j ∈ [0, 3], ∃ (s : State) (x : Sym) (later : List PortAnswer), s.writer.wopenf = true ∧ GoodEntry (s.mem.codeAt x) ∧
      s.env.sinkWriteAns = List.replicate j .ok ++ .never :: later ∧
      j < (s.writer.wcnt.toNat + (s.mem.codeAt x).len.toNat) / 8) := by
  refine ⟨⟨sinkAnswers [.never] [] (writing 0x54#8 7#3), by decide⟩, ⟨sinkAnswers [.never] [] (writing 0x80#8 1#3), by decide⟩,
    ⟨sinkAnswers [] [.never] (writing 0#8 0#3), by decide⟩, fun j hj => ?_⟩
  refine ⟨sinkAnswers (List.replicate j .ok ++ [.never]) [] { writing 0x54#8 7#3 with
    mem := { node := [], ct := [(0x41, { valid := true, len := 32#6, rawWord := 1#32 })] } }, 0x41#8, [], ?_⟩
  revert hj; revert j; decide

/-- `ENCODE` stuck at a byte of its symbols, at the flush, at `SymRead`, at the release. -/
theorem witness_unanswered_encode :
    (∃ (s : State) (good more : List Sym) (j : Nat) (later : List PortAnswer), s.writer.wopenf = true ∧
      s.env.symIn = good ++ more ∧ (∀ x ∈ good, GoodEntry (s.mem.codeAt x)) ∧ (∀ a ∈ s.env.symReadAns, a = SymAnswer.ok) ∧
      s.env.sinkWriteAns = List.replicate j .ok ++ .never :: later ∧
      j < (s.writer.wcnt.toNat + (symbolBits s.mem good).length) / 8) ∧
    (∃ (s : State) (good : List Sym) (j : Nat) (later : List PortAnswer), s.writer.wopenf = true ∧ s.env.symIn = good ∧
      (∀ x ∈ good, GoodEntry (s.mem.codeAt x)) ∧ (∀ a ∈ s.env.symReadAns, a = SymAnswer.ok) ∧
      s.env.sinkWriteAns = List.replicate j .ok ++ .never :: later ∧
      j = (s.writer.wcnt.toNat + (symbolBits s.mem good).length) / 8 ∧
      j < (s.writer.wcnt.toNat + (symbolBits s.mem good).length + 7) / 8) ∧
    (∃ (s : State) (good more : List Sym) (later : List SymAnswer), s.writer.wopenf = true ∧ s.env.symIn = good ++ more ∧
      (∀ x ∈ good, GoodEntry (s.mem.codeAt x)) ∧ (∀ a ∈ s.env.sinkWriteAns, a = PortAnswer.ok) ∧
      s.env.symReadAns = List.replicate good.length .ok ++ .never :: later) ∧
    (∃ s : State, s.writer.wopenf = true ∧ s.writer.wleave = false ∧ (∀ x ∈ s.env.symIn, GoodEntry (s.mem.codeAt x)) ∧
      (∀ a ∈ s.env.symReadAns, a = SymAnswer.ok) ∧ (∀ a ∈ s.env.sinkWriteAns, a = PortAnswer.ok) ∧
      nextAnswer s.env.sinkReleaseAns = .never) :=
  ⟨⟨{ configured twoLeaves 1#6 (writing 0x54#8 7#3) with
      env := { Env.atReset with symIn := [0x41#8, 0x42#8], sinkWriteAns := [.never] } }, [0x41#8], [0x42#8], 0, [], by decide⟩,
    ⟨{ configured twoLeaves 1#6 (writing 0x54#8 7#3) with
      env := { Env.atReset with symIn := [0x41#8, 0x42#8], sinkWriteAns := [.ok, .never] } }, [0x41#8, 0x42#8], 1, [], by decide⟩,
    ⟨{ configured twoLeaves 1#6 (writing 0#8 0#3) with
      env := { Env.atReset with symIn := [0x41#8, 0x42#8], symReadAns := [.ok, .never] } }, [0x41#8], [0x42#8], [], by decide⟩,
    ⟨{ configured twoLeaves 1#6 (writing 0#8 0#3) with
      env := { Env.atReset with symIn := [0x41#8], sinkReleaseAns := [.never] } }, by decide⟩⟩

/-- `RBIT`, `RBYTE` (with 0 and 7 bits held) and `RCLOSE` stuck. -/
theorem witness_unanswered_reader :
    (∀ k ∈ [0#4, 7#4], ∃ s : State, s.reader.rcnt = k ∧ s.reader.ropenf = true ∧ s.reader.rcnt.toNat < 8 ∧
      s.reader.reof = false ∧ nextAnswer s.env.sourceReadAns = .never) ∧
    (∃ s : State, s.reader.ropenf = true ∧ s.reader.rleave = false ∧ nextAnswer s.env.sourceReleaseAns = .never) := by
  refine ⟨fun k hk => ⟨sourceAnswers [.never] [] (reading 0#8 k []), rfl, rfl, ?_, rfl, rfl⟩,
    ⟨sourceAnswers [] [.never] (reading 0#8 0#4 []), by decide⟩⟩
  revert hk; revert k; decide

/-- `DECSYM` stuck at its source, no bit held and none pulled, and with 32 bits of a code read; and at `SymWrite`. -/
theorem witness_unanswered_decsym :
    (∀ pulled ∈ [[], [0#8, 0#8, 0#8, 0#8]], ∃ (s : State) (later : List PortAnswer) (n : NodeIdx), s.reader.ropenf = true ∧
      s.reader.rcnt.toNat ≤ 8 ∧ s.reader.reof = false ∧ ConfigOk s ∧ s.env.source = pulled ++ [] ∧
      s.env.sourceReadAns = List.replicate pulled.length .ok ++ .never :: later ∧
      path s.mem s.conf.root (unreadBits s.reader ++ unpack pulled) = some n ∧ isLeaf (s.mem.nodeAt n) = false ∧
      (unreadBits s.reader ++ unpack pulled).length ≤ s.conf.maxlen.toNat) ∧
    (∃ (s : State) (c rest : List Bool) (n : NodeIdx), s.reader.ropenf = true ∧ s.reader.rcnt.toNat ≤ 8 ∧ ConfigOk s ∧
      (∀ a ∈ s.env.sourceReadAns, a = PortAnswer.ok) ∧ bitsToCome s = c ++ rest ∧ path s.mem s.conf.root c = some n ∧
      isLeaf (s.mem.nodeAt n) = true ∧ c.length ≤ s.conf.maxlen.toNat ∧ nextSymAnswer s.env.symWriteAns = .never) := by
  refine ⟨fun pulled hp => ⟨configured zerosLoop 32#6 (sourceAnswers (List.replicate pulled.length .ok ++ [.never]) []
    (reading 0#8 0#4 pulled)), [], 0#9, ?_⟩, ?_⟩
  · revert hp; revert pulled; simp only [List.forall_mem_cons, List.not_mem_nil, false_implies, implies_true, and_true]; decide
  · exact ⟨{ configured twoLeaves 1#6 (reading 0x40#8 7#4 []) with env := { Env.atReset with symWriteAns := [.never] } },
      [true], List.replicate 6 false, 2#9, by decide⟩

/-- `DECODE` stuck in its first `DECSYM` and after a symbol. -/
theorem witness_unanswered_decode :
    (∃ (s : State) (f : Fault), ¬(s.conf.dlimit ≠ 0#32 ∧ s.conf.dlimit.toNat ≤ s.decoder.dcount.toNat) ∧
      exec .decsym s = .fault f) ∧
    (∃ (s : State) (f : Fault), ¬(s.conf.dlimit ≠ 0#32 ∧ s.conf.dlimit.toNat ≤ s.decoder.dcount.toNat) ∧
      ∃ x t, decodeSymbol s = .done (.symbol x) t ∧ exec .decode t = .fault f) :=
  ⟨⟨configured twoLeaves 1#6 (sourceAnswers [.never] [] (reading 0#8 0#4 [])), .portNeverAnswered .sourceRead, by decide, rfl⟩,
    ⟨configured twoLeaves 1#6 (sourceAnswers [.never] [] (reading 0#8 1#4 [])), .portNeverAnswered .sourceRead, by decide,
      0x41#8, _, rfl, rfl⟩⟩

/-- The frames: each command of each family ends somewhere with its own effect. -/
theorem witness_frames :
    (∃ t, exec (.wopen true) State.reset = .next t) ∧
    (∀ i ∈ [Instr.wbit true, .wbyte 0xFF#8, .wclose, .encode], ∃ t, exec i (writing 0x54#8 7#3) = .next t) ∧
    (∃ t, exec (.encsym 0x42#8) (configured twoLeaves 1#6 (writing 0x54#8 7#3)) = .next t) ∧
    (∃ t, exec (.ropen false) State.reset = .next t) ∧
    (∀ i ∈ [Instr.rbit, .rbyte, .rclose], ∃ t, exec i (reading 0xA5#8 7#4 [0x3C#8]) = .next t) ∧
    (∀ i ∈ [Instr.decsym, .decode], ∃ t, exec i (configured twoLeaves 1#6 (reading 0x40#8 7#4 [])) = .next t) := by
  refine ⟨⟨_, rfl⟩, ?_, ⟨_, rfl⟩, ⟨_, rfl⟩, ?_, ?_⟩ <;> simp only [List.forall_mem_cons, List.not_mem_nil]
  · exact ⟨⟨_, rfl⟩, ⟨_, rfl⟩, ⟨_, rfl⟩, ⟨_, rfl⟩, by simp⟩
  · exact ⟨⟨_, rfl⟩, ⟨_, rfl⟩, ⟨_, rfl⟩, by simp⟩
  · exact ⟨⟨_, rfl⟩, ⟨_, rfl⟩, by simp⟩

/-- One state for each clause about `WCLOSE`, in the order of the clauses. -/
theorem witness_wclose :
    (∃ s : State, s.writer.wopenf = false) ∧
    (∃ s : State, s.writer.wopenf = true ∧ s.writer.wcnt ≠ 0#3 ∧ nextAnswer s.env.sinkWriteAns = .never) ∧
    (∃ s : State, s.writer.wopenf = true ∧ ¬(s.writer.wcnt ≠ 0#3 ∧ nextAnswer s.env.sinkWriteAns = .never) ∧
      s.writer.wleave = false ∧ nextAnswer s.env.sinkReleaseAns = .never) ∧
    (∃ s : State, s.writer.wopenf = true ∧ s.writer.wcnt = 7#3 ∧
      ¬(s.writer.wcnt ≠ 0#3 ∧ nextAnswer s.env.sinkWriteAns ≠ .ok) ∧
      ¬(s.writer.wleave = false ∧ nextAnswer s.env.sinkReleaseAns ≠ .ok)) ∧
    (∃ (s : State) (e : Word), s.writer.wopenf = true ∧ s.writer.wcnt ≠ 0#3 ∧ nextAnswer s.env.sinkWriteAns = .ioError e ∧
      ¬(s.writer.wleave = false ∧ nextAnswer s.env.sinkReleaseAns = .never)) ∧
    (∃ (s : State) (e : Word), s.writer.wopenf = true ∧ ¬(s.writer.wcnt ≠ 0#3 ∧ nextAnswer s.env.sinkWriteAns ≠ .ok) ∧
      s.writer.wleave = false ∧ nextAnswer s.env.sinkReleaseAns = .ioError e) :=
  ⟨⟨State.reset, by decide⟩, ⟨sinkAnswers [.never] [] (writing 0x80#8 1#3), by decide⟩,
    ⟨sinkAnswers [] [.never] (writing 0x80#8 1#3), by decide⟩, ⟨writing 0xFE#8 7#3, by decide⟩,
    ⟨sinkAnswers [.ioError 3#32] [.ioError 4#32] (writing 0x80#8 1#3), 3#32, by decide⟩,
    ⟨sinkAnswers [] [.ioError 4#32] (writing 0#8 0#3), 4#32, by decide⟩⟩

theorem witness_bulk_write : ∃ s : State, s.writer.wopenf = true ∧ s.writer.wcnt = 0#3 ∧ s.writer.wbuf = 0#8 ∧
    ∀ a ∈ s.env.sinkWriteAns, a = PortAnswer.ok :=
  ⟨sinkAnswers [.ok] [.ioError 1#32] (writing 0#8 0#3), by decide⟩

/-- `RBYTE` with a whole byte held, with part of one and a byte to come, and with too few bits. -/
theorem witness_rbyte :
    (∃ (s : State) (y : Byte) (rest : List Bool), s.reader.ropenf = true ∧ s.reader.rcnt.toNat ≤ 8 ∧
      (∀ a ∈ s.env.sourceReadAns, a = PortAnswer.ok) ∧ bitsToCome s = byteBits y ++ rest) ∧
    bitsToCome (reading 0xA5#8 7#4 [0x3C#8]) = byteBits 0x4A#8 ++ [false, true, true, true, true, false, false] ∧
    (∃ s : State, s.reader.ropenf = true ∧ s.reader.rcnt.toNat ≤ 8 ∧ (∀ a ∈ s.env.sourceReadAns, a = PortAnswer.ok) ∧
      (bitsToCome s).length < 8) :=
  ⟨⟨reading 0xA5#8 8#4 [], 0xA5#8, [], by decide⟩, by decide, ⟨reading 0xA5#8 7#4 [], by decide⟩⟩

theorem witness_rbyte_error : ∀ k ∈ [0#4, 7#4], ∃ (s : State) (e : Word), s.reader.rcnt = k ∧ s.reader.ropenf = true ∧
    s.reader.rcnt.toNat < 8 ∧ s.reader.reof = false ∧ nextAnswer s.env.sourceReadAns = .ioError e := by
  intro k hk
  refine ⟨sourceAnswers [.ioError 6#32] [] (reading 0xA5#8 k []), 6#32, rfl, rfl, ?_, rfl, rfl⟩
  revert hk; revert k; decide

/-- `ENCSYM` of an absent symbol, and of present ones with lengths 0 and 33. -/
theorem witness_encsym_refused :
    (∃ (x : Sym) (s : State), s.writer.wopenf = true ∧ (s.mem.codeAt x).valid = false) ∧
    (∀ n ∈ [0#6, 33#6, 63#6], ∃ (x : Sym) (s : State), s.writer.wopenf = true ∧ (s.mem.codeAt x).valid = true ∧
      (s.mem.codeAt x).len = n ∧ ((s.mem.codeAt x).len.toNat = 0 ∨ 32 < (s.mem.codeAt x).len.toNat)) := by
  refine ⟨⟨0x41#8, writing 0#8 0#3, by decide⟩, fun n hn => ⟨0x41#8, { writing 0#8 0#3 with
    mem := { node := [], ct := [(0x41, { valid := true, len := n, rawWord := 1#32 })] } }, rfl, rfl, rfl, ?_⟩⟩
  revert hn; revert n; decide

/-- `ENCSYM` of codes of length 1 and 32, on a partial byte with its unused bits 0. -/
theorem witness_encsym : ∀ n ∈ [1#6, 32#6], ∃ (x : Sym) (s : State), s.writer.wopenf = true ∧
    s.writer.wbuf <<< s.writer.wcnt.toNat = 0#8 ∧ (s.mem.codeAt x).len = n ∧ GoodEntry (s.mem.codeAt x) ∧
    ∀ a ∈ s.env.sinkWriteAns, a = PortAnswer.ok := by
  intro n hn
  refine ⟨0x41#8, { writing 0x54#8 7#3 with
    mem := { node := [], ct := [(0x41, { valid := true, len := n, rawWord := 1#32 })] } }, rfl,
    (by decide : 0x54#8 <<< (7#3).toNat = 0#8), rfl, ?_,
    (by decide : ∀ a ∈ (writing 0x54#8 7#3).env.sinkWriteAns, a = PortAnswer.ok)⟩
  revert hn; revert n; decide

/-- The sink fails at the first and at the last byte of a code of length 32. -/
theorem witness_encsym_error : ∀ j ∈ [0, 3], ∃ (x : Sym) (s : State) (e : Word) (later : List PortAnswer),
    s.writer.wopenf = true ∧ s.writer.wbuf <<< s.writer.wcnt.toNat = 0#8 ∧ GoodEntry (s.mem.codeAt x) ∧
    s.env.sinkWriteAns = List.replicate j .ok ++ .ioError e :: later ∧
    j < (s.writer.wcnt.toNat + (s.mem.codeAt x).len.toNat) / 8 := by
  intro j hj
  refine ⟨0x41#8, sinkAnswers (List.replicate j .ok ++ [.ioError 5#32]) [] { writing 0x54#8 7#3 with
    mem := { node := [], ct := [(0x41, { valid := true, len := 32#6, rawWord := 1#32 })] } }, 5#32, [], ?_⟩
  revert hj; revert j; decide

/-- Three symbols, all present, on a partial byte. -/
theorem witness_encode : ∃ s : State, s.writer.wopenf = true ∧ s.writer.wbuf <<< s.writer.wcnt.toNat = 0#8 ∧
    s.env.symIn.length = 3 ∧ (∀ x ∈ s.env.symIn, GoodEntry (s.mem.codeAt x)) ∧ SinkErrorFree s.env ∧
    SymbolsAnswered s.env :=
  ⟨{ configured twoLeaves 1#6 (writing 0x80#8 1#3) with env := { Env.atReset with symIn := [0x41#8, 0x42#8, 0x41#8] } },
    by decide⟩

theorem witness_encode_stops : ∃ (s : State) (good rest : List Sym) (x : Sym), s.writer.wopenf = true ∧
    s.writer.wbuf <<< s.writer.wcnt.toNat = 0#8 ∧ s.env.symIn = good ++ x :: rest ∧
    (∀ y ∈ good, GoodEntry (s.mem.codeAt y)) ∧ (s.mem.codeAt x).valid = false ∧
    (∀ a ∈ s.env.sinkWriteAns, a = PortAnswer.ok) ∧ SymbolsAnswered s.env :=
  ⟨{ configured twoLeaves 1#6 (writing 0x80#8 1#3) with env := { Env.atReset with symIn := [0x42#8, 0x5A#8, 0x41#8] } },
    [0x42#8], [0x41#8], 0x5A#8, by decide⟩

theorem witness_encode_sequence : ∃ s : State, s.writer.wopenf = true ∧ (∀ a ∈ s.env.symReadAns, a = SymAnswer.ok) :=
  ⟨sinkAnswers [.ok, .ioError 1#32] [] { writing 0x80#8 1#3 with env := { Env.atReset with symIn := [0x41#8] } }, by decide⟩

/-- `MAXLEN` 0 and 33, then 1 and 32 with a Leaf at the root. -/
theorem witness_bad_config :
    (∀ n ∈ [0#6, 33#6], ∃ s : State, s.reader.ropenf = true ∧ s.conf.maxlen = n ∧
      (s.conf.maxlen.toNat = 0 ∨ 32 < s.conf.maxlen.toNat)) ∧
    (∀ n ∈ [1#6, 32#6], ∃ s : State, s.reader.ropenf = true ∧ s.conf.maxlen = n ∧ 1 ≤ s.conf.maxlen.toNat ∧
      s.conf.maxlen.toNat ≤ 32 ∧ isLeaf (s.mem.nodeAt s.conf.root) = true) := by
  constructor
  · intro n hn
    refine ⟨configured twoLeaves n (reading 0#8 0#4 []), rfl, rfl, ?_⟩
    revert hn; revert n; decide
  · intro n hn
    refine ⟨configured { node := [(0, 0x80000041#32)], ct := [] } n (reading 0#8 0#4 []), rfl, rfl, ?_⟩
    revert hn; revert n; decide

/-- A node word for each clause about child selection. -/
theorem witness_child : ∀ l r : Bool, ∃ n : Word, n.getLsbD 9 = l ∧ n.getLsbD 25 = r := by
  intro l r
  refine ⟨intWord (p := .default) (if l then some 3#9 else none) (if r then some 4#9 else none), ?_⟩
  revert l r; decide

/-- A path to a Leaf of the greatest length allowed, a bit left after it. -/
theorem witness_decsym : ∃ (s : State) (c rest : List Bool) (n : NodeIdx), s.reader.ropenf = true ∧
    s.reader.rcnt.toNat ≤ 8 ∧ ConfigOk s ∧ (∀ a ∈ s.env.sourceReadAns, a = PortAnswer.ok) ∧
    nextSymAnswer s.env.symWriteAns = .ok ∧ bitsToCome s = c ++ rest ∧ path s.mem s.conf.root c = some n ∧
    isLeaf (s.mem.nodeAt n) = true ∧ c.length = s.conf.maxlen.toNat :=
  ⟨configured threeDeep 2#6 (reading 0x04#8 3#4 []), [true, false], [false], 3#9, by decide⟩

/-- The four other ends of `DECSYM`: no bit; bits that stop inside a code; a bit that selects no child; a bit past `MAXLEN`. -/
theorem witness_decsym_ends :
    (∃ s : State, s.reader.ropenf = true ∧ s.reader.rcnt.toNat ≤ 8 ∧ ConfigOk s ∧
      (∀ a ∈ s.env.sourceReadAns, a = PortAnswer.ok) ∧ bitsToCome s = []) ∧
    (∃ (s : State) (c : List Bool) (n : NodeIdx), s.reader.ropenf = true ∧ s.reader.rcnt.toNat ≤ 8 ∧ ConfigOk s ∧
      path s.mem s.conf.root c = some n ∧ isLeaf (s.mem.nodeAt n) = false ∧ bitsToCome s = c ∧ c ≠ [] ∧
      c.length ≤ s.conf.maxlen.toNat) ∧
    (∃ (s : State) (c rest : List Bool) (b : Bool) (n : NodeIdx), s.reader.ropenf = true ∧ s.reader.rcnt.toNat ≤ 8 ∧
      ConfigOk s ∧ path s.mem s.conf.root c = some n ∧ isLeaf (s.mem.nodeAt n) = false ∧ bitsToCome s = c ++ b :: rest ∧
      c.length < s.conf.maxlen.toNat ∧ child (s.mem.nodeAt n) b = none) ∧
    (∃ (s : State) (c rest : List Bool) (b : Bool) (n : NodeIdx), s.reader.ropenf = true ∧ s.reader.rcnt.toNat ≤ 8 ∧
      ConfigOk s ∧ path s.mem s.conf.root c = some n ∧ isLeaf (s.mem.nodeAt n) = false ∧ bitsToCome s = c ++ b :: rest ∧
      c.length = s.conf.maxlen.toNat) :=
  ⟨⟨configured twoLeaves 32#6 (reading 0#8 0#4 []), by decide⟩,
    ⟨configured threeDeep 1#6 (reading 0x01#8 1#4 []), [true], 2#9, by decide⟩,
    ⟨configured oneLeaf 1#6 (reading 0x80#8 8#4 []), [], List.replicate 7 false, true, 0#9, by decide⟩,
    ⟨configured threeDeep 1#6 (reading 0x03#8 2#4 []), [true], [], true, 2#9, by decide⟩⟩

/-- The source fails with no bit held and none pulled, and after 32 bits of a code, eight of them held and three bytes pulled. -/
theorem witness_decsym_error : ∀ k ∈ [(0#4, []), (8#4, [0#8, 0#8, 0#8])], ∃ (s : State) (e : Word) (later : List PortAnswer)
    (n : NodeIdx), s.reader.rcnt = k.1 ∧ s.reader.ropenf = true ∧ s.reader.rcnt.toNat ≤ 8 ∧ s.reader.reof = false ∧ ConfigOk s ∧
    s.env.source = k.2 ++ [0xFF#8] ∧ s.env.sourceReadAns = List.replicate k.2.length .ok ++ .ioError e :: later ∧
    path s.mem s.conf.root (unreadBits s.reader ++ unpack k.2) = some n ∧ isLeaf (s.mem.nodeAt n) = false ∧
    (unreadBits s.reader ++ unpack k.2).length ≤ s.conf.maxlen.toNat := by
  intro k hk
  refine ⟨configured zerosLoop 32#6 (sourceAnswers (List.replicate k.2.length .ok ++ [.ioError 8#32]) []
    (reading 0#8 k.1 (k.2 ++ [0xFF#8]))), 8#32, [], 0#9, ?_⟩
  revert hk; revert k; simp only [List.forall_mem_cons, List.not_mem_nil, false_implies, implies_true, and_true]; decide

theorem witness_decsym_next : ∃ (s t : State), exec .decsym s = .next t ∧ 1 ≤ s.conf.maxlen.toNat :=
  ⟨configured twoLeaves 1#6 (reading 0x40#8 7#4 []), _, rfl, by decide⟩

/-- The walk at its start and at its last bit. -/
theorem witness_walk_loop :
    (∃ s : State, ConfigOk s ∧ s.decoder.accLen = 0#6) ∧
    (∃ s : State, ConfigOk s ∧ s.decoder.accLen.toNat = s.conf.maxlen.toNat) :=
  ⟨⟨configured twoLeaves 1#6 State.reset, by decide⟩,
    ⟨{ configured twoLeaves 32#6 State.reset with decoder := { Decoder.atReset with accLen := 32#6 } }, by decide⟩⟩

/-- `DCOUNT` exactly at `DLIMIT`. -/
theorem witness_limit : ∃ s : State, s.reader.ropenf = true ∧ ConfigOk s ∧ s.conf.dlimit ≠ 0#32 ∧
    s.conf.dlimit.toNat = s.decoder.dcount.toNat :=
  ⟨{ reading 0#8 0#4 [] with
      mem := twoLeaves, conf := { root := 0#9, maxlen := 1#6, dlimit := 1#32 }
      decoder := { Decoder.atReset with dcount := 1#32 } }, by decide⟩

/-- A present symbol of the two-leaf tree agrees with it. -/
theorem twoLeaves_consistent {s : State} (hm : s.mem = twoLeaves) (hr : s.conf.root = 0#9) (hl : s.conf.maxlen = 1#6) :
    Consistent s := by
  intro x hx
  have hc : x = 0x41#8 ∨ x = 0x42#8 := by
    rw [hm] at hx; revert hx; revert x; decide
  simp only [ConsistentAt, hm, hr, hl]
  rcases hc with rfl | rfl
  · exact ⟨by decide, by decide, by decide, 1#9, by decide⟩
  · exact ⟨by decide, by decide, by decide, 2#9, by decide⟩

/-- Two symbols expected, six bits of padding after them. -/
theorem witness_decode : ∃ (s : State) (xs : List Sym) (rest : List Bool), s.reader.ropenf = true ∧
    s.reader.rcnt.toNat ≤ 8 ∧ ConfigOk s ∧ (∀ a ∈ s.env.sourceReadAns, a = PortAnswer.ok) ∧
    (∀ a ∈ s.env.symWriteAns, a = SymAnswer.ok) ∧ (∀ x ∈ xs, ConsistentAt s x) ∧
    bitsToCome s = symbolBits s.mem xs ++ rest ∧ s.conf.dlimit ≠ 0#32 ∧
    s.conf.dlimit.toNat = s.decoder.dcount.toNat + xs.length := by
  refine ⟨{ reading 0#8 0#4 [0x40#8] with mem := twoLeaves, conf := { root := 0#9, maxlen := 1#6, dlimit := 2#32 } },
    [0x41#8, 0x42#8], List.replicate 6 false, by decide, by decide, by decide, by decide, by decide, ?_, by decide,
    by decide, by decide⟩
  intro x hx
  exact twoLeaves_consistent rfl rfl rfl x (by revert hx; revert x; decide)

/-- One symbol and zeros to the end of the byte, the leftmost Leaf at depth 1 (whole runs), and at depth 2 (a run left
over). -/
theorem witness_trailing_zeros :
    (∃ (s : State) (xs : List Sym) (p d : Nat) (n : NodeIdx), s.reader.ropenf = true ∧ s.reader.rcnt.toNat ≤ 8 ∧
      ConfigOk s ∧ (∀ a ∈ s.env.sourceReadAns, a = PortAnswer.ok) ∧ (∀ a ∈ s.env.symWriteAns, a = SymAnswer.ok) ∧
      (∀ x ∈ xs, ConsistentAt s x) ∧ bitsToCome s = symbolBits s.mem xs ++ List.replicate p false ∧
      path s.mem s.conf.root (List.replicate d false) = some n ∧ isLeaf (s.mem.nodeAt n) = true ∧
      d ≤ s.conf.maxlen.toNat ∧ s.conf.dlimit = 0#32 ∧ p % d = 0) ∧
    (∃ (s : State) (p d : Nat) (n : NodeIdx), s.reader.ropenf = true ∧ s.reader.rcnt.toNat ≤ 8 ∧ ConfigOk s ∧
      bitsToCome s = List.replicate p false ∧ path s.mem s.conf.root (List.replicate d false) = some n ∧
      isLeaf (s.mem.nodeAt n) = true ∧ d ≤ s.conf.maxlen.toNat ∧ s.conf.dlimit = 0#32 ∧ p % d ≠ 0) := by
  constructor
  · refine ⟨configured twoLeaves 1#6 (reading 0#8 0#4 [0x80#8]), [0x42#8], 7, 1, 1#9, by decide, by decide, by decide,
      by decide, by decide, ?_, by decide, by decide, by decide, by decide, by decide, by decide⟩
    intro x hx
    exact twoLeaves_consistent rfl rfl rfl x (by revert hx; revert x; decide)
  · exact ⟨configured { node := [(0, 0x00000201#32), (1, 0x00000202#32), (2, 0x80000041#32)], ct := [] } 2#6
      (reading 0#8 7#4 []), 7, 2, 2#9, by decide⟩

/-- Two different present symbols of a consistent configuration. -/
theorem witness_prefix_free : ∃ (s : State) (x y : Sym), Consistent s ∧ (s.mem.codeAt x).valid = true ∧
    (s.mem.codeAt y).valid = true ∧ x ≠ y :=
  ⟨configured twoLeaves 1#6 State.reset, 0x41#8, 0x42#8, twoLeaves_consistent rfl rfl rfl, by decide⟩

/-- Eight symbols of the two-leaf tree: limits 8, and none since the bit total is 8. -/
theorem witness_round_trip : ∃ s : State, s.writer.wopenf = false ∧ s.reader.ropenf = false ∧ ConfigOk s ∧ Consistent s ∧
    (∀ x ∈ s.env.symIn, (s.mem.codeAt x).valid = true) ∧ SinkErrorFree s.env ∧ SymbolsAnswered s.env ∧ s.env.sink = [] ∧
    s.env.symOut = [] ∧ 1 ≤ s.env.symIn.length ∧ (8#32).toNat = s.env.symIn.length ∧
    (symbolBits s.mem s.env.symIn).length % 8 = 0 :=
  ⟨{ configured twoLeaves 1#6 State.reset with
      env := { Env.atReset with symIn := [0x41#8, 0x42#8, 0x42#8, 0x41#8, 0x41#8, 0x42#8, 0x41#8, 0x42#8] } },
    by decide, by decide, by decide, twoLeaves_consistent rfl rfl rfl, by decide, by decide, by decide, by decide, by decide,
    by decide, by decide, by decide⟩

theorem witness_empty_passes :
    (∃ s : State, s.writer.wopenf = false ∧ s.env.symIn = [] ∧ SinkErrorFree s.env ∧ SymbolsAnswered s.env) ∧
    (∃ s : State, s.reader.ropenf = false ∧ s.env.source = [] ∧ ConfigOk s ∧ SourceErrorFree s.env) :=
  ⟨⟨State.reset, by decide⟩, ⟨configured twoLeaves 1#6 State.reset, by decide⟩⟩

/-- The invariants hold where a step happens, in a state with a partial byte, held bits and a recorded error. -/
theorem witness_invariants : ∃ s t : State, WriterInv s ∧ ReaderInv s ∧ DecoderInv s ∧ StatusInv s ∧ StoresInv s ∧
    s.writer.wcnt = 7#3 ∧ step s = .next t :=
  ⟨{ configured twoLeaves 1#6 (writing 0x54#8 7#3) with
      writer := { Writer.atReset with wbuf := 0x54#8, wcnt := 7#3, wbits := 7#32, wopenf := true }
      regs := { Regs.atReset with status := 0x00000303#32, faults := 0x008#32 }
      host := { pending := [.write 0x0000 0x00002001#32], reads := [] } },
    _, by decide, by decide, by decide, by decide, by decide, by decide, rfl⟩

end Sys2Proof.Tests
end

section
/-!
What a host action and a command can do, said once: a command runs one body inside the frame `runCommand`, the body writes no
store, no configuration and of the registers only `RESULT`, and then either completes or takes an error
(spec/60_exceptions.md R184).
-/
namespace Sys2Proof.Machine

variable {p : Params}

/-! ## A command is its precondition and its body -/

/-- The precondition of a command (spec/40_bitwriter.md R80, 41_bitreader.md R100, 42_encoder.md R120). -/
def preOf (i : Instr) (s : State p) : Option StateSub :=
  match i with
  | .wopen _ => needWriterClosed s
  | .wbit _ | .wbyte _ | .wclose | .encsym _ | .encode => needWriterOpen s
  | .ropen _ => needReaderClosed s
  | .rbit | .rbyte | .rclose | .decsym | .decode => needReaderOpen s

/-- The body of a command, run when its precondition holds (60_exceptions.md R184). -/
def bodyOf (i : Instr) (s : State p) : Run p ResKind :=
  match i with
  | .wopen leave => wopenBody leave s
  | .wbit b => (writeBit b s).bind fun _ s => .done .none s
  | .wbyte v => (writeBits v 8 s).bind fun _ s => .done .none s
  | .wclose => (closeWriter s).bind fun _ s => .done .none s
  | .ropen leave => ropenBody leave s
  | .rbit => (readBit s).bind bitToResult
  | .rbyte => readByteLoop 8 0#8 s
  | .rclose => closeReader s
  | .encsym x => (encodeSymbol (symOperand x p) s).bind fun _ s => .done .none s
  | .encode => (encodeAll s).bind fun _ s => .done .none s
  | .decsym => (decodeSymbol s).bind symbolToResult
  | .decode => decodeAll s

theorem execIn_eq_runCommand (i : Instr) (s : State p) : execIn i s = runCommand (preOf i s) (bodyOf i) s := by
  cases i <;> rfl

/-! ## What no body writes -/

/-- From `s` to `t` nothing was written that no command body writes: the configuration, the stores, the host's side, and of the
command and result registers all but `RESULT`. -/
structure BodyKeeps (s t : State p) : Prop where
  conf : t.conf = s.conf
  mem : t.mem = s.mem
  host : t.host = s.host
  regs : t.regs = { s.regs with result := t.regs.result }

theorem BodyKeeps.refl (s : State p) : BodyKeeps s s := ⟨rfl, rfl, rfl, rfl⟩

theorem BodyKeeps.trans {s t u : State p} (h : BodyKeeps s t) (k : BodyKeeps t u) : BodyKeeps s u :=
  ⟨k.conf.trans h.conf, k.mem.trans h.mem, k.host.trans h.host, by rw [k.regs, h.regs]⟩

theorem BodyKeeps.faults {s t : State p} (h : BodyKeeps s t) : t.regs.faults = s.regs.faults := by rw [h.regs]

theorem BodyKeeps.ioinfo {s t : State p} (h : BodyKeeps s t) : t.regs.ioinfo = s.regs.ioinfo := by rw [h.regs]

theorem bodyKeeps_setResult (s : State p) (v : Word) : BodyKeeps s (s.setResult v) := ⟨rfl, rfl, rfl, rfl⟩

theorem bodyKeeps_of_hideEncoder {s t : State p} (h : hideEncoder t = hideEncoder s) : BodyKeeps s t :=
  ⟨congrArg (fun u => u.conf) h, congrArg (fun u => u.mem) h, congrArg (fun u => u.host) h,
    congrArg (fun u => { u.regs with result := t.regs.result }) h⟩

theorem bodyKeeps_of_hideDecoder {s t : State p} (h : hideDecoder t = hideDecoder s) : BodyKeeps s t :=
  ⟨congrArg (fun u => u.conf) h, congrArg (fun u => u.mem) h, congrArg (fun u => u.host) h,
    congrArg (fun u => { u.regs with result := t.regs.result }) h⟩

theorem bodyKeeps_of_hideWriter {s t : State p} (h : hideWriter t = hideWriter s) : BodyKeeps s t :=
  bodyKeeps_of_hideEncoder (hideEncoder_of_hideWriter h)

theorem bodyKeeps_of_hideReader {s t : State p} (h : hideReader t = hideReader s) : BodyKeeps s t :=
  bodyKeeps_of_hideDecoder (hideDecoder_of_hideReader h)

/-- A sub-step and what the command does with its outcome keep what each of them keeps. -/
theorem Run.ends_bind_keeps {α β : Type} {s : State p} {x : Run p α} {f : α → State p → Run p β} (hx : x.Ends (BodyKeeps s))
    (hf : ∀ a u, (f a u).Ends (BodyKeeps u)) : (x.bind f).Ends (BodyKeeps s) :=
  Run.ends_bind hx (fun a u hu => (hf a u).imp fun _ ht => hu.trans ht) fun _ hu => hu

theorem bitToResult_keeps (r : BitResult) (s : State p) : (bitToResult r s).Ends (BodyKeeps s) := by
  cases r <;> exact bodyKeeps_setResult s _

theorem symbolToResult_keeps (r : SymResult p) (s : State p) : (symbolToResult r s).Ends (BodyKeeps s) := by
  cases r with
  | symbol x => exact BodyKeeps.refl s
  | endOfInput => exact bodyKeeps_setResult s _

theorem decodeAll_keeps (s : State p) : (decodeAll s).Ends (BodyKeeps s) := by
  unfold decodeAll
  split
  · exact BodyKeeps.refl s
  · exact (decodeLoop_frame _ s).imp fun _ => bodyKeeps_of_hideDecoder

theorem bodyOf_keeps (i : Instr) (s : State p) : (bodyOf i s).Ends (BodyKeeps s) := by
  cases i with
  | wopen leave => exact ⟨rfl, rfl, rfl, rfl⟩
  | wbit b =>
    exact Run.ends_bind_keeps ((writeBit_frame b s).imp fun _ => bodyKeeps_of_hideWriter) fun _ => BodyKeeps.refl
  | wbyte v =>
    exact Run.ends_bind_keeps ((writeBits_frame v 8 s).imp fun _ => bodyKeeps_of_hideWriter) fun _ => BodyKeeps.refl
  | wclose =>
    exact Run.ends_bind_keeps ((closeWriter_frame s).imp fun _ => bodyKeeps_of_hideWriter) fun _ => BodyKeeps.refl
  | ropen leave => exact ⟨rfl, rfl, rfl, rfl⟩
  | rbit => exact Run.ends_bind_keeps ((readBit_frame s).imp fun _ => bodyKeeps_of_hideReader) bitToResult_keeps
  | rbyte => exact (readByteLoop_frame 8 0#8 s).imp fun _ => bodyKeeps_of_hideDecoder
  | rclose => exact (closeReader_frame s).imp fun _ => bodyKeeps_of_hideReader
  | encsym x =>
    exact Run.ends_bind_keeps ((encodeSymbol_frame _ s).imp fun _ => bodyKeeps_of_hideEncoder) fun _ => BodyKeeps.refl
  | encode =>
    exact Run.ends_bind_keeps ((encodeLoop_frame _ s).imp fun _ => bodyKeeps_of_hideEncoder) fun _ => BodyKeeps.refl
  | decsym =>
    exact Run.ends_bind_keeps ((decodeSymbol_frame s).imp fun _ => bodyKeeps_of_hideDecoder) symbolToResult_keeps
  | decode => exact decodeAll_keeps s

/-! ## The code of an I/O error is one the environment answered -/

/-- The answers the environment will give to the calls of the byte ports, the only ones that can fail
(20_memory.md R45 to R48). -/
def Env.byteAnswers (e : Env p) : List PortAnswer :=
  e.sinkWriteAns ++ e.sinkReleaseAns ++ e.sourceReadAns ++ e.sourceReleaseAns

theorem UsedUp.subset {α : Type} {no : α} {l m : List α} (h : UsedUp no l m) : m ⊆ l := by
  obtain ⟨used, rfl, -⟩ := h
  exact List.subset_append_right used m

/-- Calling ports only uses answers up. -/
theorem byteAnswers_subset_of_met {e e' : Env p} (h : ∀ port, answersMet port e e') : e'.byteAnswers ⊆ e.byteAnswers := by
  have hw : e'.sinkWriteAns ⊆ e.sinkWriteAns := UsedUp.subset (h .sinkWrite)
  have hr : e'.sinkReleaseAns ⊆ e.sinkReleaseAns := UsedUp.subset (h .sinkRelease)
  have hs : e'.sourceReadAns ⊆ e.sourceReadAns := UsedUp.subset (h .sourceRead)
  have ht : e'.sourceReleaseAns ⊆ e.sourceReleaseAns := UsedUp.subset (h .sourceRelease)
  intro a
  simp only [Env.byteAnswers, List.mem_append]
  exact Or.imp (Or.imp (Or.imp (@hw a) (@hr a)) (@hs a)) (@ht a)

theorem mem_of_nextAnswer_ioError {l : List PortAnswer} {e : Word} (h : nextAnswer l = .ioError e) :
    PortAnswer.ioError e ∈ l := by
  cases l with
  | nil => cases h
  | cons a l => simp [show a = .ioError e from h]

/-- If it is an I/O error, its code is that of an answer in the list. -/
def Raise.CodeIn (l : List PortAnswer) : Raise → Prop
  | .io _ e => PortAnswer.ioError e ∈ l
  | .unknownSymbol | .corrupt _ | .badCommand _ | .badState _ | .badConfig _ => True

/-- If the sink or a release answered an error, its code is that of an answer in the list. -/
def Reply.CodeIn (l : List PortAnswer) : Reply → Prop
  | .ok => True
  | .ioError e => PortAnswer.ioError e ∈ l

/-- If the source answered an error, its code is that of an answer in the list. -/
def SourceReply.CodeIn (l : List PortAnswer) : SourceReply → Prop
  | .byte _ | .endOfInput => True
  | .ioError e => PortAnswer.ioError e ∈ l

/-- If `WCLOSE` has met an error (40_bitwriter.md R84), its code is that of an answer in the list. -/
def ErrorIn (l : List PortAnswer) : Option (IoSub × Word) → Prop
  | none => True
  | some (_, e) => PortAnswer.ioError e ∈ l

theorem Raise.CodeIn.mono {l m : List PortAnswer} {r : Raise} (h : Raise.CodeIn l r) (hlm : l ⊆ m) : Raise.CodeIn m r := by
  cases r with
  | io c e => exact hlm h
  | _ => trivial

theorem Reply.CodeIn.mono {l m : List PortAnswer} {r : Reply} (h : Reply.CodeIn l r) (hlm : l ⊆ m) : Reply.CodeIn m r := by
  cases r with
  | ok => trivial
  | ioError e => exact hlm h

section
variable {α β : Type}

/-- The run does not raise, and if it returns, `Q` holds of what it returns and where. -/
def Run.Returns (Q : α → State p → Prop) : Run p α → Prop
  | .done a t => Q a t
  | .raise _ _ => False
  | .never _ => True

theorem Run.Returns.bind {Q : α → State p → Prop} {R : β → State p → Prop} {x : Run p α} {f : α → State p → Run p β}
    (hx : x.Returns Q) (hf : ∀ a t, Q a t → (f a t).Returns R) : (x.bind f).Returns R := by
  cases x with
  | done a t => exact hf a t hx
  | raise r t => exact hx.elim
  | never port => trivial

/-- After a sub-step that only returns, what is raised is raised by the second. -/
theorem Run.Returns.bind_raises {Q : α → State p → Prop} {P : Raise → Prop} {x : Run p α} {f : α → State p → Run p β}
    (hx : x.Returns Q) (hf : ∀ a t, Q a t → (f a t).Raises P) : (x.bind f).Raises P := by
  cases x with
  | done a t => exact hf a t hx
  | raise r t => exact hx.elim
  | never port => trivial

theorem Run.Returns.and_subset {Q : α → State p → Prop} {x : Run p α} {e : Env p} (hx : x.Returns Q) (hm : x.Met e) :
    x.Returns fun a t => Q a t ∧ t.env.byteAnswers ⊆ e.byteAnswers := by
  cases x with
  | done a t => exact ⟨hx, byteAnswers_subset_of_met hm⟩
  | raise r t => exact hx
  | never port => trivial

/-- Two sub-steps one after the other: the second finds only answers the first left. -/
theorem Run.Raises.bind_codeIn {e : Env p} {x : Run p α} {f : α → State p → Run p β}
    (hx : x.Raises (Raise.CodeIn e.byteAnswers)) (hm : x.Met e)
    (hf : ∀ a t, (f a t).Raises (Raise.CodeIn t.env.byteAnswers)) : (x.bind f).Raises (Raise.CodeIn e.byteAnswers) := by
  cases x with
  | done a t => exact (hf a t).imp fun _ hr => hr.mono (byteAnswers_subset_of_met hm)
  | raise r t => exact hx
  | never port => trivial

end

theorem sinkWrite_returns (b : Byte) (s : State p) :
    (sinkWrite b s).Returns fun r _ => Reply.CodeIn s.env.byteAnswers r := by
  cases h : nextAnswer s.env.sinkWriteAns with
  | ok => rw [sinkWrite_ok h]; trivial
  | ioError e => rw [sinkWrite_ioError h]; simp [Run.Returns, Reply.CodeIn, Env.byteAnswers, mem_of_nextAnswer_ioError h]
  | never => rw [sinkWrite_never h]; trivial

theorem sinkRelease_returns (s : State p) : (sinkRelease s).Returns fun r _ => Reply.CodeIn s.env.byteAnswers r := by
  cases h : nextAnswer s.env.sinkReleaseAns with
  | ok => rw [sinkRelease_ok h]; trivial
  | ioError e => rw [sinkRelease_ioError h]; simp [Run.Returns, Reply.CodeIn, Env.byteAnswers, mem_of_nextAnswer_ioError h]
  | never => rw [sinkRelease_never h]; trivial

theorem sourceRead_returns (s : State p) : (sourceRead s).Returns fun r _ => SourceReply.CodeIn s.env.byteAnswers r := by
  cases h : nextAnswer s.env.sourceReadAns with
  | ok =>
    cases hs : s.env.source with
    | nil => rw [sourceRead_end h hs]; trivial
    | cons y rest => rw [sourceRead_byte h hs]; trivial
  | ioError e =>
    rw [sourceRead_ioError h]; simp [Run.Returns, SourceReply.CodeIn, Env.byteAnswers, mem_of_nextAnswer_ioError h]
  | never => rw [sourceRead_never h]; trivial

theorem sourceRelease_returns (s : State p) : (sourceRelease s).Returns fun r _ => Reply.CodeIn s.env.byteAnswers r := by
  cases h : nextAnswer s.env.sourceReleaseAns with
  | ok => rw [sourceRelease_ok h]; trivial
  | ioError e => rw [sourceRelease_ioError h]; simp [Run.Returns, Reply.CodeIn, Env.byteAnswers, mem_of_nextAnswer_ioError h]
  | never => rw [sourceRelease_never h]; trivial

theorem writeBit_codeIn (b : Bool) (s : State p) : (writeBit b s).Raises (Raise.CodeIn s.env.byteAnswers) := by
  unfold writeBit; dsimp only
  split
  · refine (sinkWrite_returns _ _).bind_raises fun r t hr => ?_
    cases r with
    | ok => trivial
    | ioError e => exact hr
  · trivial

theorem writeBits_codeIn {w : Nat} (raw : BitVec w) (n : Nat) (s : State p) :
    (writeBits raw n s).Raises (Raise.CodeIn s.env.byteAnswers) := by
  induction n generalizing s with
  | zero => trivial
  | succ n ih => exact (writeBit_codeIn _ s).bind_codeIn (writeBit_met _ s) fun _ t => ih t

theorem flushPartial_returns (s : State p) : (flushPartial s).Returns fun err _ => ErrorIn s.env.byteAnswers err := by
  unfold flushPartial
  split
  · trivial
  · refine (sinkWrite_returns _ _).bind fun r t hr => ?_
    cases r with
    | ok => trivial
    | ioError e => exact hr

theorem firstIoError_errorIn {l : List PortAnswer} {err : Option (IoSub × Word)} {r : Reply} (sub : IoSub)
    (he : ErrorIn l err) (hr : Reply.CodeIn l r) : ErrorIn l (firstIoError err sub r) := by
  cases err with
  | some err => exact he
  | none =>
    cases r with
    | ok => trivial
    | ioError e => exact hr

theorem releaseSink_returns {l : List PortAnswer} {err : Option (IoSub × Word)} {s : State p} (he : ErrorIn l err)
    (hs : s.env.byteAnswers ⊆ l) : (releaseSink err s).Returns fun err' _ => ErrorIn l err' := by
  unfold releaseSink
  split
  · exact he
  · exact (sinkRelease_returns s).bind fun r _ hr => firstIoError_errorIn .sinkRelease he (hr.mono hs)

theorem closeWriter_codeIn (s : State p) : (closeWriter s).Raises (Raise.CodeIn s.env.byteAnswers) := by
  refine ((flushPartial_returns s).and_subset (flushPartial_met s)).bind_raises fun err t ⟨he, ht⟩ => ?_
  refine (releaseSink_returns he ht).bind_raises fun err' u he' => ?_
  cases err' with
  | none => trivial
  | some err' => exact he'

theorem encodeSymbol_codeIn (x : Sym p) (s : State p) :
    (encodeSymbol x s).Raises (Raise.CodeIn s.env.byteAnswers) := by
  unfold encodeSymbol; dsimp only
  split
  · trivial
  · split
    · trivial
    · exact writeBits_codeIn _ _ s

theorem encodeLoop_codeIn (n : Nat) (s : State p) : (encodeLoop n s).Raises (Raise.CodeIn s.env.byteAnswers) := by
  induction n generalizing s with
  | zero => exact closeWriter_codeIn s
  | succ n ih =>
    refine (symRead_raises _ s).bind_codeIn (symRead_met s) fun r t => ?_
    cases r with
    | none => exact closeWriter_codeIn t
    | some x => exact (encodeSymbol_codeIn x t).bind_codeIn (encodeSymbol_met x t) fun _ u => ih u

theorem readBit_codeIn (s : State p) : (readBit s).Raises (Raise.CodeIn s.env.byteAnswers) := by
  unfold readBit
  split
  · split
    · trivial
    · refine (sourceRead_returns s).bind_raises fun r t hr => ?_
      cases r with
      | ioError e => exact hr
      | endOfInput => trivial
      | byte y => trivial
  · trivial

theorem readByteLoop_codeIn (n : Nat) (v : Byte) (s : State p) :
    (readByteLoop n v s).Raises (Raise.CodeIn s.env.byteAnswers) := by
  induction n generalizing v s with
  | zero => trivial
  | succ n ih =>
    refine (readBit_codeIn s).bind_codeIn (readBit_met s) fun r t => ?_
    cases r with
    | endOfInput => trivial
    | bit b => exact ih _ t

theorem closeReader_codeIn (s : State p) : (closeReader s).Raises (Raise.CodeIn s.env.byteAnswers) := by
  unfold closeReader
  split
  · trivial
  · refine (sourceRelease_returns s).bind_raises fun r t hr => ?_
    cases r with
    | ok => trivial
    | ioError e => exact hr

theorem walkBit_codeIn (l : List PortAnswer) (b : Bool) (s : State p) : (walkBit b s).Raises (Raise.CodeIn l) := by
  unfold walkBit; dsimp only
  split
  · trivial
  · split <;> trivial

theorem walkLoop_codeIn (n : Nat) (s : State p) : (walkLoop n s).Raises (Raise.CodeIn s.env.byteAnswers) := by
  induction n generalizing s with
  | zero => trivial
  | succ n ih =>
    refine (readBit_codeIn s).bind_codeIn (readBit_met s) fun r t => ?_
    cases r with
    | endOfInput => dsimp only; split <;> trivial
    | bit b =>
      refine (walkBit_codeIn _ b t).bind_codeIn (walkBit_met b t) fun node u => ?_
      split
      · exact (symWrite_raises _ _ u).bind fun _ _ => trivial
      · exact ih u

theorem decodeSymbol_codeIn (s : State p) : (decodeSymbol s).Raises (Raise.CodeIn s.env.byteAnswers) := by
  unfold decodeSymbol
  split
  · trivial
  · exact walkLoop_codeIn _ _

theorem decodeLoop_codeIn (n : Nat) (s : State p) : (decodeLoop n s).Raises (Raise.CodeIn s.env.byteAnswers) := by
  induction n generalizing s with
  | zero => trivial
  | succ n ih =>
    unfold decodeLoop
    split
    · trivial
    · refine (decodeSymbol_codeIn s).bind_codeIn (decodeSymbol_met s) fun r t => ?_
      cases r with
      | endOfInput => trivial
      | symbol x => exact ih t

theorem decodeAll_codeIn (s : State p) : (decodeAll s).Raises (Raise.CodeIn s.env.byteAnswers) := by
  unfold decodeAll
  split
  · trivial
  · exact decodeLoop_codeIn _ s

theorem bodyOf_codeIn (i : Instr) (s : State p) : (bodyOf i s).Raises (Raise.CodeIn s.env.byteAnswers) := by
  cases i with
  | wopen leave => trivial
  | wbit b => exact (writeBit_codeIn b s).bind fun _ _ => trivial
  | wbyte v => exact (writeBits_codeIn v 8 s).bind fun _ _ => trivial
  | wclose => exact (closeWriter_codeIn s).bind fun _ _ => trivial
  | ropen leave => trivial
  | rbit => exact (readBit_codeIn s).bind fun r _ => by cases r <;> trivial
  | rbyte => exact readByteLoop_codeIn 8 0#8 s
  | rclose => exact closeReader_codeIn s
  | encsym x => exact (encodeSymbol_codeIn _ s).bind fun _ _ => trivial
  | encode => exact (encodeLoop_codeIn _ s).bind fun _ _ => trivial
  | decsym => exact (decodeSymbol_codeIn s).bind fun r _ => by cases r <;> trivial
  | decode => exact decodeAll_codeIn s

/-! ## How a command ends -/

/-- The two ways a command begun in `s` ends in `t`: after a body that kept what every body keeps, it completes or it takes an
error; the code of an I/O error is one the environment of `s` had to answer (60_exceptions.md R184, R192). -/
inductive CommandEnd (s t : State p) : Prop where
  | completed (k : ResKind) (u : State p) (hu : BodyKeeps s u) (ht : t = complete k u)
  | raised (r : Raise) (u : State p) (hu : BodyKeeps s u) (hr : Raise.CodeIn s.env.byteAnswers r) (ht : t = takeError r u)

theorem execIn_commandEnd {i : Instr} {s t : State p} (h : execIn i s = .next t) : CommandEnd s t := by
  have hk := bodyOf_keeps i s
  have hc := bodyOf_codeIn i s
  rw [execIn_eq_runCommand, runCommand_eq_next] at h
  obtain ⟨c, -, ht⟩ | ⟨-, ⟨k, u, hb, ht⟩ | ⟨r, u, hb, ht⟩⟩ := h
  · exact .raised (.badState c) s (BodyKeeps.refl s) trivial ht
  · rw [hb] at hk; exact .completed k u hk ht
  · rw [hb] at hk hc; exact .raised r u hk hc ht

theorem execute_commandEnd {w : Word} {s t : State p} (h : execute w s = .next t) : CommandEnd (s.setCmd w) t := by
  unfold execute at h
  split at h
  · next e _ =>
    obtain rfl := Host.Outcome.next.inj h
    exact .raised (.badCommand e) _ (BodyKeeps.refl _) trivial rfl
  · exact execIn_commandEnd h

theorem CommandEnd.mem {s t : State p} (h : CommandEnd s t) : t.mem = s.mem := by
  cases h with
  | completed k u hu ht => rw [ht, complete_mem, hu.mem]
  | raised r u hu hr ht => rw [ht, takeError_mem, hu.mem]

/-! ## What a host action can do -/

/-- The four things a host action that leads from `s` to `t` can be: the execution of a word, the storing of a register, the
reset input, or nothing but a change of what stands outside the unit. -/
inductive HostEffect (a : HostAction p) (s t : State p) : Prop where
  | command (w : Word) (h : execute w s = .next t)
  | register (r : Reg p) (v : Word) (ht : t = writeReg r v s)
  | reset (ha : a = .reset) (ht : t = resetUnit s)
  | outside (ht : t = (s.setEnv t.env).setHost t.host)

theorem hostAct_effect {a : HostAction p} {s t : State p} (h : hostAct a s = .next t) : HostEffect a s t := by
  cases a with
  | write addr v =>
    simp only [hostAct, busWrite] at h
    split at h
    · split at h
      · exact .command v h
      · exact .register _ v (Host.Outcome.next.inj h).symm
      · cases h; exact .outside rfl
    · cases h
  | read addr =>
    simp only [hostAct] at h
    split at h
    · cases h; exact .outside rfl
    · cases h
  | reset => exact .reset rfl (Host.Outcome.next.inj h).symm
  | presentSink held writeAns releaseAns => cases h; exact .outside rfl
  | presentSource bytes readAns releaseAns => cases h; exact .outside rfl
  | presentSymIn syms ans => cases h; exact .outside rfl
  | presentSymOut held ans => cases h; exact .outside rfl

theorem nextAction_eq_next {s t : State p} (h : nextAction s = .next t) :
    t = s ∨ ∃ a rest, s.host.pending = a :: rest ∧ hostAct a (s.setHost { s.host with pending := rest }) = .next t := by
  unfold nextAction at h
  split at h
  · exact .inl (Host.Outcome.next.inj h).symm
  · next a rest hp => exact .inr ⟨a, rest, hp, h⟩

end Sys2Proof.Machine
end

section
/-!
The state family (spec/10_state.md): the stores stay in canonical form, `FAULTS` and `IOINFO`, reset.
-/
namespace Sys2Proof.Machine

variable {p : Params}

/-! ## The stores -/

theorem writeReg_wf (r : Reg p) (v : Word) {s : State p} (h : s.mem.wf = true) : (writeReg r v s).mem.wf = true := by
  cases r with
  | node i => exact Memory.wf_setNode i v h
  | ctRaw x => exact Memory.wf_setCode x _ h
  | ctLen x => exact Memory.wf_setCode x _ h
  | _ => exact h

theorem hostAct_wf {a : HostAction p} {s t : State p} (h : hostAct a s = .next t) (hs : s.mem.wf = true) :
    t.mem.wf = true := by
  cases hostAct_effect h with
  | command w hw => rw [(execute_commandEnd hw).mem]; exact hs
  | register r v ht => rw [ht]; exact writeReg_wf r v hs
  | reset ha ht => rw [ht]; exact Memory.wf_atReset
  | outside ht => rw [ht]; exact hs

theorem nextAction_wf {s t : State p} (h : nextAction s = .next t) (hs : s.mem.wf = true) : t.mem.wf = true := by
  obtain rfl | ⟨a, rest, -, ha⟩ := nextAction_eq_next h
  · exact hs
  · exact hostAct_wf ha hs

/-- Settles O59: the host's writes put an entry in canonical form, a reset empties the stores, no command writes them. -/
theorem everyStepKeepsTheStoresCanonical : Obligations.EveryStepKeepsTheStoresCanonical := by
  intro s t hs h
  exact nextAction_wf h hs

/-! ## `FAULTS` -/

theorem Raise.code_ne_zero (r : Raise) : r.kind.code ≠ 0#4 := by
  cases r <;> simp [Raise.kind, ErrKind.code]

/-- The bit of `FAULTS` that a command which ends with this `ERR` sets (10_state.md R31). -/
def errBit (err : BitVec 4) : Word := if err = 0#4 then 0#32 else 1#32 <<< err.toNat

theorem CommandEnd.faults {s t : State p} (h : CommandEnd s t) :
    t.regs.faults = s.regs.faults ||| errBit (errField t.regs.status) := by
  cases h with
  | completed k u hu ht =>
    rw [ht, complete_regs, errField_statusOk, ← hu.faults]
    exact BitVec.or_zero.symm
  | raised r u hu hr ht =>
    rw [ht, takeError_faults, takeError_status, errField_statusOf, hu.faults, errBit, if_neg r.code_ne_zero, faultBit]

theorem execute_faults {w : Word} {s t : State p} (h : execute w s = .next t) :
    t.regs.faults = s.regs.faults ||| errBit (errField t.regs.status) := (execute_commandEnd h).faults

/-- A bit of `FAULTS` outlives every host action but the reset (10_state.md R31). -/
theorem hostAct_keeps_fault {a : HostAction p} {s t : State p} {k : Nat} (ha : a ≠ .reset) (h : hostAct a s = .next t)
    (hk : s.regs.faults.getLsbD k = true) : t.regs.faults.getLsbD k = true := by
  cases hostAct_effect h with
  | command w hw => rw [execute_faults hw, BitVec.getLsbD_or, hk, Bool.true_or]
  | register r v ht =>
    obtain ⟨-, -, -, hregs, -, -⟩ := writeReg_leaves r v s
    rw [ht, hregs, hk]
  | reset hreset _ => exact absurd hreset ha
  | outside ht => rw [ht]; exact hk

/-- Settles O15: both ends of a command write `FAULTS` as R31 says, and no other host action but the reset writes it. -/
theorem faultsRecordEveryErrorUntilReset : Obligations.FaultsRecordEveryErrorUntilReset :=
  ⟨fun _ _ _ h => execute_faults h, fun _ _ _ _ ha h hk => hostAct_keeps_fault ha h hk⟩

/-! ## `IOINFO` -/

theorem CommandEnd.ioinfo {s t : State p} (h : CommandEnd s t) :
    (errField t.regs.status ≠ 5#4 → t.regs.ioinfo = s.regs.ioinfo) ∧
    (errField t.regs.status = 5#4 → PortAnswer.ioError t.regs.ioinfo ∈ s.env.byteAnswers) := by
  cases h with
  | completed k u hu ht =>
    rw [ht, complete_regs, errField_statusOk]
    exact ⟨fun _ => hu.ioinfo, fun h5 => absurd h5 (by decide)⟩
  | raised r u hu hr ht =>
    rw [ht, takeError_status, errField_statusOf, takeError_ioinfo]
    cases r with
    | io c e => exact ⟨fun h5 => absurd rfl h5, fun _ => hr⟩
    | _ => exact ⟨fun _ => hu.ioinfo, fun h5 => absurd h5 (by simp [Raise.kind, ErrKind.code])⟩

/-- Settles O16: only error entry writes `IOINFO`, with the code of an I/O error, which some port call answered. -/
theorem ioinfoHoldsThePortsOwnCode : Obligations.IoinfoHoldsThePortsOwnCode := by
  intro i s t h
  rw [← execIn_default] at h
  exact (execIn_commandEnd h).ioinfo

/-! ## Reset -/

/-- Settles O12: the reset input writes the values `State.reset` has, and nothing outside the unit. -/
theorem resetPutsEveryRegisterAtItsValue : Obligations.ResetPutsEveryRegisterAtItsValue := by
  refine ⟨fun t ht => ?_, fun s => ⟨resetUnit s, rfl, rfl, rfl⟩⟩
  obtain rfl | ⟨s, hs⟩ := ht
  · exact ⟨rfl, rfl, rfl, rfl, fun _ => rfl, fun _ => rfl, rfl⟩
  · obtain rfl := Host.Outcome.next.inj hs
    exact ⟨rfl, rfl, rfl, rfl, fun _ => rfl, fun _ => rfl, rfl⟩

/-- Settles O60: at reset every register is 0, both wrappers are closed and both stores are empty. -/
theorem resetMeetsEveryInvariant : Obligations.ResetMeetsEveryInvariant := by
  refine ⟨?writer, ?reader, ?decoder, ?status, Memory.wf_atReset⟩
  case writer => exact ⟨by decide, fun _ => ⟨rfl, rfl⟩, by decide⟩
  case reader => exact ⟨by decide, fun _ => rfl, by decide⟩
  case decoder => exact ⟨by decide, fun _ _ => ⟨rfl, rfl⟩⟩
  case status => exact ⟨by decide, by decide, by decide⟩

end Sys2Proof.Machine
end

section
/-!
The register bus, said once: what a read of each register gives, what a write does to it and to every other register, and what an
offset with no register does (spec/20_memory.md R41 to R43).
-/
namespace Sys2Proof.Machine

variable {p : Params}

/-! ## Offsets and registers -/

theorem Reg.addr_mod_four (r : Reg p) : r.addr % 4 = 0 := by
  cases r with
  | node i => simp only [Reg.addr]; omega
  | ctRaw x => simp only [Reg.addr]; omega
  | ctLen x => simp only [Reg.addr]; omega
  | _ => simp [Reg.addr]

@[simp] theorem regAt_addr (r : Reg p) : regAt r.addr p = some r := (regAt_eq_some r.addr_mod_four).mpr rfl

@[simp] theorem busRead_addr (r : Reg p) (s : State p) : busRead r.addr s = readReg r s := by simp [busRead]

theorem hostAct_write_addr {r : Reg p} (hr : r ≠ .cmd) (v : Word) (s : State p) :
    hostAct (.write r.addr v) s = .next (writeReg r v s) := by
  rw [hostAct, if_pos r.addr_mod_four, busWrite, regAt_addr]
  cases r with
  | cmd => exact absurd rfl hr
  | _ => rfl

/-- The write to `CMD` executes the word (20_memory.md R41). -/
theorem hostAct_write_cmd (w : Word) (s : State p) : hostAct (.write 0x0000 w) s = execute w s := rfl

/-- An unmapped offset reads 0 and ignores writes (20_memory.md R43). -/
theorem unmapped_access {addr : Nat} (ha : addr % 4 = 0) (h : regAt addr p = none) (v : Word) (s : State p) :
    busRead addr s = 0#32 ∧ hostAct (.write addr v) s = .next s := by
  simp [busRead, hostAct, busWrite, ha, h]

/-- The two things a host write to an offset other than that of `CMD` can be. -/
theorem hostAct_write_eq_next {addr : Nat} {v : Word} {s t : State p} (h0 : addr ≠ 0x0000)
    (h : hostAct (.write addr v) s = .next t) : t = s ∨ ∃ r : Reg p, addr = r.addr ∧ t = writeReg r v s := by
  by_cases ha : addr % 4 = 0
  · cases hr : regAt addr p with
    | none =>
      rw [(unmapped_access ha hr v s).2] at h
      exact .inl (Host.Outcome.next.inj h).symm
    | some r =>
      obtain rfl := (regAt_eq_some ha).mp hr
      have hcmd : r ≠ .cmd := fun e => h0 (congrArg Reg.addr e)
      rw [hostAct_write_addr hcmd] at h
      exact .inr ⟨r, rfl, (Host.Outcome.next.inj h).symm⟩
  · rw [hostAct, if_neg ha] at h
    cases h

/-! ## What a write to one register does to another -/

/-- A view `f` of every entry stays as it was when the one entry written has the same view after as before. -/
theorem Memory.codeAt_setCode_congr {β : Type} (f : CodeEntry p → β) (m : Memory p) {x y : Sym p} {e : CodeEntry p}
    (h : y = x → f e = f (m.codeAt x)) : f ((m.setCode x e).codeAt y) = f (m.codeAt y) := by
  by_cases hxy : y = x
  · subst hxy
    rw [Memory.codeAt_setCode_same, h rfl]
  · rw [Memory.codeAt_setCode_other m e hxy]

theorem readReg_writeReg_other {r q : Reg p} (h : q ≠ r) (v : Word) (s : State p) :
    readReg q (writeReg r v s) = readReg q s := by
  cases r with
  | root => cases q with
    | root => exact absurd rfl h
    | _ => rfl
  | maxlen => cases q with
    | maxlen => exact absurd rfl h
    | _ => rfl
  | dlimit => cases q with
    | dlimit => exact absurd rfl h
    | _ => rfl
  | node i => cases q with
    | node j => exact Memory.nodeAt_setNode_other s.mem v fun e => h (congrArg Reg.node e)
    | _ => rfl
  | ctRaw x => cases q with
    | ctRaw y => exact Memory.codeAt_setCode_congr CodeEntry.rawWord s.mem fun e => absurd (congrArg Reg.ctRaw e) h
    | ctLen y => exact Memory.codeAt_setCode_congr ctLenWord s.mem fun _ => rfl
    | _ => rfl
  | ctLen x => cases q with
    | ctRaw y => exact Memory.codeAt_setCode_congr CodeEntry.rawWord s.mem fun _ => rfl
    | ctLen y => exact Memory.codeAt_setCode_congr ctLenWord s.mem fun e => absurd (congrArg Reg.ctLen e) h
    | _ => rfl
  | _ => rfl

/-! ## What a write to a register stores -/

/-- The registers of kind `RO` in the map (20_memory.md R42). -/
def readOnlyRegs : List (Reg p) :=
  [.status, .result, .faults, .ioinfo, .dcount, .wstate, .wbits, .wbytes, .rstate, .rbits, .rbytes, .accRaw, .accstate]

theorem writeReg_readOnly (v : Word) (s : State p) : ∀ r ∈ readOnlyRegs, r ≠ .cmd ∧ writeReg r v s = s := by
  simp [readOnlyRegs, writeReg]

/-- A write happens, and its register then reads what `readReg` finds after `writeReg`. -/
theorem hostAct_write_reads {r : Reg p} (hr : r ≠ .cmd) {v w : Word} {s : State p} (h : readReg r (writeReg r v s) = w) :
    ∃ t, hostAct (.write r.addr v) s = .next t ∧ busRead r.addr t = w :=
  ⟨_, hostAct_write_addr hr v s, (busRead_addr r _).trans h⟩

/-- `NODE[i]` stores all 32 bits (20_memory.md R43). -/
theorem hostAct_write_node (i : NodeIdx p) (v : Word) (s : State p) :
    ∃ t, hostAct (.write (0x0800 + 4 * i.toNat) v) s = .next t ∧ busRead (0x0800 + 4 * i.toNat) t = v :=
  hostAct_write_reads (r := .node i) nofun (Memory.nodeAt_setNode_same s.mem i v)

/-- `CT_RAW[x]` stores all 32 bits (20_memory.md R43). -/
theorem hostAct_write_ctRaw (x : Sym p) (v : Word) (s : State p) :
    ∃ t, hostAct (.write (0x1000 + 8 * x.toNat) v) s = .next t ∧ busRead (0x1000 + 8 * x.toNat) t = v :=
  hostAct_write_reads (r := .ctRaw x) nofun (congrArg CodeEntry.rawWord (Memory.codeAt_setCode_same s.mem x _))

/-- The low `n` bits of a word, the rest 0. -/
theorem setWidth_setWidth_eq_and (v : Word) {n : Nat} (hn : n ≤ 32) :
    (v.setWidth n).setWidth 32 = v &&& BitVec.ofNat 32 (2 ^ n - 1) := by
  have hpow : 2 ^ n ≤ 2 ^ 32 := Nat.pow_le_pow_right (by decide) hn
  apply BitVec.eq_of_toNat_eq
  rw [BitVec.toNat_and, BitVec.toNat_ofNat, Nat.mod_eq_of_lt (by omega), Nat.and_two_pow_sub_one_eq_mod,
    BitVec.toNat_setWidth_of_le hn, BitVec.toNat_setWidth]

theorem ctLenWord_eq (e : CodeEntry p) :
    ctLenWord e = (if e.valid then 0x80000000#32 else 0#32) ||| e.len.setWidth 32 := by
  cases h : e.valid <;> simp [ctLenWord, placeAt, h]

/-- `CT_LEN` keeps `VALID` and `LEN` of the word written (20_memory.md R43, 30_encoding.md R67). -/
theorem ctLenWord_setCtLen (e : CodeEntry p) (v : Word) : ctLenWord (setCtLen e v) = v &&& 0x8000003F#32 := by
  have hvalid : (if v.getLsbD 31 then 0x80000000#32 else 0#32) = v &&& 0x80000000#32 :=
    (BitVec.and_twoPow v 31).symm
  have hlen : (v.extractLsb' 0 6).setWidth 32 = v &&& 0x0000003F#32 := by
    rw [← BitVec.setWidth_eq_extractLsb' (by decide)]
    exact setWidth_setWidth_eq_and v (by decide)
  rw [ctLenWord_eq, setCtLen, hvalid, hlen, ← BitVec.and_or_distrib_left]
  rfl

/-! ## The step -/

theorem nextAction_cons {s : State p} {a : HostAction p} {rest : List (HostAction p)} (h : s.host.pending = a :: rest) :
    nextAction s = hostAct a (s.setHost { s.host with pending := rest }) := by
  simp only [nextAction, h]

theorem nextAction_nil {s : State p} (h : s.host.pending = []) : nextAction s = .next s := by simp only [nextAction, h]

theorem execute_decoded {w : Word} {i : Instr} (h : decodeWord w p = .ok i) (s : State p) :
    execute w s = execIn i (s.setCmd w) := by
  simp only [execute, h]

theorem nextAction_command {s : State p} {w : Word} {i : Instr} {rest : List (HostAction p)}
    (hs : s.host.pending = .write 0x0000 w :: rest) (hw : decodeWord w p = .ok i) :
    nextAction s = execIn i ((s.setHost { s.host with pending := rest }).setCmd w) := by
  rw [nextAction_cons hs, hostAct_write_cmd, execute_decoded hw]

/-- What the bus reads is the unit's, not the host's (20_memory.md R41). -/
@[simp] theorem busRead_setHost (addr : Nat) (s : State p) (h : HostSide p) : busRead addr (s.setHost h) = busRead addr s := by
  unfold busRead
  split
  · next r _ => cases r <;> rfl
  · rfl

theorem hostAct_read {addr : Nat} (ha : addr % 4 = 0) (s : State p) :
    hostAct (.read addr) s = .next (recordRead (busRead addr s) s) := if_pos ha

end Sys2Proof.Machine
end

section
/-!
The memory family (spec/20_memory.md): the host's accesses and the step.
-/
namespace Sys2Proof.Machine

/-- Settles O7: each offset is the register `regAt_eq_some` puts there or none, and each kind of register stores what R43 says. -/
theorem hostAccessesFollowTheRegisterMap : Obligations.HostAccessesFollowTheRegisterMap := by
  intro s v
  refine ⟨?unmapped, ?readOnly, ?root, ?maxlen, ?dlimit, fun i => hostAct_write_node i v s, fun x => hostAct_write_ctRaw x v s,
    ?ctLen, ?regs⟩
  case unmapped =>
    intro addr ha h
    exact unmapped_access ha (regAt_unmapped (p := .default) (h.imp_right .inr)) v s
  case readOnly =>
    change ∀ addr ∈ (readOnlyRegs (p := .default)).map Reg.addr, hostAct (.write addr v) s = .next s
    rw [List.forall_mem_map]
    intro r hr
    obtain ⟨hcmd, hw⟩ := writeReg_readOnly v s r hr
    rw [hostAct_write_addr hcmd, hw]
  case root => exact hostAct_write_reads (r := .root) nofun (setWidth_setWidth_eq_and v (n := 9) (by decide))
  case maxlen => exact hostAct_write_reads (r := .maxlen) nofun (setWidth_setWidth_eq_and v (n := 6) (by decide))
  case dlimit => exact hostAct_write_reads (r := .dlimit) nofun rfl
  case ctLen =>
    intro x
    refine hostAct_write_reads (r := .ctLen x) nofun ?_
    exact (congrArg ctLenWord (Memory.codeAt_setCode_same s.mem x _)).trans (ctLenWord_setCtLen _ v)
  case regs =>
    intro addr t h0 h
    obtain rfl | ⟨r, -, rfl⟩ := hostAct_write_eq_next h0 h
    · rfl
    · obtain ⟨-, -, -, hregs, -, -⟩ := writeReg_leaves r v s
      exact hregs

/-- Settles O8: the write is that of one register or of none, and any other offset names another register or none. -/
theorem hostWriteLeavesEveryOtherRegister : Obligations.HostWriteLeavesEveryOtherRegister := by
  intro s t addr other v h0 h hother hne
  obtain rfl | ⟨r, rfl, rfl⟩ := hostAct_write_eq_next h0 h
  · exact ⟨rfl, rfl, rfl, rfl, rfl, rfl⟩
  obtain ⟨hwriter, hreader, hdecoder, -, henv, hhost⟩ := writeReg_leaves r v s
  refine ⟨?_, hwriter, hreader, hdecoder, henv, hhost⟩
  cases hq : regAt other Params.default with
  | none => rw [(unmapped_access hother hq v _).1, (unmapped_access hother hq v s).1]
  | some q =>
    obtain rfl := (regAt_eq_some hother).mp hq
    rw [busRead_addr, busRead_addr]
    exact readReg_writeReg_other (fun e => hne (congrArg Reg.addr e)) v s

/-- Settles O5: the write to `CMD` is `execute`, which runs what the decoder answers. -/
theorem stepRunsTheDecodedCommand : Obligations.StepRunsTheDecodedCommand := by
  refine ⟨?command, fun _ _ _ hs => nextAction_cons hs, fun _ hs => nextAction_nil hs,
    fun _ _ _ _ _ hs hw => nextAction_command hs hw, execIn_default⟩
  case command =>
    intro s w i rest hs hw
    rw [← execIn_default]
    exact nextAction_command hs hw

/-- Settles O6: the read records the word on the host's side, which no register shows. -/
theorem hostReadHasNoSideEffect : Obligations.HostReadHasNoSideEffect := by
  intro s addr rest hs ha
  refine ⟨?_, busRead_addr .cmd s⟩
  rw [step, nextAction_cons hs, hostAct_read ha, busRead_setHost]
  rfl

/-- Settles O9: each offset is its register's, and past the top of an array there is no register. -/
theorem registersReadWhereTheMapPutsThem : Obligations.RegistersReadWhereTheMapPutsThem := by
  intro p s
  refine ⟨busRead_addr .cmd s, busRead_addr .status s, busRead_addr .result s, busRead_addr .faults s,
    busRead_addr .ioinfo s, busRead_addr .root s, busRead_addr .maxlen s, busRead_addr .dlimit s, busRead_addr .dcount s,
    busRead_addr .wbits s, busRead_addr .wbytes s, busRead_addr .rbits s, busRead_addr .rbytes s, busRead_addr .accRaw s,
    fun i => busRead_addr (.node i) s, fun x => busRead_addr (.ctRaw x) s,
    fun x => (busRead_addr (.ctLen x) s).trans (ctLenWord_eq _),
    fun i v => hostAct_write_node i v s, fun x v => hostAct_write_ctRaw x v s, fun addr v ha h => ?_⟩
  rw [← p.nNodes_eq] at h
  exact unmapped_access ha (regAt_unmapped (.inr h)) v s

end Sys2Proof.Machine
end

section
/-!
Fields of words, said once: what a bit and a field of a word read once a value is placed in it (spec/00_scope.md R6).
-/
namespace Sys2Proof

variable {m n : Nat}

theorem getLsbD_placeAt (v : BitVec n) (lo i : Nat) :
    (placeAt v lo).getLsbD i = (decide (i < 32) && decide (lo ≤ i) && v.getLsbD (i - lo)) := by
  rw [placeAt, BitVec.getLsbD_shiftLeft, BitVec.getLsbD_setWidth]
  by_cases hi : i < 32
  · simp [hi, Nat.lt_of_le_of_lt (Nat.sub_le i lo) hi, ← decide_not]
  · simp [hi]

@[simp] theorem getElem_placeAt (v : BitVec n) (lo i : Nat) (h : i < 32) :
    (placeAt v lo)[i] = (decide (lo ≤ i) && v.getLsbD (i - lo)) := by
  simp [← BitVec.getLsbD_eq_getElem, getLsbD_placeAt, h]

/-- A value is read back where it was placed. -/
@[simp] theorem extractLsb'_placeAt_same (v : BitVec n) {lo : Nat} (h : lo + n ≤ 32) : (placeAt v lo).extractLsb' lo n = v := by
  apply BitVec.eq_of_getLsbD_eq
  intro i hi
  have h32 : lo + i < 32 := by omega
  simp [hi, h32]

/-- A bit outside the field of a placed value is 0. -/
theorem getLsbD_placeAt_other (v : BitVec n) {lo i : Nat} (h : i < lo ∨ lo + n ≤ i) : (placeAt v lo).getLsbD i = false := by
  rw [getLsbD_placeAt]
  obtain h | h := h
  · simp [Nat.not_le.mpr h]
  · rw [BitVec.getLsbD_of_ge v (i - lo) (by omega), Bool.and_false]

/-- A field reads 0 where a value was placed elsewhere. -/
@[simp] theorem extractLsb'_placeAt_other (v : BitVec m) {lo pos : Nat} (h : lo + n ≤ pos ∨ pos + m ≤ lo) :
    (placeAt v pos).extractLsb' lo n = 0#n := by
  apply BitVec.eq_of_getLsbD_eq
  intro i hi
  rw [BitVec.getLsbD_extractLsb', getLsbD_placeAt_other v (by omega), Bool.and_false, BitVec.getLsbD_zero]

/-- A placed value has no bit outside its field. -/
theorem placeAt_and_eq_zero (v : BitVec n) {lo : Nat} {mask : Word} (h : placeAt (BitVec.allOnes n) lo &&& mask = 0#32) :
    placeAt v lo &&& mask = 0#32 := by
  apply BitVec.eq_of_getLsbD_eq
  intro i hi
  have hbit := congrArg (fun w : Word => w.getLsbD i) h
  simp only [BitVec.getLsbD_and, getLsbD_placeAt, BitVec.getLsbD_allOnes, BitVec.getLsbD_zero] at hbit ⊢
  cases hv : v.getLsbD (i - lo) with
  | false => simp
  | true => simpa [BitVec.lt_of_getLsbD hv] using hbit

theorem or_and_eq_zero {v w mask : Word} (hv : v &&& mask = 0#32) (hw : w &&& mask = 0#32) : (v ||| w) &&& mask = 0#32 := by
  rw [BitVec.and_comm, BitVec.and_or_distrib_left, BitVec.and_comm mask v, BitVec.and_comm mask w, hv, hw, BitVec.or_zero]

end Sys2Proof
end

section
/-!
Command words, said once: a command is its operation and its `ARG`, a well-formed command has exactly one word, and a row of the
opcode map accepts exactly the words that decode to its command (spec/30_encoding.md R60 to R63).
-/
namespace Sys2Proof

/-! ## Fields and words -/

theorem CmdFields.ofWord_toWord (f : CmdFields) : CmdFields.ofWord f.toWord = f := by
  simp [CmdFields.ofWord, CmdFields.toWord, BitVec.extractLsb'_or]

theorem CmdFields.ofWord_inj {v w : Word} : CmdFields.ofWord v = CmdFields.ofWord w ↔ v = w :=
  ⟨fun h => by rw [← CmdFields.toWord_ofWord v, h, CmdFields.toWord_ofWord], congrArg _⟩

theorem CmdFields.ofWord_and (v w : Word) : CmdFields.ofWord (v &&& w) =
    { z1 := (CmdFields.ofWord v).z1 &&& (CmdFields.ofWord w).z1
      op := (CmdFields.ofWord v).op &&& (CmdFields.ofWord w).op
      z0 := (CmdFields.ofWord v).z0 &&& (CmdFields.ofWord w).z0
      arg := (CmdFields.ofWord v).arg &&& (CmdFields.ofWord w).arg } := by
  simp only [CmdFields.ofWord, BitVec.extractLsb'_and]

theorem CmdFields.ofWord_encodeWord (i : Instr) :
    CmdFields.ofWord (encodeWord i) = { z1 := 0#16, op := i.op.bits, z0 := 0#4, arg := i.arg } := CmdFields.ofWord_toWord _

/-! ## A command is its operation and its `ARG` -/

@[simp] theorem Op.instr_op (op : Op) (arg : BitVec 8) : (op.instr arg).op = op := by cases op <;> rfl

/-- The one bit of a flag operand (30_encoding.md R61 b). -/
theorem getLsbD_zero_flag (b : Bool) : ((BitVec.ofBool b).setWidth 8).getLsbD 0 = b := by cases b <;> rfl

/-- An `ARG` whose bits 7:1 are 0 is its flag (30_encoding.md R61 b). -/
theorem flag_getLsbD_zero {arg : BitVec 8} (h : arg &&& 0xFE#8 = 0#8) : (BitVec.ofBool (arg.getLsbD 0)).setWidth 8 = arg := by
  revert arg; decide

theorem Instr.instr_op_arg (i : Instr) : i.op.instr i.arg = i := by
  cases i with
  | wopen leave => exact congrArg Instr.wopen (getLsbD_zero_flag leave)
  | wbit b => exact congrArg Instr.wbit (getLsbD_zero_flag b)
  | ropen leave => exact congrArg Instr.ropen (getLsbD_zero_flag leave)
  | _ => rfl

/-- A command taken from an `ARG` with its must-be-zero part 0 has that `ARG` (30_encoding.md R61). -/
theorem Op.instr_arg {op : Op} {n : Nat} {arg : BitVec 8} (h : op.argUse.mbzOk n arg = true) : (op.instr arg).arg = arg := by
  cases op with
  | wopen | wbit | ropen => exact flag_getLsbD_zero (beq_iff_eq.mp h)
  | wbyte | encsym => rfl
  | wclose | rbit | rbyte | rclose | encode | decsym | decode => exact (beq_iff_eq.mp h).symm

/-- A command is well formed when the must-be-zero part of its `ARG` is 0 (30_encoding.md R61). -/
theorem Instr.wf_eq_mbzOk (i : Instr) (p : Params) : i.wf p = i.op.argUse.mbzOk p.symW i.arg := by
  cases i with
  | wopen b | wbit b | ropen b => cases b <;> rfl
  | _ => rfl

/-- With the default parameters `ARG` has no bit above the symbol (30_encoding.md R61 d). -/
theorem Instr.wf_default (i : Instr) : i.wf = true := by
  cases i with
  | encsym x => exact beq_iff_eq.mpr (BitVec.ushiftRight_eq_zero (Nat.le_refl 8))
  | _ => rfl

/-! ## Decoding and encoding -/

theorem decodeWord_eq_ok_iff_encodeWord {p : Params} {i : Instr} {w : Word} :
    decodeWord w p = .ok i ↔ i.wf p = true ∧ w = encodeWord i := by
  rw [decodeWord_eq_ok, Instr.wf_eq_mbzOk]
  constructor
  · rintro ⟨op, hop, hz1, hz0, harg, rfl⟩
    rw [Op.instr_op, Op.instr_arg harg]
    refine ⟨harg, CmdFields.ofWord_inj.mp ?_⟩
    rw [CmdFields.ofWord_encodeWord, Op.instr_op, Op.instr_arg harg, ← hop, ← hz1, ← hz0]
  · rintro ⟨hwf, rfl⟩
    rw [CmdFields.ofWord_encodeWord]
    exact ⟨i.op, rfl, rfl, rfl, hwf, i.instr_op_arg.symm⟩

/-- A word decodes to the command of `op` with its operand from `ARG` exactly when its fields are those of `op`. -/
theorem decodeWord_eq_ok_instr {p : Params} {op : Op} {w : Word} :
    decodeWord w p = .ok (op.instr (CmdFields.ofWord w).arg) ↔
      (CmdFields.ofWord w).op = op.bits ∧ (CmdFields.ofWord w).z1 = 0#16 ∧ (CmdFields.ofWord w).z0 = 0#4 ∧
        op.argUse.mbzOk p.symW (CmdFields.ofWord w).arg = true := by
  rw [decodeWord_eq_ok]
  constructor
  · rintro ⟨op', hop, hz1, hz0, harg, hi⟩
    obtain rfl : op = op' := by simpa using congrArg Instr.op hi
    exact ⟨hop, hz1, hz0, harg⟩
  · rintro ⟨hop, hz1, hz0, harg⟩
    exact ⟨op, hop, hz1, hz0, harg, rfl⟩

/-! ## The opcode map -/

/-- The bits of `ARG` that the mask of a row looks at (30_encoding.md R61, R62). -/
def ArgUse.mask : ArgUse → BitVec 8
  | .none => 0xFF#8
  | .flag => 0xFE#8
  | .byte | .sym => 0x00#8

/-- With the default parameters the must-be-zero part of `ARG` is what the mask looks at. -/
theorem ArgUse.mbzOk_eight (u : ArgUse) (arg : BitVec 8) : u.mbzOk 8 arg = true ↔ arg &&& u.mask = 0#8 := by
  revert arg; cases u <;> decide

/-- A row's mask looks at `Z1`, `OP`, `Z0` and the must-be-zero part of `ARG`, and its pattern has there `OP` and zeros. -/
theorem opcodeRows_fields : ∀ r ∈ opcodeRows,
    CmdFields.ofWord r.mask = { z1 := 0xFFFF#16, op := 0xF#4, z0 := 0xF#4, arg := r.op.argUse.mask } ∧
    CmdFields.ofWord r.pattern = { z1 := 0#16, op := r.op.bits, z0 := 0#4, arg := 0#8 } := by decide

theorem exists_opcodeRow (op : Op) : ∃ r ∈ opcodeRows, r.op = op := by cases op <;> decide

/-- A word matches a row exactly when it decodes to the command of the row (30_encoding.md R62). -/
theorem OpcodeRow.matches_iff_decodeWord {r : OpcodeRow} (hr : r ∈ opcodeRows) (w : Word) :
    w &&& r.mask = r.pattern ↔ decodeWord w = .ok (r.op.instr (CmdFields.ofWord w).arg) := by
  obtain ⟨hmask, hpattern⟩ := opcodeRows_fields r hr
  rw [← CmdFields.ofWord_inj, CmdFields.ofWord_and, hmask, hpattern, CmdFields.mk.injEq, decodeWord_eq_ok_instr,
    Params.default_symW, ArgUse.mbzOk_eight, show 0xFFFF#16 = BitVec.allOnes 16 from rfl,
    show 0xF#4 = BitVec.allOnes 4 from rfl, BitVec.and_allOnes, BitVec.and_allOnes, BitVec.and_allOnes]
  tauto

/-- A word that matches no row does not decode (30_encoding.md R63). -/
theorem decodeWord_error_of_no_row {w : Word} (h : ∀ r ∈ opcodeRows, w &&& r.mask ≠ r.pattern) :
    ∃ e, decodeWord w = .error e := by
  cases hw : decodeWord w with
  | error e => exact ⟨e, rfl⟩
  | ok i =>
    obtain ⟨r, hr, hop⟩ := exists_opcodeRow i.op
    obtain ⟨op, -, -, -, -, rfl⟩ := decodeWord_eq_ok.mp hw
    rw [Op.instr_op] at hop
    exact absurd ((r.matches_iff_decodeWord hr w).mpr (by rw [hop, hw])) (h r hr)

theorem Op.ofBits_eq_none {v : BitVec 4} : Op.ofBits v = none ↔ v ∈ [0x0#4, 0xD#4, 0xE#4, 0xF#4] := by
  revert v; decide

/-- The sub-cause of a word that matches no row is `RsvdOp` exactly when `OP` is reserved (30_encoding.md R63). -/
theorem decodeWord_of_no_row {w : Word} (h : ∀ r ∈ opcodeRows, w &&& r.mask ≠ r.pattern) :
    decodeWord w = .error (if w.extractLsb' 12 4 ∈ [0x0#4, 0xD#4, 0xE#4, 0xF#4] then .rsvdOp else .rsvdBits) := by
  obtain ⟨e, he⟩ := decodeWord_error_of_no_row h
  have hop : decodeWord w = .error .rsvdOp ↔ w.extractLsb' 12 4 ∈ [0x0#4, 0xD#4, 0xE#4, 0xF#4] :=
    decodeWord_eq_rsvdOp.trans Op.ofBits_eq_none
  cases e with
  | rsvdOp => rw [if_pos (hop.mp he), he]
  | rsvdBits =>
    rw [if_neg fun hmem => ?_, he]
    simp [hop.mpr hmem] at he

end Sys2Proof
end

section
/-!
The encoding family (spec/30_encoding.md): the words of the commands.
-/
namespace Sys2Proof.Machine

/-- A word that does not decode takes `BadCommand` with the decoder's sub-cause (30_encoding.md R63). -/
theorem execute_rejected {p : Params} {w : Word} {e : WordError} (h : decodeWord w p = .error e) (s : State p) :
    execute w s = .next (takeError (.badCommand e) (s.setCmd w)) := by
  simp only [execute, h]

/-- Settles O2: a word is its four fields, and a well-formed command is its operation and its `ARG`. -/
theorem decodeAndEncodeAgree : Obligations.DecodeAndEncodeAgree :=
  ⟨fun _ _ _ => decodeWord_eq_ok_iff_encodeWord, Instr.wf_default⟩

/-- Settles O3: a row's mask and pattern, field by field, are the decoder's tests. -/
theorem decoderFollowsTheOpcodeMap : Obligations.DecoderFollowsTheOpcodeMap := by
  intro r hr w
  rw [r.matches_iff_decodeWord hr, BitVec.setWidth_eq_extractLsb' (by decide)]
  rfl

/-- Settles O4: the word does not decode, so `execute` takes `BadCommand` with the decoder's sub-cause. -/
theorem illegalWordsTakeBadCommand : Obligations.IllegalWordsTakeBadCommand := by
  intro w s h
  rw [hostAct_write_cmd, execute_rejected (decodeWord_of_no_row h)]
  by_cases hop : w.extractLsb' 12 4 ∈ [0x0#4, 0xD#4, 0xE#4, 0xF#4]
  · rw [if_pos hop, if_pos hop]; rfl
  · rw [if_neg hop, if_neg hop]; rfl

/-- Settles O1: the decoder computes each of the eight answers. -/
theorem statedWordsDecode : Obligations.StatedWordsDecode :=
  ⟨rfl, rfl, rfl, rfl, rfl, rfl, rfl, rfl⟩

end Sys2Proof.Machine
end

section
/-!
The encoding family (spec/30_encoding.md): the view words (R70), and the node words and entries the directives write (R64, R66,
R67).
-/
namespace Sys2Proof.Machine

variable {p : Params} {n : Nat}

/-! ## The view words (R70) -/

theorem wstate_fields (w : Writer p) :
    (wstate w).getLsbD 0 = w.wopenf ∧ (wstate w).getLsbD 1 = w.wleave ∧ (wstate w).extractLsb' 4 3 = w.wcnt ∧
      (wstate w).extractLsb' 8 8 = w.wbuf ∧ wstate w &&& ~~~0x0000FF73#32 = 0#32 := by
  refine ⟨by simp [wstate], by simp [wstate], by simp [wstate, BitVec.extractLsb'_or],
    by simp [wstate, BitVec.extractLsb'_or], ?_⟩
  iterate 3 refine or_and_eq_zero ?_ (placeAt_and_eq_zero _ rfl)
  exact placeAt_and_eq_zero _ rfl

theorem rstate_fields (r : Reader p) :
    (rstate r).getLsbD 0 = r.ropenf ∧ (rstate r).getLsbD 1 = r.rleave ∧ (rstate r).getLsbD 2 = r.reof ∧
      (rstate r).extractLsb' 4 4 = r.rcnt ∧ (rstate r).extractLsb' 8 8 = r.rbuf ∧ rstate r &&& ~~~0x0000FFF7#32 = 0#32 := by
  refine ⟨by simp [rstate], by simp [rstate], by simp [rstate], by simp [rstate, BitVec.extractLsb'_or],
    by simp [rstate, BitVec.extractLsb'_or], ?_⟩
  iterate 4 refine or_and_eq_zero ?_ (placeAt_and_eq_zero _ rfl)
  exact placeAt_and_eq_zero _ rfl

theorem accstate_fields (d : Decoder .default) :
    (accstate d).extractLsb' 0 6 = d.accLen ∧ (accstate d).extractLsb' 16 9 = d.cur ∧
      accstate d &&& ~~~0x01FF003F#32 = 0#32 := by
  refine ⟨by simp [accstate, BitVec.extractLsb'_or], by simp [accstate, BitVec.extractLsb'_or], ?_⟩
  exact or_and_eq_zero (placeAt_and_eq_zero _ rfl) (placeAt_and_eq_zero _ rfl)

/-- Settles O10: each view word is its fields placed side by side. -/
theorem viewWordsShowTheirFields : Obligations.ViewWordsShowTheirFields := by
  intro s
  have hw : busRead 0x0024 s = wstate s.writer := busRead_addr .wstate s
  have hr : busRead 0x0030 s = rstate s.reader := busRead_addr .rstate s
  have ha : busRead 0x0040 s = accstate s.decoder := busRead_addr .accstate s
  rw [hw, hr, ha]
  exact ⟨wstate_fields _, rstate_fields _, accstate_fields _⟩

/-! ## The words the directives write (R64, R66, R67) -/

theorem isLeaf_leafWord (x : Sym p) : isLeaf (leafWord x) = true := by simp [isLeaf, leafWord]

theorem symOf_leafWord (x : Sym p) : symOf (leafWord x) p = x := by
  have := p.symW_le
  rw [symOf, leafWord, BitVec.extractLsb'_or, extractLsb'_placeAt_other _ (by omega), extractLsb'_placeAt_same _ (by omega),
    BitVec.zero_or]

/-! A child's index at `idx` and its presence bit at `present`, above the index. -/

theorem getLsbD_childField_present (c : Option (NodeIdx p)) {idx present : Nat} (hidx : idx + p.nidxW ≤ present)
    (hpresent : present < 32) : (childField c idx present).getLsbD present = c.isSome := by
  cases c with
  | none => exact BitVec.getLsbD_zero
  | some i =>
    rw [childField, BitVec.getLsbD_or, getLsbD_placeAt_other i (.inr hidx), getLsbD_placeAt]
    simp [hpresent]

theorem getLsbD_childField_other (c : Option (NodeIdx p)) {idx present k : Nat} (hidx : k < idx ∨ idx + p.nidxW ≤ k)
    (hpresent : k ≠ present) : (childField c idx present).getLsbD k = false := by
  cases c with
  | none => exact BitVec.getLsbD_zero
  | some i =>
    rw [childField, BitVec.getLsbD_or, getLsbD_placeAt_other i hidx, getLsbD_placeAt_other 1#1 (by omega), Bool.or_false]

theorem extractLsb'_childField_same (i : NodeIdx p) {idx present : Nat} (hidx : idx + p.nidxW ≤ present)
    (hpresent : present < 32) : (childField (some i) idx present).extractLsb' idx p.nidxW = i := by
  rw [childField, BitVec.extractLsb'_or, extractLsb'_placeAt_same _ (by omega), extractLsb'_placeAt_other _ (by omega),
    BitVec.or_zero]

theorem extractLsb'_childField_other (c : Option (NodeIdx p)) {idx present lo : Nat}
    (hidx : lo + n ≤ idx ∨ idx + p.nidxW ≤ lo) (hpresent : lo + n ≤ present ∨ present + 1 ≤ lo) :
    (childField c idx present).extractLsb' lo n = 0#n := by
  cases c with
  | none => exact BitVec.extractLsb'_zero
  | some i =>
    rw [childField, BitVec.extractLsb'_or, extractLsb'_placeAt_other i hidx, extractLsb'_placeAt_other 1#1 hpresent,
      BitVec.or_zero]

section
variable (l r : Option (NodeIdx p))

theorem isLeaf_intWord : isLeaf (intWord l r) = false := by
  have := p.nidxW_le
  rw [isLeaf, intWord, BitVec.getLsbD_or, getLsbD_childField_other l (by omega) (by decide),
    getLsbD_childField_other r (by omega) (by decide), Bool.or_false]

theorem leftPresent_intWord : leftPresent (intWord l r) = l.isSome := by
  have := p.nidxW_le
  rw [leftPresent, intWord, BitVec.getLsbD_or, getLsbD_childField_present l (by omega) (by decide),
    getLsbD_childField_other r (.inl (by decide)) (by decide), Bool.or_false]

theorem rightPresent_intWord : rightPresent (intWord l r) = r.isSome := by
  have := p.nidxW_le
  rw [rightPresent, intWord, BitVec.getLsbD_or, getLsbD_childField_other l (by omega) (by decide),
    getLsbD_childField_present r (by omega) (by decide), Bool.false_or]

end

theorem leftIdx_intWord (i : NodeIdx p) (r : Option (NodeIdx p)) : leftIdx (intWord (some i) r) p = i := by
  have := p.nidxW_le
  rw [leftIdx, intWord, BitVec.extractLsb'_or, extractLsb'_childField_same i (by omega) (by decide),
    extractLsb'_childField_other r (by omega) (by omega), BitVec.or_zero]

theorem rightIdx_intWord (l : Option (NodeIdx p)) (i : NodeIdx p) : rightIdx (intWord l (some i)) p = i := by
  have := p.nidxW_le
  rw [rightIdx, intWord, BitVec.extractLsb'_or, extractLsb'_childField_other l (by omega) (by omega),
    extractLsb'_childField_same i (by omega) (by decide), BitVec.zero_or]

/-- An Internal word has the children it was made of, left before right (43_decoder.md R137). -/
theorem presentChildren_intWord (l r : Option (NodeIdx p)) : presentChildren (intWord l r) p = l.toList ++ r.toList := by
  rw [presentChildren, leftPresent_intWord, rightPresent_intWord]
  congr 1
  · cases l with
    | none => rfl
    | some i => simp [leftIdx_intWord]
  · cases r with
    | none => rfl
    | some i => simp [rightIdx_intWord]

theorem setCtLen_ctLenWord (e e' : CodeEntry p) : setCtLen e (ctLenWord e') = { e with valid := e'.valid, len := e'.len } := by
  simp [setCtLen, ctLenWord, BitVec.extractLsb'_or]

/-! ## Directives -/

/-- A write to a register other than `CMD` happens, and the actions after it go on from what it stored. -/
theorem runActions_write {r : Reg p} (hr : r ≠ .cmd) (v : Word) (rest : List (HostAction p)) (s : State p) :
    runActions (.write r.addr v :: rest) s = runActions rest (writeReg r v s) := by
  rw [runActions, hostAct_write_addr hr]

@[simp] theorem nodeAt_writeReg_node (i : NodeIdx p) (v : Word) (s : State p) : (writeReg (.node i) v s).mem.nodeAt i = v :=
  Memory.nodeAt_setNode_same s.mem i v

@[simp] theorem codeAt_writeReg_ctRaw (x : Sym p) (v : Word) (s : State p) :
    (writeReg (.ctRaw x) v s).mem.codeAt x = setCtRaw (s.mem.codeAt x) v := Memory.codeAt_setCode_same s.mem x _

@[simp] theorem codeAt_writeReg_ctLen (x : Sym p) (v : Word) (s : State p) :
    (writeReg (.ctLen x) v s).mem.codeAt x = setCtLen (s.mem.codeAt x) v := Memory.codeAt_setCode_same s.mem x _

/-- Settles O11: a directive is a write to one register or two, and the words written have the fields they were made of. -/
theorem directivesLoadWhatTheyName : Obligations.DirectivesLoadWhatTheyName := by
  intro s
  refine ⟨?leaf, ?int, ?code, ?nocode, ?root, ?maxlen, fun n => ⟨_, runActions_write (r := .dlimit) nofun _ [] s, rfl⟩⟩
  case leaf =>
    intro i x
    refine ⟨_, runActions_write (r := .node i) nofun _ [] s, ?_⟩
    rw [nodeAt_writeReg_node]
    exact ⟨isLeaf_leafWord x, symOf_leafWord x⟩
  case int =>
    intro i l r
    refine ⟨_, runActions_write (r := .node i) nofun _ [] s, ?_⟩
    rw [nodeAt_writeReg_node]
    exact ⟨isLeaf_intWord l r, presentChildren_intWord l r⟩
  case code =>
    intro x len raw
    refine ⟨_, (runActions_write (r := .ctRaw x) nofun _ _ s).trans (runActions_write (r := .ctLen x) nofun _ [] _), ?_⟩
    rw [codeAt_writeReg_ctLen, codeAt_writeReg_ctRaw, setCtLen_ctLenWord, setCtRaw, BitVec.setWidth_eq]
  case nocode =>
    intro x
    refine ⟨_, runActions_write (r := .ctLen x) nofun _ [] s, ?_⟩
    rw [codeAt_writeReg_ctLen]
    rfl
  case root =>
    intro i
    refine ⟨_, runActions_write (r := .root) nofun _ [] s, ?_⟩
    simp [writeReg]
  case maxlen =>
    intro n
    refine ⟨_, runActions_write (r := .maxlen) nofun _ [] s, ?_⟩
    simp [writeReg]

end Sys2Proof.Machine
end

section
/-!
What a command leaves in `STATUS` and `FAULTS`: one of the words of R68, an error kind that R181 says the command raises, and in
`FAULTS` the bit of that kind (spec/30_encoding.md R68, R69, 60_exceptions.md R181).
-/
namespace Sys2Proof.Machine

variable {p : Params}

/-! ## The kinds a command raises -/

theorem Raise.ioOnly.code_mem {r : Raise} (h : r.ioOnly) : r.kind.code ∈ [0#4, 5#4, 7#4] := by
  rw [show r.kind = .ioError from h]; decide

theorem Raise.ofEncoder.code_mem {r : Raise} (h : r.ofEncoder) : r.kind.code ∈ [0#4, 2#4, 5#4, 7#4, 8#4] := by
  obtain h | h | h := h <;> rw [h] <;> decide

theorem Raise.ofDecoder.code_mem {r : Raise} (h : r.ofDecoder) : r.kind.code ∈ [0#4, 3#4, 5#4, 7#4, 8#4] := by
  obtain h | h | h := h <;> rw [h] <;> decide

theorem decodeAll_raises (s : State p) : (decodeAll s).Raises Raise.ofDecoder := by
  unfold decodeAll
  split
  · exact .inr (.inr rfl)
  · exact decodeLoop_raises _ s

theorem bodyOf_raises (i : Instr) (s : State p) : (bodyOf i s).Raises fun r => r.kind.code ∈ errorsOf i := by
  cases i with
  | wopen leave => trivial
  | wbit b => exact Run.Raises.bind ((writeBit_raises b s).imp fun _ => Raise.ioOnly.code_mem) fun _ _ => trivial
  | wbyte v => exact Run.Raises.bind ((writeBits_raises v 8 s).imp fun _ => Raise.ioOnly.code_mem) fun _ _ => trivial
  | wclose => exact Run.Raises.bind ((closeWriter_raises s).imp fun _ => Raise.ioOnly.code_mem) fun _ _ => trivial
  | ropen leave => trivial
  | rbit => exact Run.Raises.bind ((readBit_raises s).imp fun _ => Raise.ioOnly.code_mem) fun r _ => by cases r <;> trivial
  | rbyte => exact (readByteLoop_raises 8 0#8 s).imp fun _ => Raise.ioOnly.code_mem
  | rclose => exact (closeReader_raises s).imp fun _ => Raise.ioOnly.code_mem
  | encsym x => exact Run.Raises.bind ((encodeSymbol_raises _ s).imp fun _ => Raise.ofEncoder.code_mem) fun _ _ => trivial
  | encode => exact Run.Raises.bind ((encodeLoop_raises _ s).imp fun _ => Raise.ofEncoder.code_mem) fun _ _ => trivial
  | decsym =>
    exact Run.Raises.bind ((decodeSymbol_raises s).imp fun _ => Raise.ofDecoder.code_mem) fun r _ => by cases r <;> trivial
  | decode => exact (decodeAll_raises s).imp fun _ => Raise.ofDecoder.code_mem

/-- Every command can complete, and can find its precondition not met. -/
theorem ok_and_badState_mem_errorsOf (i : Instr) : 0#4 ∈ errorsOf i ∧ 7#4 ∈ errorsOf i := by
  unfold errorsOf
  cases i.op <;> decide

theorem errField_mem_errorsOf {i : Instr} {s t : State p} (h : execIn i s = .next t) :
    errField t.regs.status ∈ errorsOf i := by
  have hr := bodyOf_raises i s
  obtain ⟨hok, hbad⟩ := ok_and_badState_mem_errorsOf i
  rw [execIn_eq_runCommand, runCommand_eq_next] at h
  obtain ⟨c, -, rfl⟩ | ⟨-, ⟨k, u, -, rfl⟩ | ⟨r, u, hb, rfl⟩⟩ := h
  · rw [takeError_status, errField_statusOf]; exact hbad
  · rw [complete_regs, errField_statusOk]; exact hok
  · rw [hb] at hr; rw [takeError_status, errField_statusOf]; exact hr

/-! ## The words of `STATUS` -/

theorem statusOk_mem (k : ResKind) : statusOk k ∈ statusWords := by cases k <;> decide

theorem statusOf_mem (r : Raise) : statusOf r ∈ statusWords := by
  cases r with
  | unknownSymbol => decide
  | corrupt c => cases c <;> decide
  | io c e => cases c <;> simp [statusWords]
  | badCommand c => cases c <;> decide
  | badState c => cases c <;> decide
  | badConfig c => cases c <;> decide

theorem CommandEnd.status_mem {s t : State p} (h : CommandEnd s t) : t.regs.status ∈ statusWords := by
  cases h with
  | completed k u hu ht => rw [ht]; exact statusOk_mem k
  | raised r u hu hr ht => rw [ht]; exact statusOf_mem r

/-- A command that raised has no result kind (60_exceptions.md R184). -/
theorem CommandEnd.resField {s t : State p} (h : CommandEnd s t) (he : errField t.regs.status ≠ 0#4) :
    resField t.regs.status = 0#2 := by
  cases h with
  | completed k u hu ht => simp [ht] at he
  | raised r u hu hr ht => rw [ht]; exact resField_statusOf r

/-! ## The status invariants -/

/-- The codes of `ERR` this block uses: `Ok` and the six kinds it raises (60_exceptions.md R181). -/
def errCodes : List (BitVec 4) := [0#4, 2#4, 3#4, 5#4, 6#4, 7#4, 8#4]

theorem Raise.code_mem_errCodes (r : Raise) : r.kind.code ∈ errCodes := by
  cases r <;> simp [Raise.kind, ErrKind.code, errCodes]

theorem CommandEnd.errField_mem {s t : State p} (h : CommandEnd s t) : errField t.regs.status ∈ errCodes := by
  cases h with
  | completed k u hu ht => rw [ht, complete_regs, errField_statusOk]; decide
  | raised r u hu hr ht => rw [ht, takeError_status, errField_statusOf]; exact r.code_mem_errCodes

/-- The bit of `FAULTS` for such a code is one this block can set, and is the bit that records the code (30_encoding.md R69). -/
theorem errBit_of_mem_errCodes : ∀ err ∈ errCodes, errBit err &&& ~~~0x000001EC#32 = 0#32 ∧
    (err ≠ 0#4 → (errBit err).getLsbD err.toNat = true) := by decide

theorem CommandEnd.statusInv {s t : State p} (h : CommandEnd s t) (hs : StatusInv s) : StatusInv t := by
  obtain ⟨-, hmask, -⟩ := hs
  obtain ⟨hnew, hset⟩ := errBit_of_mem_errCodes _ h.errField_mem
  refine ⟨h.status_mem, ?_, fun he => ?_⟩
  · rw [h.faults]
    exact or_and_eq_zero hmask hnew
  · rw [h.faults, BitVec.getLsbD_or, hset he, Bool.or_true]

/-- The status invariants speak of the registers alone. -/
theorem statusInv_congr {s t : State p} (h : t.regs = s.regs) (hs : StatusInv s) : StatusInv t := by
  unfold StatusInv; rw [h]; exact hs

theorem statusInv_of_atReset {t : State p} (h : t.regs = Regs.atReset) : StatusInv t := by
  unfold StatusInv; rw [h]; decide

theorem hostAct_statusInv {a : HostAction p} {s t : State p} (h : hostAct a s = .next t) (hs : StatusInv s) : StatusInv t := by
  cases hostAct_effect h with
  | command w hw => exact (execute_commandEnd hw).statusInv hs
  | register r v ht =>
    obtain ⟨-, -, -, hregs, -, -⟩ := writeReg_leaves r v s
    exact statusInv_congr (ht ▸ hregs) hs
  | reset ha ht => exact statusInv_of_atReset (by rw [ht]; rfl)
  | outside ht => exact statusInv_congr (by rw [ht]; rfl) hs

theorem nextAction_statusInv {s t : State p} (h : nextAction s = .next t) (hs : StatusInv s) : StatusInv t := by
  obtain rfl | ⟨a, rest, -, ha⟩ := nextAction_eq_next h
  · exact hs
  · exact hostAct_statusInv ha hs

/-- Settles O58: every end of a command writes a word of `STATUS` and its bit of `FAULTS`; a reset clears both registers, and no
other host action writes them. -/
theorem everyStepKeepsTheStatusInvariant : Obligations.EveryStepKeepsTheStatusInvariant :=
  fun _ _ hs h => nextAction_statusInv h hs

/-- Settles O14: the two ends of a command write the words of R68, with the kinds the body can raise or `BadState`. -/
theorem everyCommandEndsWithAStatusOfItsOwn : Obligations.EveryCommandEndsWithAStatusOfItsOwn := by
  intro i s t h
  rw [← execIn_default] at h
  have hend := execIn_commandEnd h
  exact ⟨hend.status_mem, errField_mem_errorsOf h, hend.resField⟩

end Sys2Proof.Machine
end

section
/-!
Bulk writing: what `WBYTES` does from a byte boundary with a sink that accepts every byte (spec/30_encoding.md R65,
40_bitwriter.md R83).
-/
namespace Sys2Proof.Machine

variable {p : Params}

/-! ## Commands one after another -/

theorem execute_encodeWord {i : Instr} (h : i.wf p = true) (s : State p) :
    execute (encodeWord i) s = execIn i (s.setCmd (encodeWord i)) :=
  execute_decoded (decodeWord_eq_ok_iff_encodeWord.mpr ⟨h, rfl⟩) s

theorem runWhile_cons_goOn {goOn : Word → Bool} {i : Instr} {s t : State p} (h : execute (encodeWord i) s = .next t)
    (hgo : goOn t.regs.status = true) (rest : List Instr) : runWhile goOn (i :: rest) s = runWhile goOn rest t := by
  rw [runWhile, h]
  exact if_pos hgo

/-! ## Whole bytes -/

/-- The writer is open at a byte boundary and the sink will accept every byte. -/
structure ByteReady (s : State p) : Prop where
  wopenf : s.writer.wopenf = true
  wcnt : s.writer.wcnt = 0#3
  wbuf : s.writer.wbuf = 0#8
  answers : ∀ a ∈ s.env.sinkWriteAns, a = PortAnswer.ok

/-- From `s` to `t` the sink has accepted `bs` and the counters have counted them (40_bitwriter.md R83). -/
structure WroteBytes (s t : State p) (bs : List Byte) : Prop where
  ready : ByteReady t
  sink : t.env.sink = s.env.sink ++ bs
  wbits : t.writer.wbits = s.writer.wbits + BitVec.ofNat p.cntW (8 * bs.length)
  wbytes : t.writer.wbytes = s.writer.wbytes + BitVec.ofNat p.cntW bs.length
  faults : t.regs.faults = s.regs.faults

theorem WroteBytes.refl {s : State p} (h : ByteReady s) : WroteBytes s s [] :=
  ⟨h, by simp, by simp, by simp, rfl⟩

theorem WroteBytes.trans {s t u : State p} {xs ys : List Byte} (h : WroteBytes s t xs) (k : WroteBytes t u ys) :
    WroteBytes s u (xs ++ ys) := by
  refine ⟨k.ready, ?_, ?_, ?_, k.faults.trans h.faults⟩
  · rw [k.sink, h.sink, List.append_assoc]
  · rw [k.wbits, h.wbits, List.length_append, Nat.mul_add, BitVec.ofNat_add, BitVec.add_assoc]
  · rw [k.wbytes, h.wbytes, List.length_append, BitVec.ofNat_add, BitVec.add_assoc]

theorem codeBits_eight (v : Byte) : codeBits v 8 = byteBits v := rfl

/-- Whole bytes and fewer than eight bits make the bits of one byte only as that byte and no bit. -/
theorem unpack_append_eq_byteBits {out : List Byte} {held : List Bool} {v : Byte} (hlt : held.length < 8)
    (h : unpack out ++ held = byteBits v) : out = [v] ∧ held = [] := by
  have hlen := congrArg List.length h
  rw [List.length_append, unpack_length, byteBits_length] at hlen
  obtain rfl : held = [] := List.eq_nil_of_length_eq_zero (by omega)
  have hpack := pack_unpack out []
  rw [h, ← List.append_nil (byteBits v), pack_byteBits] at hpack
  exact ⟨by simpa using hpack.symm, rfl⟩

/-- The eight bits of a byte, written at a byte boundary, are one byte handed to the sink. -/
theorem Wrote.byte {s t : State p} {v : Byte} (h : Wrote s t (byteBits v)) (hs : ByteReady s) : WroteBytes s t [v] := by
  obtain ⟨out, hsink, hbits, hbytes⟩ := h.out
  rw [heldBits_nil hs.wcnt, List.nil_append] at hbits
  obtain ⟨rfl, hheld⟩ := unpack_append_eq_byteBits (by rw [heldBits_length]; exact t.writer.wcnt.isLt) hbits
  have hwcnt : t.writer.wcnt = 0#3 := by
    apply BitVec.eq_of_toNat_eq
    rw [← heldBits_length, hheld]
    rfl
  have hwbuf : t.writer.wbuf = 0#8 := by simpa [hwcnt] using h.low
  exact ⟨⟨h.wopenf.trans hs.wopenf, hwcnt, hwbuf, h.answers⟩, hsink, h.wbits, hbytes,
    (bodyKeeps_of_hideWriter h.frame).faults⟩

/-- `WBYTE` at a byte boundary (40_bitwriter.md R83). -/
theorem execIn_wbyte_wroteBytes (v : Byte) {s : State p} (hs : ByteReady s) :
    ∃ t, execIn (.wbyte v) s = .next t ∧ t.regs.status = 0x00000000#32 ∧ WroteBytes s t [v] := by
  obtain ⟨u, hu, hw⟩ := writeBits_wrote (raw := v) (n := 8) (s := s) (by rw [hs.wbuf, BitVec.zero_shiftLeft]) hs.answers
  rw [codeBits_eight] at hw
  obtain ⟨⟨hopen, hcnt, hbuf, hans⟩, hsink, hbits, hbytes, hfaults⟩ := hw.byte hs
  refine ⟨complete .none u, ?_, rfl, ⟨hopen, hcnt, hbuf, hans⟩, hsink, hbits, hbytes, hfaults⟩
  rw [execIn_eq_runCommand, preOf, needWriterOpen_eq_none.mpr hs.wopenf, runCommand_none, bodyOf, hu]
  rfl

/-- The same with the word written to `CMD`, which changes nothing these facts speak of. -/
theorem execute_wbyte_wroteBytes (v : Byte) {s : State p} (hs : ByteReady s) :
    ∃ t, execute (encodeWord (.wbyte v)) s = .next t ∧ t.regs.status = 0x00000000#32 ∧ WroteBytes s t [v] := by
  have hcmd : ByteReady (s.setCmd (encodeWord (.wbyte v))) := ⟨hs.wopenf, hs.wcnt, hs.wbuf, hs.answers⟩
  obtain ⟨t, ht, hstatus, hready, hsink, hbits, hbytes, hfaults⟩ := execIn_wbyte_wroteBytes v hcmd
  exact ⟨t, by rw [execute_encodeWord rfl, ht], hstatus, hready, hsink, hbits, hbytes, hfaults⟩

theorem wbytesSeq_wroteBytes (bs : List Byte) {s : State p} (hs : ByteReady s) :
    ∃ t, wbytesSeq bs s = .next t ∧ WroteBytes s t bs := by
  induction bs generalizing s with
  | nil => exact ⟨s, rfl, WroteBytes.refl hs⟩
  | cons v bs ih =>
    obtain ⟨t, ht, hstatus, hv⟩ := execute_wbyte_wroteBytes v hs
    obtain ⟨u, hu, hbs⟩ := ih hv.ready
    refine ⟨u, ?_, hv.trans hbs⟩
    rw [← hu]
    exact runWhile_cons_goOn ht (by rw [hstatus]; decide) _

/-- Settles O28: each `WBYTE` hands over its byte and leaves the writer at a byte boundary, so the next does the same. -/
theorem bulkWriteDeliversItsBytes : Obligations.BulkWriteDeliversItsBytes := by
  intro s bs hopen hcnt hbuf hans
  obtain ⟨t, ht, hw⟩ := wbytesSeq_wroteBytes bs (s := s) ⟨hopen, hcnt, hbuf, hans⟩
  exact ⟨t, ht, hw.sink, hw.ready.wcnt, hw.ready.wbuf, hw.wbits, hw.wbytes, hw.faults⟩

end Sys2Proof.Machine
end

section
/-!
A command in the wrong open or closed state takes `BadState`, in the right one it runs its body (spec/60_exceptions.md R182, R184,
R186).
-/
namespace Sys2Proof.Machine

variable {p : Params}

theorem exec_eq_runCommand (i : Instr) (s : State) : exec i s = runCommand (preOf i s) (bodyOf i) s := by
  rw [← execIn_default, execIn_eq_runCommand]

/-- A command whose precondition fails takes `BadState`. -/
theorem exec_of_preOf_some {i : Instr} {s : State} {c : StateSub} (h : preOf i s = some c) :
    exec i s = .next (takeError (.badState c) s) := by
  rw [exec_eq_runCommand, h, runCommand_some]

/-- A command whose precondition holds runs its body. -/
theorem exec_of_preOf_none {i : Instr} {s : State} (h : preOf i s = none) : exec i s = finish (bodyOf i s) := by
  rw [exec_eq_runCommand, h, runCommand_none]

/-- Error entry with `BadState`, written out: nothing but `STATUS` and `FAULTS` changes (60_exceptions.md R186). -/
theorem takeError_badState (c : StateSub) (s : State p) :
    takeError (.badState c) s = { s with regs := { s.regs with
      status := statusOf (.badState c), faults := s.regs.faults ||| 0x00000080#32 } } := rfl

/-! ## The preconditions -/

theorem needWriterOpen_closed {s : State p} (h : s.writer.wopenf = false) : needWriterOpen s = some .writerNotOpen := by
  simp [needWriterOpen, h]

theorem needWriterClosed_open {s : State p} (h : s.writer.wopenf = true) : needWriterClosed s = some .writerAlreadyOpen := by
  simp [needWriterClosed, h]

theorem needReaderOpen_closed {s : State p} (h : s.reader.ropenf = false) : needReaderOpen s = some .readerNotOpen := by
  simp [needReaderOpen, h]

theorem needReaderClosed_open {s : State p} (h : s.reader.ropenf = true) : needReaderClosed s = some .readerAlreadyOpen := by
  simp [needReaderClosed, h]

theorem preOf_wopen {i : Instr} (hi : i.op = .wopen) (s : State p) : preOf i s = needWriterClosed s := by
  revert hi; cases i <;> simp [Instr.op, preOf]

theorem preOf_ropen {i : Instr} (hi : i.op = .ropen) (s : State p) : preOf i s = needReaderClosed s := by
  revert hi; cases i <;> simp [Instr.op, preOf]

/-- The commands that need an open writer (40_bitwriter.md R80, 42_encoder.md R120). -/
theorem preOf_writer {i : Instr} (hi : i.op ∈ [.wbit, .wbyte, .wclose, .encsym, .encode]) (s : State p) :
    preOf i s = needWriterOpen s := by
  revert hi; cases i <;> simp [Instr.op, preOf]

/-- The commands that need an open reader (41_bitreader.md R100). -/
theorem preOf_reader {i : Instr} (hi : i.op ∈ [.rbit, .rbyte, .rclose, .decsym, .decode]) (s : State p) :
    preOf i s = needReaderOpen s := by
  revert hi; cases i <;> simp [Instr.op, preOf]

/-! ## What a command does in the wrong state, and in the right one -/

theorem exec_wopen_of_open {i : Instr} {s : State} (hi : i.op = .wopen) (h : s.writer.wopenf = true) :
    exec i s = .next { s with
      regs := { s.regs with status := 0x00000207#32, faults := s.regs.faults ||| 0x00000080#32 } } := by
  rw [exec_of_preOf_some ((preOf_wopen hi s).trans (needWriterClosed_open h)), takeError_badState, statusOf_writerAlreadyOpen]

theorem exec_writer_of_closed {i : Instr} {s : State} (hi : i.op ∈ [.wbit, .wbyte, .wclose, .encsym, .encode])
    (h : s.writer.wopenf = false) : exec i s = .next { s with
      regs := { s.regs with status := 0x00000107#32, faults := s.regs.faults ||| 0x00000080#32 } } := by
  rw [exec_of_preOf_some ((preOf_writer hi s).trans (needWriterOpen_closed h)), takeError_badState, statusOf_writerNotOpen]

theorem exec_ropen_of_open {i : Instr} {s : State} (hi : i.op = .ropen) (h : s.reader.ropenf = true) :
    exec i s = .next { s with
      regs := { s.regs with status := 0x00000407#32, faults := s.regs.faults ||| 0x00000080#32 } } := by
  rw [exec_of_preOf_some ((preOf_ropen hi s).trans (needReaderClosed_open h)), takeError_badState, statusOf_readerAlreadyOpen]

theorem exec_reader_of_closed {i : Instr} {s : State} (hi : i.op ∈ [.rbit, .rbyte, .rclose, .decsym, .decode])
    (h : s.reader.ropenf = false) : exec i s = .next { s with
      regs := { s.regs with status := 0x00000307#32, faults := s.regs.faults ||| 0x00000080#32 } } := by
  rw [exec_of_preOf_some ((preOf_reader hi s).trans (needReaderOpen_closed h)), takeError_badState, statusOf_readerNotOpen]

theorem exec_wopen_of_closed {i : Instr} {s : State} (hi : i.op = .wopen) (h : s.writer.wopenf = false) :
    exec i s = finish (bodyOf i s) :=
  exec_of_preOf_none ((preOf_wopen hi s).trans (needWriterClosed_eq_none.mpr h))

theorem exec_writer_of_open {i : Instr} {s : State} (hi : i.op ∈ [.wbit, .wbyte, .wclose, .encsym, .encode])
    (h : s.writer.wopenf = true) : exec i s = finish (bodyOf i s) :=
  exec_of_preOf_none ((preOf_writer hi s).trans (needWriterOpen_eq_none.mpr h))

/-- Settles O13: the precondition answers the sub-cause of R182, and error entry writes `STATUS` and `FAULTS` only. -/
theorem wrongStateTakesBadState : Obligations.WrongStateTakesBadState := fun _ _ =>
  ⟨exec_wopen_of_open, exec_writer_of_closed, exec_ropen_of_open, exec_reader_of_closed⟩

end Sys2Proof.Machine
end

section
/-!
`WOPEN` and `WBIT` in every case (spec/40_bitwriter.md R81, R82).
-/
namespace Sys2Proof.Machine

variable {p : Params}

/-- Settles O24: the body of `WOPEN` is one assignment of the writer. -/
theorem wopenBeginsAPass : Obligations.WopenBeginsAPass := by
  intro leave s
  cases h : s.writer.wopenf with
  | false => exact exec_wopen_of_closed rfl h
  | true => exact exec_wopen_of_open rfl h

/-- The bit goes to the place `WCNT` places below the top (40_bitwriter.md R82). -/
theorem placeBit_eq (w : Writer p) (b : Bool) :
    placeBit w b = w.wbuf ||| (if b then 0x80#8 >>> w.wcnt.toNat else 0#8) := by
  cases b with
  | false => simp [placeBit]
  | true => obtain h | h | h | h | h | h | h | h := wcnt_cases w.wcnt <;> rw [placeBit, h] <;> rfl

/-- Settles O25: the writer is closed, or the bit leaves the byte unfilled, or it fills the byte and the sink answers. -/
theorem wbitWritesOneBit : Obligations.WbitWritesOneBit := by
  intro b s
  dsimp only
  rw [← placeBit_eq]
  by_cases hclosed : s.writer.wopenf = false
  · rw [exec_writer_of_closed (by simp [Instr.op]) hclosed, if_pos hclosed]
  rw [exec_writer_of_open (by simp [Instr.op]) (by simpa using hclosed), bodyOf, if_neg hclosed]
  by_cases h7 : s.writer.wcnt = 7#3
  · rw [if_neg (not_not.mpr h7)]
    cases ha : nextAnswer s.env.sinkWriteAns with
    | ok => rw [writeBit_full h7 ha]; rfl
    | ioError e => rw [writeBit_ioError h7 ha, Run.bind_raise, finish_raise, takeError_io, statusOf_sinkWrite]; rfl
    | never => rw [writeBit_never h7 ha]; rfl
  · rw [if_pos h7, writeBit_short h7]; rfl

end Sys2Proof.Machine
end

section
/-!
`WBYTE` in every case (spec/40_bitwriter.md R83): eight bits cross exactly one byte boundary. The bits before the boundary fill the
byte but for its last bit, one `WBIT` fills it and calls the sink, and the bits after it start the next byte.
-/
namespace Sys2Proof.Machine

variable {p : Params}

/-! ## Bits that stay within the byte -/

/-- The low `m` bits of `u`, the most significant first, where they stand in the partial byte behind `k` held bits. -/
def bitsBehind (u : Byte) (m k : Nat) : Byte := u <<< (8 - m) >>> k

@[simp] theorem bitsBehind_none (u : Byte) (k : Nat) : bitsBehind u 0 k = 0#8 := by
  simp [bitsBehind]

/-- The first of the bits, placed by `WBIT`, and the others behind it (40_bitwriter.md R82). -/
theorem placeBit_or_bitsBehind (w : Writer p) (u : Byte) {m : Nat} (h : w.wcnt.toNat + m < 8) :
    placeBit w (u.getLsbD m) ||| bitsBehind u m (w.wcnt.toNat + 1) = w.wbuf ||| bitsBehind u (m + 1) w.wcnt.toNat := by
  rw [placeBit, BitVec.or_assoc]
  congr 1
  apply BitVec.eq_of_getLsbD_eq
  intro i hi
  generalize w.wcnt.toNat = k at h ⊢
  simp only [bitsBehind, BitVec.getLsbD_or, BitVec.getLsbD_shiftLeft, BitVec.getLsbD_setWidth, BitVec.getLsbD_ofBool,
    BitVec.getLsbD_ushiftRight]
  obtain hlt | rfl | hgt := lt_trichotomy i (7 - k)
  · have hidx : k + 1 + i - (8 - m) = k + i - (8 - (m + 1)) := by omega
    have hbound : k + 1 + i < 8 - m ↔ k + i < 8 - (m + 1) := by omega
    simp [hlt, hidx, hbound, show k + 1 + i < 8 by omega, show k + i < 8 by omega]
  · simp [show k + (7 - k) = 7 by omega, show k + 1 + (7 - k) = 8 by omega, show 7 - (7 - m) = m by omega,
      show ¬ 7 < 7 - m by omega, hi]
  · simp [show i - (7 - k) ≠ 0 by omega, show ¬ k + 1 + i < 8 by omega, show ¬ k + i < 8 by omega]

/-- The `m` bits of `v` above its low `n`, when they leave the byte unfilled: no port is called (40_bitwriter.md R82 case a). -/
theorem writeBits_unfilled {v : Byte} {m n : Nat} {s : State p} (h : s.writer.wcnt.toNat + m < 8) :
    writeBits v (m + n) s = writeBits v n (s.setWriter { s.writer with
      wbuf := s.writer.wbuf ||| bitsBehind (v >>> n) m s.writer.wcnt.toNat
      wcnt := s.writer.wcnt + BitVec.ofNat 3 m
      wbits := s.writer.wbits + BitVec.ofNat p.cntW m }) := by
  induction m generalizing s with
  | zero => simp only [Nat.zero_add, bitsBehind_none, BitVec.or_zero, BitVec.add_zero]; rfl
  | succ m ih =>
    have h7 : s.writer.wcnt ≠ 7#3 := fun hc => by rw [hc] at h; simp at h; omega
    have hcnt := toNat_add_one_wcnt h7
    have hbit : v.getLsbD (m + n) = (v >>> n).getLsbD m := by rw [BitVec.getLsbD_ushiftRight, Nat.add_comm]
    rw [Nat.add_right_comm, writeBits, writeBit_short h7, Run.bind_done,
      ih (by rw [State.setWriter_writer, hcnt]; omega)]
    simp only [State.setWriter_writer, State.setWriter_setWriter, hcnt, hbit]
    rw [placeBit_or_bitsBehind _ _ (by omega), BitVec.add_assoc, BitVec.add_assoc]
    simp only [Nat.add_comm m 1, BitVec.ofNat_add]
    rfl

/-! ## The byte across the boundary -/

/-- The state of `WBYTE` when one bit is missing to fill the byte: of the value the bits above bit `WCNT` are written. -/
def oneBitMissing (v : Byte) (s : State p) : State p :=
  s.setWriter { s.writer with
    wbuf := s.writer.wbuf ||| bitsBehind (v >>> (s.writer.wcnt.toNat + 1)) (7 - s.writer.wcnt.toNat) s.writer.wcnt.toNat
    wcnt := 7#3
    wbits := s.writer.wbits + BitVec.ofNat p.cntW (7 - s.writer.wcnt.toNat) }

/-- The bit that fills the byte makes it the held bits and the high bits of the value. -/
theorem placeBit_oneBitMissing (v : Byte) (s : State p) :
    placeBit (oneBitMissing v s).writer (v.getLsbD s.writer.wcnt.toNat) = s.writer.wbuf ||| v >>> s.writer.wcnt.toNat := by
  have hk := s.writer.wcnt.isLt
  rw [placeBit, oneBitMissing, State.setWriter_writer, BitVec.or_assoc]
  congr 1
  generalize s.writer.wcnt.toNat = k at hk ⊢
  apply BitVec.eq_of_getLsbD_eq
  intro i hi
  simp only [bitsBehind, BitVec.getLsbD_or, BitVec.getLsbD_shiftLeft, BitVec.getLsbD_setWidth, BitVec.getLsbD_ofBool,
    BitVec.getLsbD_ushiftRight]
  obtain rfl | hpos := Nat.eq_zero_or_pos i
  · simp [show k < 8 - (7 - k) by omega]
  · by_cases hin : k + i < 8
    · simp [hin, hpos.ne', show ¬ k + i < 8 - (7 - k) by omega, show k + 1 + (k + i - (8 - (7 - k))) = k + i by omega]
    · simp [hin, hpos.ne', BitVec.getLsbD_of_ge v (k + i) (by omega)]

/-- `WBYTE` is the `WBIT` that fills the byte, between the bits before the boundary and the bits after it. -/
theorem writeBits_eight (v : Byte) (s : State p) :
    writeBits v 8 s = (writeBit (v.getLsbD s.writer.wcnt.toNat) (oneBitMissing v s)).bind fun _ t =>
      writeBits v s.writer.wcnt.toNat t := by
  have hk := s.writer.wcnt.isLt
  have hseven : s.writer.wcnt + BitVec.ofNat 3 (7 - s.writer.wcnt.toNat) = 7#3 := by
    apply BitVec.eq_of_toNat_eq
    rw [BitVec.toNat_add, BitVec.toNat_ofNat, Nat.add_mod_mod, show s.writer.wcnt.toNat + (7 - s.writer.wcnt.toNat) = 7 by omega]
    rfl
  have h := writeBits_unfilled (v := v) (m := 7 - s.writer.wcnt.toNat) (n := s.writer.wcnt.toNat + 1) (s := s) (by omega)
  rw [hseven, show 7 - s.writer.wcnt.toNat + (s.writer.wcnt.toNat + 1) = 8 by omega] at h
  rw [h]
  rfl

/-- After the boundary the low bits of the value, as many as were held before it, start the next byte. -/
theorem writeBits_after_boundary {v : Byte} {c : BitVec 3} {s : State p} (hbuf : s.writer.wbuf = 0#8)
    (hcnt : s.writer.wcnt = 0#3) : writeBits v c.toNat s = .done () (s.setWriter { s.writer with
      wbuf := v <<< (8 - c.toNat), wcnt := c, wbits := s.writer.wbits + BitVec.ofNat p.cntW c.toNat }) := by
  rw [← Nat.add_zero c.toNat, writeBits_unfilled (by rw [hcnt]; simpa using c.isLt), writeBits, hbuf, hcnt]
  simp [bitsBehind]

/-- The bits before, at and after the boundary are eight. -/
theorem ofNat_bits_of_byte {w k : Nat} (c : BitVec w) (hk : k < 8) :
    c + BitVec.ofNat w (7 - k) + 1 = c + BitVec.ofNat w (8 - k) ∧
    c + BitVec.ofNat w (8 - k) + BitVec.ofNat w k = c + BitVec.ofNat w 8 := by
  constructor
  · rw [show 8 - k = 7 - k + 1 by omega, BitVec.ofNat_add, BitVec.add_assoc]; rfl
  · rw [BitVec.add_assoc, ← BitVec.ofNat_add, Nat.sub_add_cancel hk.le]

/-- The sink accepts the byte (40_bitwriter.md R83 case a). -/
theorem writeBits_eight_ok {v : Byte} {s : State p} (ha : nextAnswer s.env.sinkWriteAns = .ok) :
    writeBits v 8 s = .done () ((s.setWriter { s.writer with
      wbuf := v <<< (8 - s.writer.wcnt.toNat), wbits := s.writer.wbits + BitVec.ofNat p.cntW 8
      wbytes := s.writer.wbytes + 1 }).setEnv { s.env with
        sink := s.env.sink ++ [s.writer.wbuf ||| v >>> s.writer.wcnt.toNat]
        sinkWriteAns := s.env.sinkWriteAns.tail
        calls := s.env.calls ++ [.sinkWrite (s.writer.wbuf ||| v >>> s.writer.wcnt.toNat)] }) := by
  obtain ⟨hbits, hall⟩ := ofNat_bits_of_byte s.writer.wbits s.writer.wcnt.isLt
  rw [writeBits_eight, writeBit_full (s := oneBitMissing v s) rfl ha, Run.bind_done, placeBit_oneBitMissing,
    writeBits_after_boundary rfl rfl, ← hall, ← hbits]
  rfl

/-- The sink fails: the bits up to the boundary are counted and lost, the rest is not written (40_bitwriter.md R83 case b). -/
theorem writeBits_eight_ioError {v : Byte} {s : State p} {e : Word} (ha : nextAnswer s.env.sinkWriteAns = .ioError e) :
    writeBits v 8 s = .raise (.io .sinkWrite e) ((s.setWriter { s.writer with
      wbuf := 0#8, wcnt := 0#3, wbits := s.writer.wbits + BitVec.ofNat p.cntW (8 - s.writer.wcnt.toNat) }).setEnv { s.env with
        sinkWriteAns := s.env.sinkWriteAns.tail
        calls := s.env.calls ++ [.sinkWrite (s.writer.wbuf ||| v >>> s.writer.wcnt.toNat)] }) := by
  obtain ⟨hbits, -⟩ := ofNat_bits_of_byte s.writer.wbits s.writer.wcnt.isLt
  rw [writeBits_eight, writeBit_ioError (s := oneBitMissing v s) rfl ha, Run.bind_raise, placeBit_oneBitMissing, ← hbits]
  rfl

theorem writeBits_eight_never {v : Byte} {s : State p} (ha : nextAnswer s.env.sinkWriteAns = .never) :
    writeBits v 8 s = .never .sinkWrite := by
  rw [writeBits_eight, writeBit_never (s := oneBitMissing v s) rfl ha]
  rfl

/-- Settles O26: whatever `WCNT` is, one `WBIT` of the eight calls the sink, and its answer decides. -/
theorem wbyteCrossesOneByteBoundary : Obligations.WbyteCrossesOneByteBoundary := by
  intro v s
  dsimp only
  by_cases hclosed : s.writer.wopenf = false
  · rw [exec_writer_of_closed (by simp [Instr.op]) hclosed, if_pos hclosed]
  rw [exec_writer_of_open (by simp [Instr.op]) (by simpa using hclosed), bodyOf, if_neg hclosed]
  cases ha : nextAnswer s.env.sinkWriteAns with
  | ok => rw [writeBits_eight_ok ha]; rfl
  | ioError e => rw [writeBits_eight_ioError ha, Run.bind_raise, finish_raise, takeError_io, statusOf_sinkWrite]; rfl
  | never => rw [writeBits_eight_never ha]; rfl

end Sys2Proof.Machine
end

section
/-!
`WCLOSE` in every case (spec/40_bitwriter.md R84): the flush, then the release, then the closing, each said once; a port error
changes what is reported, not what is done.
-/
namespace Sys2Proof.Machine

variable {p : Params}

/-! ## The state after the flush, after the release, after the close -/

/-- After the flush, the sink having answered: a partial byte is handed over, and counted and kept if accepted. -/
def flushed (s : State p) : State p :=
  (s.setWriter { s.writer with
    wbuf := if s.writer.wcnt ≠ 0#3 then 0#8 else s.writer.wbuf
    wcnt := 0#3
    wbytes := if s.writer.wcnt ≠ 0#3 ∧ nextAnswer s.env.sinkWriteAns = .ok then s.writer.wbytes + 1 else s.writer.wbytes }).setEnv
  { s.env with
    sink := if s.writer.wcnt ≠ 0#3 ∧ nextAnswer s.env.sinkWriteAns = .ok then s.env.sink ++ [s.writer.wbuf] else s.env.sink
    sinkWriteAns := if s.writer.wcnt ≠ 0#3 then s.env.sinkWriteAns.tail else s.env.sinkWriteAns
    calls := s.env.calls ++ (if s.writer.wcnt ≠ 0#3 then [PortCall.sinkWrite s.writer.wbuf] else []) }

/-- After the release, the sink having answered: released unless `WLEAVE`. -/
def released (s : State p) : State p :=
  s.setEnv { s.env with
    sinkReleased := if s.writer.wleave = false then true else s.env.sinkReleased
    sinkReleaseAns := if s.writer.wleave = false then s.env.sinkReleaseAns.tail else s.env.sinkReleaseAns
    calls := s.env.calls ++ (if s.writer.wleave = false then [PortCall.sinkRelease] else []) }

/-- Where `WCLOSE` ends when the ports answer: flushed, released, closed. -/
def closedAfterAll (s : State p) : State p :=
  (released (flushed s)).setWriter { (released (flushed s)).writer with wopenf := false }

/-! ## The flush -/

theorem flushed_of_empty {s : State p} (h0 : s.writer.wcnt = 0#3) : flushed s = s := by
  have hempty : ¬ s.writer.wcnt ≠ 0#3 := not_not.mpr h0
  simp only [flushed, hempty, if_false, false_and, List.append_nil]
  rw [← h0]
  rfl

theorem flushPartial_of_empty {s : State p} (h0 : s.writer.wcnt = 0#3) : flushPartial s = .done none (flushed s) := by
  rw [flushPartial, if_pos h0, flushed_of_empty h0]

theorem flushPartial_ok {s : State p} (h0 : s.writer.wcnt ≠ 0#3) (ha : nextAnswer s.env.sinkWriteAns = .ok) :
    flushPartial s = .done none (flushed s) := by
  rw [flushPartial, if_neg h0, sinkWrite_ok (by simpa using ha), Run.bind_done]
  simp only [flushed, ne_eq, h0, not_false_eq_true, ha, and_self, if_true]
  rfl

theorem flushPartial_ioError {s : State p} {e : Word} (h0 : s.writer.wcnt ≠ 0#3)
    (ha : nextAnswer s.env.sinkWriteAns = .ioError e) : flushPartial s = .done (some (.sinkWrite, e)) (flushed s) := by
  rw [flushPartial, if_neg h0, sinkWrite_ioError (by simpa using ha)]
  simp [flushed, h0, ha]

/-- With nothing to flush, or the byte accepted, the flush meets no error. -/
theorem flushPartial_clean {s : State p} (h : ¬(s.writer.wcnt ≠ 0#3 ∧ nextAnswer s.env.sinkWriteAns ≠ .ok)) :
    flushPartial s = .done none (flushed s) := by
  by_cases h0 : s.writer.wcnt = 0#3
  · exact flushPartial_of_empty h0
  · exact flushPartial_ok h0 (by simpa [h0] using h)

theorem flushPartial_never {s : State p} (h0 : s.writer.wcnt ≠ 0#3) (ha : nextAnswer s.env.sinkWriteAns = .never) :
    flushPartial s = .never .sinkWrite := by
  rw [flushPartial, if_neg h0, sinkWrite_never (by simpa using ha)]
  rfl

/-- When the sink answers at all, the flush ends in the same state whatever it answers. -/
theorem flushPartial_answered {s : State p} (h : ¬(s.writer.wcnt ≠ 0#3 ∧ nextAnswer s.env.sinkWriteAns = .never)) :
    ∃ err, flushPartial s = .done err (flushed s) := by
  by_cases h0 : s.writer.wcnt = 0#3
  · exact ⟨none, flushPartial_of_empty h0⟩
  · cases ha : nextAnswer s.env.sinkWriteAns with
    | ok => exact ⟨none, flushPartial_ok h0 ha⟩
    | ioError e => exact ⟨some (.sinkWrite, e), flushPartial_ioError h0 ha⟩
    | never => exact absurd ⟨h0, ha⟩ h

/-! ## The release -/

theorem released_of_wleave {s : State p} (hl : s.writer.wleave = true) : released s = s := by
  simp only [released, hl, Bool.true_eq_false, if_false, List.append_nil]
  rfl

theorem releaseSink_of_wleave {err : Option (IoSub × Word)} {s : State p} (hl : s.writer.wleave = true) :
    releaseSink err s = .done err (released s) := by
  rw [releaseSink, if_pos hl, released_of_wleave hl]

theorem releaseSink_ok {err : Option (IoSub × Word)} {s : State p} (hl : s.writer.wleave = false)
    (ha : nextAnswer s.env.sinkReleaseAns = .ok) : releaseSink err s = .done err (released s) := by
  rw [releaseSink, if_neg (by simp [hl]), sinkRelease_ok ha]
  cases err <;> simp [released, hl, firstIoError]

theorem releaseSink_ioError {err : Option (IoSub × Word)} {s : State p} {e : Word} (hl : s.writer.wleave = false)
    (ha : nextAnswer s.env.sinkReleaseAns = .ioError e) :
    releaseSink err s = .done (firstIoError err .sinkRelease (.ioError e)) (released s) := by
  rw [releaseSink, if_neg (by simp [hl]), sinkRelease_ioError ha]
  simp [released, hl]

/-- In leave-open mode, or with the release accepted, the error met so far is all there is. -/
theorem releaseSink_clean {err : Option (IoSub × Word)} {s : State p}
    (h : ¬(s.writer.wleave = false ∧ nextAnswer s.env.sinkReleaseAns ≠ .ok)) :
    releaseSink err s = .done err (released s) := by
  cases hl : s.writer.wleave with
  | true => exact releaseSink_of_wleave hl
  | false => exact releaseSink_ok hl (by simpa [hl] using h)

/-- After a failed flush the release is made all the same, and its own error is not reported (40_bitwriter.md R84 case c). -/
theorem releaseSink_after_error {err : IoSub × Word} {s : State p}
    (h : ¬(s.writer.wleave = false ∧ nextAnswer s.env.sinkReleaseAns = .never)) :
    releaseSink (some err) s = .done (some err) (released s) := by
  cases hl : s.writer.wleave with
  | true => exact releaseSink_of_wleave hl
  | false =>
    cases ha : nextAnswer s.env.sinkReleaseAns with
    | ok => exact releaseSink_ok hl ha
    | ioError e => exact releaseSink_ioError hl ha
    | never => exact absurd ⟨hl, ha⟩ h

theorem releaseSink_never {err : Option (IoSub × Word)} {s : State p} (hl : s.writer.wleave = false)
    (ha : nextAnswer s.env.sinkReleaseAns = .never) : releaseSink err s = .never .sinkRelease := by
  rw [releaseSink, if_neg (by simp [hl]), sinkRelease_never ha]
  rfl

/-! ## The close -/

theorem closeWriter_clean {s : State p} (hf : flushPartial s = .done none (flushed s))
    (hr : releaseSink none (flushed s) = .done none (released (flushed s))) : closeWriter s = .done () (closedAfterAll s) := by
  rw [closeWriter, hf, Run.bind_done, hr]
  rfl

theorem closeWriter_error {s : State p} {err : Option (IoSub × Word)} {sub : IoSub} {e : Word}
    (hf : flushPartial s = .done err (flushed s))
    (hr : releaseSink err (flushed s) = .done (some (sub, e)) (released (flushed s))) :
    closeWriter s = .raise (.io sub e) (closedAfterAll s) := by
  rw [closeWriter, hf, Run.bind_done, hr]
  rfl

theorem closeWriter_stuck_at_release {s : State p} {err : Option (IoSub × Word)} (hf : flushPartial s = .done err (flushed s))
    (hr : releaseSink err (flushed s) = .never .sinkRelease) : closeWriter s = .never .sinkRelease := by
  rw [closeWriter, hf, Run.bind_done, hr]
  rfl

/-- Settles O27: flush, release and close in turn; the clauses differ in what the two port calls answer. -/
theorem wcloseFlushesReleasesAndCloses : Obligations.WcloseFlushesReleasesAndCloses := by
  intro s
  have hrun (h : s.writer.wopenf = true) :
      exec .wclose s = finish ((closeWriter s).bind fun _ s => .done .none s) := exec_writer_of_open (by simp [Instr.op]) h
  refine ⟨?closed, ?stuckAtFlush, ?stuckAtRelease, ?success, ?flushFails, ?releaseFails⟩
  case closed => exact exec_writer_of_closed (by simp [Instr.op])
  case stuckAtFlush =>
    intro hopen hflush hw
    rw [hrun hopen, closeWriter, flushPartial_never hflush hw]
    rfl
  case stuckAtRelease =>
    intro hopen hw hrelease hr
    obtain ⟨err, hf⟩ := flushPartial_answered hw
    rw [hrun hopen, closeWriter_stuck_at_release hf (releaseSink_never hrelease hr)]
    rfl
  case success =>
    intro hopen hw hr
    rw [hrun hopen, closeWriter_clean (flushPartial_clean hw) (releaseSink_clean hr)]
    rfl
  case flushFails =>
    intro e hopen hflush hw hr
    rw [hrun hopen, closeWriter_error (flushPartial_ioError hflush hw) (releaseSink_after_error hr), Run.bind_raise,
      finish_raise, takeError_io, statusOf_sinkWrite]
    rfl
  case releaseFails =>
    intro e hopen hw hrelease hr
    rw [hrun hopen, closeWriter_error (flushPartial_clean hw) (releaseSink_ioError hrelease hr), Run.bind_raise,
      finish_raise, takeError_io, statusOf_sinkRelease]
    rfl

end Sys2Proof.Machine
end

section
/-!
What the four writer commands leave unchanged (spec/40_bitwriter.md R81 to R84, "State written").
-/
namespace Sys2Proof.Machine

variable {p : Params}

/-- What holds of every state the body can end in holds of the state the command ends in, but for `STATUS`, `FAULTS` and
`IOINFO`, which the frame of the command writes (60_exceptions.md R184). -/
theorem exec_next_of_ends {P : State → Prop} {i : Instr} {s t : State} (h : exec i s = .next t) (hs : P s)
    (hb : (bodyOf i s).Ends P) :
    ∃ u, P u ∧ t = u.setRegs { u.regs with status := t.regs.status, faults := t.regs.faults, ioinfo := t.regs.ioinfo } := by
  rw [exec_eq_runCommand, runCommand_eq_next] at h
  obtain ⟨c, -, rfl⟩ | ⟨-, ⟨k, u, hu, rfl⟩ | ⟨r, u, hu, rfl⟩⟩ := h
  · exact ⟨s, hs, rfl⟩
  · rw [hu] at hb; exact ⟨u, hb, rfl⟩
  · rw [hu] at hb; exact ⟨u, hb, rfl⟩

theorem Run.Ends.and {α : Type} {P Q : State p → Prop} {x : Run p α} (hP : x.Ends P) (hQ : x.Ends Q) :
    x.Ends fun t => P t ∧ Q t := by
  cases x with
  | done a s => exact ⟨hP, hQ⟩
  | raise r s => exact ⟨hP, hQ⟩
  | never port => trivial

/-- A body that completes after its sub-step ends where the sub-step does. -/
theorem Run.ends_bind_done {α : Type} {P : State p → Prop} {k : ResKind} {x : Run p α} (hx : x.Ends P) :
    (x.bind fun _ s => .done k s).Ends P :=
  Run.ends_bind hx (fun _ _ h => h) fun _ h => h

/-! ## Writing bits neither ends the pass nor releases the sink -/

/-- From `s` to `t` the writer has gone on with the same pass: open as before, in the same mode, the sink not released. -/
structure SamePass (s t : State p) : Prop where
  wopenf : t.writer.wopenf = s.writer.wopenf
  wleave : t.writer.wleave = s.writer.wleave
  released : t.env.sinkReleased = s.env.sinkReleased
  releaseAns : t.env.sinkReleaseAns = s.env.sinkReleaseAns

theorem SamePass.refl (s : State p) : SamePass s s := ⟨rfl, rfl, rfl, rfl⟩

theorem SamePass.trans {s t u : State p} (h : SamePass s t) (k : SamePass t u) : SamePass s u :=
  ⟨k.wopenf.trans h.wopenf, k.wleave.trans h.wleave, k.released.trans h.released, k.releaseAns.trans h.releaseAns⟩

theorem writeBit_samePass (b : Bool) (s : State p) : (writeBit b s).Ends (SamePass s) := by
  by_cases h7 : s.writer.wcnt = 7#3
  · cases ha : nextAnswer s.env.sinkWriteAns with
    | ok => rw [writeBit_full h7 ha]; exact ⟨rfl, rfl, rfl, rfl⟩
    | ioError e => rw [writeBit_ioError h7 ha]; exact ⟨rfl, rfl, rfl, rfl⟩
    | never => rw [writeBit_never h7 ha]; trivial
  · rw [writeBit_short h7]; exact ⟨rfl, rfl, rfl, rfl⟩

theorem writeBits_samePass {w : Nat} (raw : BitVec w) (n : Nat) (s : State p) : (writeBits raw n s).Ends (SamePass s) := by
  induction n generalizing s with
  | zero => exact SamePass.refl s
  | succ n ih =>
    exact Run.ends_bind (writeBit_samePass _ s) (fun _ u hu => (ih u).imp fun _ ht => hu.trans ht) fun _ hu => hu

/-! ## The close ends in one state -/

theorem releaseSink_answered {err : Option (IoSub × Word)} {s : State p}
    (h : ¬(s.writer.wleave = false ∧ nextAnswer s.env.sinkReleaseAns = .never)) :
    ∃ err', releaseSink err s = .done err' (released s) := by
  cases err with
  | some err => exact ⟨some err, releaseSink_after_error h⟩
  | none =>
    by_cases hok : s.writer.wleave = false ∧ nextAnswer s.env.sinkReleaseAns ≠ .ok
    · obtain ⟨hl, hnok⟩ := hok
      cases ha : nextAnswer s.env.sinkReleaseAns with
      | ok => exact absurd ha hnok
      | ioError e => exact ⟨_, releaseSink_ioError hl ha⟩
      | never => exact absurd ⟨hl, ha⟩ h
    · exact ⟨none, releaseSink_clean hok⟩

/-- However the ports answer, the close ends in one state. -/
theorem closeWriter_ends (s : State p) : (closeWriter s).Ends fun t => t = closedAfterAll s := by
  by_cases hw : s.writer.wcnt ≠ 0#3 ∧ nextAnswer s.env.sinkWriteAns = .never
  · obtain ⟨hflush, ha⟩ := hw
    rw [closeWriter, flushPartial_never hflush ha]; trivial
  obtain ⟨err, hf⟩ := flushPartial_answered hw
  by_cases hr : (flushed s).writer.wleave = false ∧ nextAnswer (flushed s).env.sinkReleaseAns = .never
  · obtain ⟨hl, ha⟩ := hr
    rw [closeWriter_stuck_at_release hf (releaseSink_never hl ha)]; trivial
  obtain ⟨err', hr⟩ := releaseSink_answered (err := err) hr
  rw [closeWriter, hf, Run.bind_done, hr]
  cases err' <;> rfl

/-! ## The frame of the four commands -/

/-- What the body of a writer command keeps (40_bitwriter.md R81 to R84). -/
structure WriterBodyKeeps (i : Instr) (s t : State p) : Prop where
  frame : hideWriter t = hideWriter s
  wleave : i.op ≠ .wopen → t.writer.wleave = s.writer.wleave
  release : i.op ≠ .wclose → t.env.sinkReleased = s.env.sinkReleased ∧ t.env.sinkReleaseAns = s.env.sinkReleaseAns
  wopenf : i.op ∈ [.wbit, .wbyte] → t.writer.wopenf = s.writer.wopenf
  env : i.op = .wopen → t.env = s.env

theorem WriterBodyKeeps.refl (i : Instr) (s : State p) : WriterBodyKeeps i s s :=
  ⟨rfl, fun _ => rfl, fun _ => ⟨rfl, rfl⟩, fun _ => rfl, fun _ => rfl⟩

theorem WriterBodyKeeps.of_samePass {i : Instr} {s t : State p} (hi : i.op ≠ .wopen) (hf : hideWriter t = hideWriter s)
    (h : SamePass s t) : WriterBodyKeeps i s t :=
  ⟨hf, fun _ => h.wleave, fun _ => ⟨h.released, h.releaseAns⟩, fun _ => h.wopenf, fun hw => absurd hw hi⟩

theorem bodyOf_writerKeeps {i : Instr} (hi : i.op ∈ [.wopen, .wbit, .wbyte, .wclose]) (s : State p) :
    (bodyOf i s).Ends (WriterBodyKeeps i s) := by
  cases i with
  | wopen leave => exact ⟨rfl, fun h => absurd rfl h, fun _ => ⟨rfl, rfl⟩, fun h => by simp [Instr.op] at h, fun _ => rfl⟩
  | wbit b =>
    exact Run.ends_bind_done (((writeBit_frame b s).and (writeBit_samePass b s)).imp fun _ ⟨hframe, hpass⟩ =>
      .of_samePass (by simp [Instr.op]) hframe hpass)
  | wbyte v =>
    exact Run.ends_bind_done (((writeBits_frame v 8 s).and (writeBits_samePass v 8 s)).imp fun _ ⟨hframe, hpass⟩ =>
      .of_samePass (by simp [Instr.op]) hframe hpass)
  | wclose =>
    refine Run.ends_bind_done (((closeWriter_frame s).and (closeWriter_ends s)).imp ?_)
    rintro _ ⟨hframe, rfl⟩
    exact ⟨hframe, fun _ => rfl, fun h => absurd rfl h, fun h => by simp [Instr.op] at h, fun h => by simp [Instr.op] at h⟩
  | _ => simp [Instr.op] at hi

/-- Settles O19: the body keeps what its writes and port calls do not name, and the frame of the command writes `STATUS`, `FAULTS`
and, with an I/O error only, `IOINFO`. -/
theorem writerCommandsFrame : Obligations.WriterCommandsFrame := by
  intro i s t hi h
  obtain ⟨hioinfo, -⟩ := ioinfoHoldsThePortsOwnCode i s t h
  obtain ⟨u, ⟨hframe, hwleave, hrelease, hwopenf, henv⟩, ht⟩ :=
    exec_next_of_ends h (WriterBodyKeeps.refl i s) (bodyOf_writerKeeps hi s)
  have hkept {α : Type} (f : State → α) : f (hideWriter u) = f (hideWriter s) := congrArg f hframe
  rw [ht]
  exact ⟨hkept State.reader, hkept State.decoder, hkept State.conf, hkept State.mem, hkept State.host,
    hkept (·.regs.cmd), hkept (·.regs.result), hioinfo,
    hkept (·.env.source), hkept (·.env.sourceReleased), hkept (·.env.symIn), hkept (·.env.symOut),
    hkept (·.env.sourceReadAns), hkept (·.env.sourceReleaseAns), hkept (·.env.symReadAns), hkept (·.env.symWriteAns),
    hwleave, hrelease, hwopenf, henv⟩

end Sys2Proof.Machine
end

section
/-!
`ROPEN`, `RBIT` and `RCLOSE` in every case (spec/41_bitreader.md R101, R102, R104).
-/
namespace Sys2Proof.Machine

variable {p : Params}

theorem exec_ropen_of_closed {i : Instr} {s : State} (hi : i.op = .ropen) (h : s.reader.ropenf = false) :
    exec i s = finish (bodyOf i s) :=
  exec_of_preOf_none ((preOf_ropen hi s).trans (needReaderClosed_eq_none.mpr h))

theorem exec_reader_of_open {i : Instr} {s : State} (hi : i.op ∈ [.rbit, .rbyte, .rclose, .decsym, .decode])
    (h : s.reader.ropenf = true) : exec i s = finish (bodyOf i s) :=
  exec_of_preOf_none ((preOf_reader hi s).trans (needReaderOpen_eq_none.mpr h))

/-- Settles O29: the body of `ROPEN` assigns the reader and the decoder and calls no port. -/
theorem ropenBeginsAPass : Obligations.RopenBeginsAPass := by
  intro leave s
  cases h : s.reader.ropenf with
  | false => exact exec_ropen_of_closed rfl h
  | true => exact exec_ropen_of_open rfl h

/-! ## A bit read when no bit is held (41_bitreader.md R102) -/

theorem readBit_after_end {s : State p} (h0 : s.reader.rcnt = 0#4) (he : s.reader.reof = true) :
    readBit s = .done .endOfInput s := by
  rw [readBit, if_pos h0, if_pos he]

/-- A byte is pulled and its first bit delivered: seven are held (41_bitreader.md R102). -/
theorem bitDelivered_bytePulled (r : Reader p) (y : Byte) : bitDelivered (bytePulled r y) =
    { r with rbuf := y, rcnt := 7#4, rbits := r.rbits + 1, rbytes := r.rbytes + 1 } := by
  simp [bitDelivered, bytePulled]

/-- A byte is pulled and its bit 7 delivered (41_bitreader.md R102 case a). -/
theorem readBit_byte {s : State p} {y : Byte} {rest : List Byte} (h0 : s.reader.rcnt = 0#4) (he : s.reader.reof = false)
    (ha : nextAnswer s.env.sourceReadAns = .ok) (hs : s.env.source = y :: rest) :
    readBit s = .done (.bit (y.getLsbD 7)) ((s.setReader (bitDelivered (bytePulled s.reader y))).setEnv { s.env with
      source := rest, sourceReadAns := s.env.sourceReadAns.tail, calls := s.env.calls ++ [.sourceRead] }) := by
  rw [readBit, if_pos h0, if_neg (by simp [he]), sourceRead_byte ha hs]
  rfl

theorem readBit_endOfSource {s : State p} (h0 : s.reader.rcnt = 0#4) (he : s.reader.reof = false)
    (ha : nextAnswer s.env.sourceReadAns = .ok) (hs : s.env.source = []) :
    readBit s = .done .endOfInput ((s.setReader { s.reader with reof := true }).setEnv { s.env with
      sourceReadAns := s.env.sourceReadAns.tail, calls := s.env.calls ++ [.sourceRead] }) := by
  rw [readBit, if_pos h0, if_neg (by simp [he]), sourceRead_end ha hs]
  rfl

theorem readBit_never {s : State p} (h0 : s.reader.rcnt = 0#4) (he : s.reader.reof = false)
    (ha : nextAnswer s.env.sourceReadAns = .never) : readBit s = .never .sourceRead := by
  rw [readBit, if_pos h0, if_neg (by simp [he]), sourceRead_never ha]
  rfl

/-- A bit as the word `RESULT` gets (41_bitreader.md R102). -/
theorem setWidth_ofBool_eq_ite (b : Bool) : (BitVec.ofBool b).setWidth 32 = if b then 1#32 else 0#32 := by
  cases b <;> rfl

/-- Settles O30: the reader is closed, or it holds a bit, or it has seen the end of the input, or the source answers. -/
theorem rbitReadsOneBit : Obligations.RbitReadsOneBit := by
  intro s
  dsimp only
  simp only [← setWidth_ofBool_eq_ite]
  by_cases hclosed : s.reader.ropenf = false
  · rw [exec_reader_of_closed (by simp [Instr.op]) hclosed, if_pos hclosed]
  rw [exec_reader_of_open (by simp [Instr.op]) (by simpa using hclosed), bodyOf, if_neg hclosed]
  by_cases h0 : s.reader.rcnt = 0#4
  · rw [if_neg (not_not.mpr h0)]
    by_cases hend : s.reader.reof = true
    · rw [if_pos hend, readBit_after_end h0 hend]; rfl
    have he : s.reader.reof = false := by simpa using hend
    rw [if_neg hend]
    cases ha : nextAnswer s.env.sourceReadAns with
    | ok =>
      cases hs : s.env.source with
      | nil => rw [readBit_endOfSource h0 he ha hs]; simp only [hs]; rfl
      | cons y rest => rw [readBit_byte h0 he ha hs, bitDelivered_bytePulled]; rfl
    | ioError e => rw [readBit_ioError h0 he ha, Run.bind_raise, finish_raise, takeError_io, statusOf_sourceRead]; rfl
    | never => rw [readBit_never h0 he ha]; rfl
  · rw [if_pos h0, readBit_held h0]; rfl

/-! ## The close (41_bitreader.md R104) -/

theorem closeReader_of_rleave {s : State p} (hl : s.reader.rleave = true) :
    closeReader s = .done .none (s.setReader { s.reader with ropenf := false }) := by
  rw [closeReader, if_pos hl]

theorem closeReader_ok {s : State p} (hl : s.reader.rleave = false) (ha : nextAnswer s.env.sourceReleaseAns = .ok) :
    closeReader s = .done .none ((s.setReader { s.reader with ropenf := false }).setEnv { s.env with
      sourceReleased := true, sourceReleaseAns := s.env.sourceReleaseAns.tail
      calls := s.env.calls ++ [.sourceRelease] }) := by
  rw [closeReader, if_neg (by simp [hl]), sourceRelease_ok ha]
  rfl

/-- The release fails: the reader ends closed all the same (41_bitreader.md R104). -/
theorem closeReader_ioError {s : State p} {e : Word} (hl : s.reader.rleave = false)
    (ha : nextAnswer s.env.sourceReleaseAns = .ioError e) :
    closeReader s = .raise (.io .sourceRelease e) ((s.setReader { s.reader with ropenf := false }).setEnv { s.env with
      sourceReleased := true, sourceReleaseAns := s.env.sourceReleaseAns.tail
      calls := s.env.calls ++ [.sourceRelease] }) := by
  rw [closeReader, if_neg (by simp [hl]), sourceRelease_ioError ha]
  rfl

theorem closeReader_never {s : State p} (hl : s.reader.rleave = false) (ha : nextAnswer s.env.sourceReleaseAns = .never) :
    closeReader s = .never .sourceRelease := by
  rw [closeReader, if_neg (by simp [hl]), sourceRelease_never ha]
  rfl

/-- Settles O33: the reader is closed, or in leave-open mode, or the release answers. -/
theorem rcloseReleasesAndCloses : Obligations.RcloseReleasesAndCloses := by
  intro s
  dsimp only
  by_cases hclosed : s.reader.ropenf = false
  · rw [exec_reader_of_closed (by simp [Instr.op]) hclosed, if_pos hclosed]
  rw [exec_reader_of_open (by simp [Instr.op]) (by simpa using hclosed), bodyOf, if_neg hclosed]
  by_cases hleave : s.reader.rleave = true
  · rw [if_pos hleave, closeReader_of_rleave hleave]; rfl
  have hl : s.reader.rleave = false := by simpa using hleave
  rw [if_neg hleave]
  cases ha : nextAnswer s.env.sourceReleaseAns with
  | ok => rw [closeReader_ok hl ha]; rfl
  | ioError e => rw [closeReader_ioError hl ha, finish_raise, takeError_io, statusOf_sourceRelease]; rfl
  | never => rw [closeReader_never hl ha]; rfl

end Sys2Proof.Machine
end

section
/-!
`RBYTE` (spec/41_bitreader.md R103, R105): it returns the next eight bits, or consumes the fewer that are left, or ends at a source
error with the bits it held consumed.
-/
namespace Sys2Proof.Machine

variable {p : Params}

/-! ## Eight bits to come, or fewer -/

/-- Bit `n` completes the bits of `y` from bit `n` up. -/
theorem highBits_or_bit (y : Byte) {n : Nat} (hn : n < 8) :
    y >>> (n + 1) <<< (n + 1) ||| (BitVec.ofBool (y.getLsbD n)).setWidth 8 <<< n = y >>> n <<< n := by
  apply BitVec.eq_of_getLsbD_eq
  intro i hi
  simp only [BitVec.getLsbD_or, BitVec.getLsbD_shiftLeft, BitVec.getLsbD_ushiftRight, BitVec.getLsbD_setWidth,
    BitVec.getLsbD_ofBool]
  obtain hlt | rfl | hgt := lt_trichotomy i n
  · simp [hlt, Nat.lt_succ_of_lt hlt]
  · simp
  · simp [hi, show ¬ i < n + 1 by omega, show ¬ i < n by omega, show n + 1 + (i - (n + 1)) = n + (i - n) by omega,
      show i - n ≠ 0 by omega]

/-- With the bits of `y` from bit `n` up collected and its low `n` bits to come, the loop collects `y`. -/
theorem readByteLoop_took {y : Byte} {n : Nat} {s : State p} {rest : List Bool} (hn : n ≤ 8) (h8 : s.reader.rcnt.toNat ≤ 8)
    (ha : ∀ a ∈ s.env.sourceReadAns, a = PortAnswer.ok) (hb : bitsToCome s = codeBits y n ++ rest) :
    ∃ t, readByteLoop n (y >>> n <<< n) s = .done .value (t.setResult (y.setWidth 32)) ∧ Took s t (codeBits y n) := by
  induction n generalizing s with
  | zero => exact ⟨s, by simp [readByteLoop], Took.refl h8 ha⟩
  | succ n ih =>
    rw [codeBits_succ] at hb ⊢
    obtain ⟨u, hu, hsu⟩ := readBit_took h8 ha hb
    have hcome : bitsToCome u = codeBits y n ++ rest := by simpa using hsu.come.symm.trans hb
    obtain ⟨t, ht, hut⟩ := ih (by omega) hsu.rcnt hsu.answers hcome
    exact ⟨t, by rw [readByteLoop, hu, Run.bind_done]; dsimp only; rw [highBits_or_bit y (by omega), ht], hsu.trans hut⟩

/-- With fewer than `n` bits to come, the loop consumes them and answers end-of-input (41_bitreader.md R103 case b). -/
theorem readByteLoop_end {n : Nat} {v : Byte} {s : State p} {bits : List Bool} (h8 : s.reader.rcnt.toNat ≤ 8)
    (ha : ∀ a ∈ s.env.sourceReadAns, a = PortAnswer.ok) (hb : bitsToCome s = bits) (hn : bits.length < n) :
    ∃ t, readByteLoop n v s = .done .endOfInput (t.setResult 0#32) ∧ Took s t bits ∧ t.reader.reof = true := by
  induction bits generalizing n v s with
  | nil =>
    obtain ⟨m, rfl⟩ := Nat.exists_eq_add_one_of_ne_zero hn.ne'
    obtain ⟨t, ht, hst, he⟩ := readBit_end h8 ha hb
    exact ⟨t, by rw [readByteLoop, ht]; rfl, hst, he⟩
  | cons b bits ih =>
    obtain ⟨m, rfl⟩ := Nat.exists_eq_add_one_of_ne_zero (Nat.ne_zero_of_lt hn)
    obtain ⟨u, hu, hsu⟩ := readBit_took h8 ha hb
    have hcome : bitsToCome u = bits := by simpa using hsu.come.symm.trans hb
    obtain ⟨t, ht, hut, he⟩ := ih (v := v ||| (BitVec.ofBool b).setWidth 8 <<< m) hsu.rcnt hsu.answers hcome
      (Nat.lt_of_succ_lt_succ hn)
    exact ⟨t, by rw [readByteLoop, hu]; exact ht, hsu.trans hut, he⟩

/-- Settles O31: the loop collects the byte bit by bit, the first most significant, or runs out of bits. -/
theorem rbyteReadsEightBits : Obligations.RbyteReadsEightBits := by
  intro s y rest hopen h8 ha
  have hrun : exec .rbyte s = finish (readByteLoop 8 0#8 s) := exec_reader_of_open (by simp [Instr.op]) hopen
  refine ⟨fun hb => ?_, fun hlt => ?_⟩
  · obtain ⟨t, ht, hst⟩ := readByteLoop_took (n := 8) le_rfl h8 ha hb
    have hstart : y >>> 8 <<< 8 = 0#8 := by simp
    rw [hstart] at ht
    rw [codeBits_eight] at hst
    have hcome : bitsToCome t = rest := by simpa using hst.come.symm.trans hb
    refine ⟨complete .value (t.setResult (y.setWidth 32)), by rw [hrun, ht, finish_done], ?_, hcome, hst.rbits⟩
    rw [complete_regs, State.setResult_regs, hst.regs, statusOk_value]
  · obtain ⟨t, ht, hst, he⟩ := readByteLoop_end (v := 0#8) h8 ha rfl hlt
    have hcome : bitsToCome t = [] := by simpa using hst.come
    refine ⟨complete .endOfInput (t.setResult 0#32), by rw [hrun, ht, finish_done], ?_, hcome, he, hst.rbits⟩
    rw [complete_regs, State.setResult_regs, hst.regs, statusOk_endOfInput]

/-! ## A source error -/

/-- A bit held is a bit delivered and one held less. -/
theorem setWidth_sub_one (w : Nat) {c : BitVec 4} (h0 : c ≠ 0#4) : 1 + (c - 1).setWidth w = c.setWidth w := by
  have hpos : c.toNat ≠ 0 := fun h => h0 (BitVec.eq_of_toNat_eq h)
  rw [← BitVec.ofNat_toNat, ← BitVec.ofNat_toNat, toNat_sub_one h0, ← Nat.add_sub_cancel' (Nat.one_le_iff_ne_zero.mpr hpos),
    BitVec.ofNat_add, Nat.add_sub_cancel_left]
  rfl

/-- With fewer than `n` bits held and the source about to fail, the loop consumes the held ones and ends with the error
(41_bitreader.md R103 case c). -/
theorem readByteLoop_ioError {n : Nat} {v : Byte} {s : State p} {e : Word} (hn : s.reader.rcnt.toNat < n)
    (he : s.reader.reof = false) (ha : nextAnswer s.env.sourceReadAns = .ioError e) :
    readByteLoop n v s = .raise (.io .sourceRead e) ((s.setReader { s.reader with
      rcnt := 0#4, rbits := s.reader.rbits + s.reader.rcnt.setWidth p.cntW }).setEnv { s.env with
        sourceReadAns := s.env.sourceReadAns.tail, calls := s.env.calls ++ [.sourceRead] }) := by
  induction n generalizing v s with
  | zero => exact absurd hn (Nat.not_lt_zero _)
  | succ n ih =>
    by_cases h0 : s.reader.rcnt = 0#4
    · have hzero : s.reader.rcnt.setWidth p.cntW = 0#_ := by rw [h0]; simp
      have hsame : { s.reader with rcnt := 0#4, rbits := s.reader.rbits + s.reader.rcnt.setWidth p.cntW } = s.reader := by
        rw [hzero, BitVec.add_zero, ← h0]
      rw [readByteLoop, readBit_ioError h0 he ha, hsame]
      rfl
    · have hfewer : (bitDelivered s.reader).rcnt.toNat < n := by
        have := rcnt_delivered h0
        have : s.reader.rcnt.toNat ≠ 0 := fun h => h0 (BitVec.eq_of_toNat_eq h)
        omega
      rw [readByteLoop, readBit_held h0, Run.bind_done]
      dsimp only
      rw [ih (s := s.setReader (bitDelivered s.reader)) hfewer he ha, ← setWidth_sub_one _ h0, ← BitVec.add_assoc]
      rfl

/-- Settles O32: the held bits are delivered without a call, and the next bit asks the source, which fails. -/
theorem rbyteSourceErrorKeepsWhatWasTaken : Obligations.RbyteSourceErrorKeepsWhatWasTaken := by
  intro s e hopen hlt he ha
  rw [exec_reader_of_open (by simp [Instr.op]) hopen, bodyOf, readByteLoop_ioError hlt he ha, finish_raise, takeError_io,
    statusOf_sourceRead]
  rfl

end Sys2Proof.Machine
end

section
/-!
What the four reader commands leave unchanged (spec/41_bitreader.md R101 to R104, "State written").
-/
namespace Sys2Proof.Machine

variable {p : Params}

/-- The state with what the reader commands write blanked: the reader, the source, the decoder and `RESULT`. -/
def hideReaderCommand (s : State p) : State p := ((hideReader s).setDecoder Decoder.atReset).setResult 0#32

/-! ## Reading bits neither ends the pass nor releases the source -/

/-- From `s` to `t` the reader has gone on with the same pass: open as before, in the same mode, the source not released, the decoder
not moved. -/
structure SameReadPass (s t : State p) : Prop where
  frame : hideReaderCommand t = hideReaderCommand s
  decoder : t.decoder = s.decoder
  ropenf : t.reader.ropenf = s.reader.ropenf
  rleave : t.reader.rleave = s.reader.rleave
  released : t.env.sourceReleased = s.env.sourceReleased
  releaseAns : t.env.sourceReleaseAns = s.env.sourceReleaseAns

theorem SameReadPass.refl (s : State p) : SameReadPass s s := ⟨rfl, rfl, rfl, rfl, rfl, rfl⟩

theorem SameReadPass.trans {s t u : State p} (h : SameReadPass s t) (k : SameReadPass t u) : SameReadPass s u :=
  ⟨k.frame.trans h.frame, k.decoder.trans h.decoder, k.ropenf.trans h.ropenf, k.rleave.trans h.rleave,
    k.released.trans h.released, k.releaseAns.trans h.releaseAns⟩

theorem sameReadPass_setResult (s : State p) (v : Word) : SameReadPass s (s.setResult v) := ⟨rfl, rfl, rfl, rfl, rfl, rfl⟩

theorem readBit_sameReadPass (s : State p) : (readBit s).Ends (SameReadPass s) := by
  by_cases h0 : s.reader.rcnt = 0#4
  · cases he : s.reader.reof with
    | true => rw [readBit_after_end h0 he]; exact SameReadPass.refl s
    | false =>
      cases ha : nextAnswer s.env.sourceReadAns with
      | ok =>
        cases hs : s.env.source with
        | nil => rw [readBit_endOfSource h0 he ha hs]; exact ⟨rfl, rfl, rfl, rfl, rfl, rfl⟩
        | cons y rest => rw [readBit_byte h0 he ha hs]; exact ⟨rfl, rfl, rfl, rfl, rfl, rfl⟩
      | ioError e => rw [readBit_ioError h0 he ha]; exact ⟨rfl, rfl, rfl, rfl, rfl, rfl⟩
      | never => rw [readBit_never h0 he ha]; trivial
  · rw [readBit_held h0]; exact ⟨rfl, rfl, rfl, rfl, rfl, rfl⟩

/-- What follows a bit read in the same pass. -/
theorem readBit_bind_sameReadPass {α : Type} {f : BitResult → State p → Run p α} (s : State p)
    (hf : ∀ r u, (f r u).Ends (SameReadPass u)) : ((readBit s).bind f).Ends (SameReadPass s) :=
  Run.ends_bind (readBit_sameReadPass s) (fun r u hu => (hf r u).imp fun _ ht => hu.trans ht) fun _ hu => hu

theorem bitToResult_sameReadPass (r : BitResult) (s : State p) : (bitToResult r s).Ends (SameReadPass s) := by
  cases r <;> exact sameReadPass_setResult s _

theorem readByteLoop_sameReadPass (n : Nat) (v : Byte) (s : State p) : (readByteLoop n v s).Ends (SameReadPass s) := by
  induction n generalizing v s with
  | zero => exact sameReadPass_setResult s _
  | succ n ih =>
    refine readBit_bind_sameReadPass s fun r u => ?_
    cases r with
    | bit b => exact ih _ u
    | endOfInput => exact sameReadPass_setResult u _

/-! ## The close -/

/-- However the release answers, the close writes `ROPENF`, and of the environment what a release call does. -/
theorem closeReader_ends (s : State p) : (closeReader s).Ends fun t => ∃ released ans calls,
    t = (s.setReader { s.reader with ropenf := false }).setEnv { s.env with
      sourceReleased := released, sourceReleaseAns := ans, calls := calls } := by
  cases hl : s.reader.rleave with
  | true => rw [closeReader_of_rleave hl]; exact ⟨_, _, _, rfl⟩
  | false =>
    cases ha : nextAnswer s.env.sourceReleaseAns with
    | ok => rw [closeReader_ok hl ha]; exact ⟨_, _, _, rfl⟩
    | ioError e => rw [closeReader_ioError hl ha]; exact ⟨_, _, _, rfl⟩
    | never => rw [closeReader_never hl ha]; trivial

/-! ## The frame of the four commands -/

/-- What the body of a reader command keeps (41_bitreader.md R101 to R104). -/
structure ReaderBodyKeeps (i : Instr) (s t : State p) : Prop where
  frame : hideReaderCommand t = hideReaderCommand s
  pass : i.op ≠ .ropen → t.decoder = s.decoder ∧ t.reader.rleave = s.reader.rleave
  input : i.op ∈ [.ropen, .rclose] →
    t.regs.result = s.regs.result ∧ t.env.source = s.env.source ∧ t.env.sourceReadAns = s.env.sourceReadAns
  release : i.op ≠ .rclose →
    t.env.sourceReleased = s.env.sourceReleased ∧ t.env.sourceReleaseAns = s.env.sourceReleaseAns
  ropenf : i.op ∈ [.rbit, .rbyte] → t.reader.ropenf = s.reader.ropenf
  closed : i.op = .rclose → t.reader = { s.reader with ropenf := false } ∨ t.reader = s.reader
  env : i.op = .ropen → t.env = s.env

theorem ReaderBodyKeeps.refl (i : Instr) (s : State p) : ReaderBodyKeeps i s s :=
  ⟨rfl, fun _ => ⟨rfl, rfl⟩, fun _ => ⟨rfl, rfl, rfl⟩, fun _ => ⟨rfl, rfl⟩, fun _ => rfl, fun _ => .inr rfl, fun _ => rfl⟩

theorem ReaderBodyKeeps.of_sameReadPass {i : Instr} {s t : State p} (hi : i.op ∈ [.rbit, .rbyte]) (h : SameReadPass s t) :
    ReaderBodyKeeps i s t := by
  have hother : i.op ≠ .ropen ∧ i.op ≠ .rclose := by
    constructor <;> intro h <;> simp [h] at hi
  obtain ⟨hropen, hrclose⟩ := hother
  exact ⟨h.frame, fun _ => ⟨h.decoder, h.rleave⟩, fun hin => by simp [hropen, hrclose] at hin,
    fun _ => ⟨h.released, h.releaseAns⟩, fun _ => h.ropenf, fun hc => absurd hc hrclose, fun ho => absurd ho hropen⟩

theorem bodyOf_readerKeeps {i : Instr} (hi : i.op ∈ [.ropen, .rbit, .rbyte, .rclose]) (s : State p) :
    (bodyOf i s).Ends (ReaderBodyKeeps i s) := by
  cases i with
  | ropen leave =>
    exact ⟨rfl, fun h => absurd rfl h, fun _ => ⟨rfl, rfl, rfl⟩, fun _ => ⟨rfl, rfl⟩, fun h => by simp [Instr.op] at h,
      fun h => by simp [Instr.op] at h, fun _ => rfl⟩
  | rbit =>
    exact (readBit_bind_sameReadPass s bitToResult_sameReadPass).imp fun _ => .of_sameReadPass (by simp [Instr.op])
  | rbyte => exact (readByteLoop_sameReadPass 8 0#8 s).imp fun _ => .of_sameReadPass (by simp [Instr.op])
  | rclose =>
    refine (closeReader_ends s).imp ?_
    rintro _ ⟨_, _, _, rfl⟩
    exact ⟨rfl, fun _ => ⟨rfl, rfl⟩, fun _ => ⟨rfl, rfl, rfl⟩, fun h => absurd rfl h, fun h => by simp [Instr.op] at h,
      fun _ => .inl rfl, fun h => by simp [Instr.op] at h⟩
  | _ => simp [Instr.op] at hi

/-- Settles O21: the body keeps what its writes and port calls do not name, and the frame of the command writes `STATUS`, `FAULTS`
and, with an I/O error only, `IOINFO`. -/
theorem readerCommandsFrame : Obligations.ReaderCommandsFrame := by
  intro i s t hi h
  obtain ⟨hioinfo, -⟩ := ioinfoHoldsThePortsOwnCode i s t h
  obtain ⟨u, ⟨hframe, hpass, hinput, hrelease, hropenf, hclosed, henv⟩, ht⟩ :=
    exec_next_of_ends h (ReaderBodyKeeps.refl i s) (bodyOf_readerKeeps hi s)
  have hkept {α : Type} (f : State → α) : f (hideReaderCommand u) = f (hideReaderCommand s) := congrArg f hframe
  rw [ht]
  exact ⟨hkept State.writer, hkept State.conf, hkept State.mem, hkept State.host, hkept (·.regs.cmd), hioinfo,
    hkept (·.env.sink), hkept (·.env.sinkReleased), hkept (·.env.symIn), hkept (·.env.symOut),
    hkept (·.env.sinkWriteAns), hkept (·.env.sinkReleaseAns), hkept (·.env.symReadAns), hkept (·.env.symWriteAns),
    hpass, hinput, hrelease, hropenf, hclosed, henv⟩

end Sys2Proof.Machine
end

section
/-!
`ENCSYM` and the rounds of `ENCODE` (spec/42_encoder.md R121, R122): a symbol is refused before any bit is written, or its code is
written; a round takes one symbol off the input.
-/
namespace Sys2Proof.Machine

variable {p : Params}

/-! ## One symbol -/

theorem badCodeLen_eq_true {e : CodeEntry p} : badCodeLen e = true ↔ e.len.toNat = 0 ∨ p.lmax < e.len.toNat := by
  simp [badCodeLen]

theorem GoodEntry.badCodeLen_eq_false {e : CodeEntry p} (h : GoodEntry e) : badCodeLen e = false := by
  obtain ⟨-, hpos, hle⟩ := h
  rw [← Bool.not_eq_true, badCodeLen_eq_true]
  omega

theorem encodeSymbol_absent {x : Sym p} {s : State p} (h : (s.mem.codeAt x).valid = false) :
    encodeSymbol x s = .raise .unknownSymbol (s.setResult (x.setWidth 32)) := if_pos h

theorem encodeSymbol_badCodeLen {x : Sym p} {s : State p} (h : (s.mem.codeAt x).valid = true)
    (hbad : badCodeLen (s.mem.codeAt x) = true) :
    encodeSymbol x s = .raise (.badConfig .badCodeLen) (s.setResult (x.setWidth 32)) := by
  simp [encodeSymbol, h, hbad]

theorem encodeSymbol_accepted {x : Sym p} {s : State p} (h : (s.mem.codeAt x).valid = true)
    (hbad : badCodeLen (s.mem.codeAt x) = false) :
    encodeSymbol x s = writeBits (s.mem.codeAt x).raw (s.mem.codeAt x).len.toNat s := by
  simp [encodeSymbol, h, hbad]

/-- A symbol is refused, `RESULT` naming it, or the bits of its code are written (42_encoder.md R121). -/
theorem encodeSymbol_refused_or_written (x : Sym p) (s : State p) :
    (∃ r : Raise, r.kind.code ∈ [2#4, 8#4] ∧ encodeSymbol x s = .raise r (s.setResult (x.setWidth 32))) ∨
    encodeSymbol x s = writeBits (s.mem.codeAt x).raw (s.mem.codeAt x).len.toNat s := by
  cases hv : (s.mem.codeAt x).valid with
  | false => exact .inl ⟨_, by decide, encodeSymbol_absent hv⟩
  | true =>
    cases hbad : badCodeLen (s.mem.codeAt x) with
    | true => exact .inl ⟨_, by decide, encodeSymbol_badCodeLen hv hbad⟩
    | false => exact .inr (encodeSymbol_accepted hv hbad)

/-- With the writer open `ENCSYM` is its sub-step. -/
theorem exec_encsym_of_open {s : State} (h : s.writer.wopenf = true) (x : Sym) :
    exec (.encsym x) s = finish ((encodeSymbol x s).bind fun _ t => .done .none t) := by
  rw [exec_writer_of_open (by simp [Instr.op]) h, bodyOf, symOperand_default]

/-- Settles O34: the two checks stand before the first bit, and error entry writes `STATUS` and `FAULTS` only. -/
theorem encsymRefusesAbsentAndBadCodes : Obligations.EncsymRefusesAbsentAndBadCodes := by
  intro x s hopen
  rw [exec_encsym_of_open hopen]
  constructor
  · intro habsent
    rw [encodeSymbol_absent habsent]
    rfl
  · intro hvalid hlen
    rw [encodeSymbol_badCodeLen hvalid (badCodeLen_eq_true.mpr hlen)]
    rfl

/-- The bytes handed over are those the bits held and the bits written fill (40_bitwriter.md R85). -/
theorem length_of_unpack_append_heldBits {out : List Byte} {w w' : Writer p} {bits : List Bool}
    (h : unpack out ++ heldBits w' = heldBits w ++ bits) : out.length = (w.wcnt.toNat + bits.length) / 8 := by
  have hlen := congrArg List.length h
  rw [List.length_append, List.length_append, unpack_length, heldBits_length, heldBits_length] at hlen
  have := w'.wcnt.isLt
  omega

/-- Settles O35: a good code's bits are written one by one, as `Wrote` says while the sink accepts every byte, up to the failing byte
else. -/
theorem encsymAppendsItsCode : Obligations.EncsymAppendsItsCode := by
  intro x s hopen hlow hgood code
  rw [exec_encsym_of_open hopen]
  constructor
  · intro hans
    obtain ⟨u, hu, hw⟩ := encodeSymbol_wrote hgood hlow hans
    obtain ⟨out, hsink, hbits, hbytes⟩ := hw.out
    have hregs : u.regs = s.regs := (congrArg State.regs hw.frame :)
    refine ⟨complete .none u, out, by rw [hu]; rfl, hsink, hbits, hw.low, ?_, hbytes, ?_, ?_⟩
    · rw [complete_writer, hw.wbits, codeBits_length, BitVec.ofNat_toNat]
    · rw [length_of_unpack_append_heldBits hbits, codeBits_length]
    · rw [complete_regs, hregs, statusOk_none]
  · intro j e later hans hj bytes
    rw [encodeSymbol_accepted hgood.1 hgood.badCodeLen_eq_false, writeBits_ioError hlow hans hj, Run.bind_raise, finish_raise,
      takeError_io, statusOf_sinkWrite]
    rfl

/-! ## What `ENCSYM` keeps -/

/-- The state with what `ENCSYM` writes blanked: the writer, the sink and `RESULT`. -/
def hideEncsym (s : State p) : State p := (hideWriter s).setResult 0#32

/-- What the sub-step `ENCSYM` keeps: it goes on with the same pass and reads no symbol. -/
structure EncsymKeeps (s t : State p) : Prop where
  frame : hideEncsym t = hideEncsym s
  pass : SamePass s t

theorem EncsymKeeps.refl (s : State p) : EncsymKeeps s s := ⟨rfl, SamePass.refl s⟩

theorem EncsymKeeps.symIn {s t : State p} (h : EncsymKeeps s t) : t.env.symIn = s.env.symIn :=
  (congrArg (·.env.symIn) h.frame :)

theorem EncsymKeeps.symReadAns {s t : State p} (h : EncsymKeeps s t) : t.env.symReadAns = s.env.symReadAns :=
  (congrArg (·.env.symReadAns) h.frame :)

theorem encodeSymbol_keeps (x : Sym p) (s : State p) : (encodeSymbol x s).Ends (EncsymKeeps s) := by
  obtain ⟨r, -, h⟩ | h := encodeSymbol_refused_or_written x s
  · rw [h]; exact ⟨rfl, rfl, rfl, rfl, rfl⟩
  · rw [h]
    exact ((writeBits_frame _ _ s).and (writeBits_samePass _ _ s)).imp fun _ ⟨hframe, hpass⟩ =>
      ⟨congrArg (State.setResult · 0#32) hframe, hpass⟩

/-! ## The rounds of `ENCODE` -/

/-- After a call of `SymRead` that was answered: the first symbol, if there is one, is off the input (20_memory.md R47). -/
def symbolTaken (s : State p) : State p :=
  s.setEnv { s.env with
    symIn := s.env.symIn.tail, symReadAns := s.env.symReadAns.tail, calls := s.env.calls ++ [.symRead] }

theorem symRead_answered {s : State p} (ha : nextSymAnswer s.env.symReadAns = .ok) :
    symRead s = .done s.env.symIn.head? (symbolTaken s) := by
  cases hs : s.env.symIn with
  | nil => rw [symRead_end ha hs]; simp [symbolTaken, hs]
  | cons x rest => rw [symRead_symbol ha hs]; simp [symbolTaken, hs]

theorem encodeAll_stuck {s : State p} (ha : nextSymAnswer s.env.symReadAns = .never) : encodeAll s = .never .symRead := by
  rw [encodeAll, encodeLoop, symRead_never ha, Run.bind_never]

/-- The last round closes (42_encoder.md R122). -/
theorem encodeAll_nil {s : State p} (ha : nextSymAnswer s.env.symReadAns = .ok) (hs : s.env.symIn = []) :
    encodeAll s = closeWriter (symbolTaken s) := by
  rw [encodeAll, encodeLoop, symRead_answered ha, hs]
  rfl

/-- Two continuations that agree wherever the first sub-step ends make the same run. -/
theorem Run.bind_congr_ends {α β : Type} {P : State p → Prop} {x : Run p α} {f g : α → State p → Run p β} (hx : x.Ends P)
    (h : ∀ a t, P t → f a t = g a t) : x.bind f = x.bind g := by
  cases x with
  | done a t => exact h a t hx
  | raise r t => rfl
  | never port => rfl

/-- Another round encodes its symbol; the bound of the loop then still is what `encodeAll` gives it (42_encoder.md R122). -/
theorem encodeAll_cons {s : State p} {x : Sym p} {rest : List (Sym p)} (ha : nextSymAnswer s.env.symReadAns = .ok)
    (hs : s.env.symIn = x :: rest) : encodeAll s = (encodeSymbol x (symbolTaken s)).bind fun _ t => encodeAll t := by
  rw [encodeAll, encodeLoop, symRead_answered ha, hs]
  refine Run.bind_congr_ends (encodeSymbol_keeps x (symbolTaken s)) fun _ t ht => ?_
  have hin : t.env.symIn = rest := by rw [ht.symIn, symbolTaken, State.setEnv_env, hs, List.tail_cons]
  rw [encodeAll, hin, List.length_cons]

/-- Settles O39: no answer, the end of the input, and a symbol taken off it, each a round of its own. -/
theorem encodeLoopEquation : Obligations.EncodeLoopEquation := by
  intro s
  cases ha : nextSymAnswer s.env.symReadAns with
  | never => rw [encodeAll_stuck ha, symRead_never ha, Run.bind_never]
  | ok =>
    rw [symRead_answered ha]
    cases hs : s.env.symIn with
    | nil => exact encodeAll_nil ha hs
    | cons x rest => exact encodeAll_cons ha hs

end Sys2Proof.Machine
end

section
/-!
What `ENCSYM` and `ENCODE` leave unchanged (spec/42_encoder.md R121, R122, "State written").
-/
namespace Sys2Proof.Machine

variable {p : Params}

/-! ## `RESULT` -/

section
variable {α β : Type}

/-- The run returns with `v` in `RESULT`, and raises so unless it refuses a symbol (42_encoder.md R121). -/
def Run.KeepsResult (v : Word) : Run p α → Prop
  | .done _ t => t.regs.result = v
  | .raise r t => r.kind.code ∉ [2#4, 8#4] → t.regs.result = v
  | .never _ => True

theorem Run.KeepsResult.bind {v : Word} {x : Run p α} {f : α → State p → Run p β} (hx : x.KeepsResult v)
    (hf : ∀ a t, t.regs.result = v → (f a t).KeepsResult v) : (x.bind f).KeepsResult v := by
  cases x with
  | done a t => exact hf a t hx
  | raise r t => exact hx
  | never port => trivial

/-- What writes only the writer and the sink keeps `RESULT`. -/
theorem Run.keepsResult_of_hideWriter {s : State p} {x : Run p α} (h : x.Ends fun t => hideWriter t = hideWriter s) :
    x.KeepsResult s.regs.result := by
  have hresult {t : State p} (ht : hideWriter t = hideWriter s) : t.regs.result = s.regs.result :=
    (congrArg (·.regs.result) ht :)
  cases x with
  | done a t => exact hresult h
  | raise r t => exact fun _ => hresult h
  | never port => trivial

end

theorem encodeSymbol_keepsResult (x : Sym p) (s : State p) : (encodeSymbol x s).KeepsResult s.regs.result := by
  obtain ⟨r, hr, h⟩ | h := encodeSymbol_refused_or_written x s
  · rw [h]; exact fun hnot => absurd hr hnot
  · rw [h]; exact Run.keepsResult_of_hideWriter (writeBits_frame _ _ s)

theorem symRead_keepsResult (s : State p) : (symRead s).KeepsResult s.regs.result := by
  cases ha : nextSymAnswer s.env.symReadAns with
  | never => rw [symRead_never ha]; trivial
  | ok => rw [symRead_answered ha]; exact rfl

theorem encodeLoop_keepsResult (n : Nat) (s : State p) : (encodeLoop n s).KeepsResult s.regs.result := by
  induction n generalizing s with
  | zero => exact Run.keepsResult_of_hideWriter (closeWriter_frame s)
  | succ n ih =>
    refine (symRead_keepsResult s).bind fun r t ht => ht ▸ ?_
    cases r with
    | none => exact Run.keepsResult_of_hideWriter (closeWriter_frame t)
    | some x => exact (encodeSymbol_keepsResult x t).bind fun _ u hu => hu ▸ ih u

theorem bodyOf_keepsResult {i : Instr} (hi : i.op ∈ [.encsym, .encode]) (s : State p) :
    (bodyOf i s).KeepsResult s.regs.result := by
  cases i with
  | encsym x => exact (encodeSymbol_keepsResult _ s).bind fun _ _ h => h
  | encode => exact (encodeLoop_keepsResult _ s).bind fun _ _ h => h
  | _ => simp [Instr.op] at hi

/-- A command whose body keeps `RESULT` so does the same, whatever its precondition. -/
theorem result_of_keepsResult {i : Instr} {s t : State} (h : exec i s = .next t)
    (hb : (bodyOf i s).KeepsResult s.regs.result) (herr : errField t.regs.status ∉ [2#4, 8#4]) :
    t.regs.result = s.regs.result := by
  rw [exec_eq_runCommand, runCommand_eq_next] at h
  obtain ⟨c, -, rfl⟩ | ⟨-, ⟨k, u, hu, rfl⟩ | ⟨r, u, hu, rfl⟩⟩ := h
  · rfl
  · rw [hu] at hb; exact hb
  · rw [hu] at hb; rw [takeError_status, errField_statusOf] at herr; exact hb herr

/-! ## Everything else -/

/-- The state with what `ENCODE` writes blanked: as `hideEncoder`, but `WLEAVE` is shown. -/
def hideEncode (s : State p) : State p := (hideEncoder s).setWriter { Writer.atReset with wleave := s.writer.wleave }

theorem hideEncode_eq {s t : State p} (h : hideEncoder t = hideEncoder s) (hleave : t.writer.wleave = s.writer.wleave) :
    hideEncode t = hideEncode s := by
  rw [hideEncode, hideEncode, h, hleave]

theorem symRead_hideEncode (s : State p) : (symRead s).Ends fun t => hideEncode t = hideEncode s := by
  cases ha : nextSymAnswer s.env.symReadAns with
  | never => rw [symRead_never ha]; trivial
  | ok => rw [symRead_answered ha]; exact rfl

theorem encodeSymbol_hideEncode (x : Sym p) (s : State p) : (encodeSymbol x s).Ends fun t => hideEncode t = hideEncode s :=
  ((encodeSymbol_frame x s).and (encodeSymbol_keeps x s)).imp fun _ ⟨hframe, hkeeps⟩ => hideEncode_eq hframe hkeeps.pass.wleave

theorem closeWriter_hideEncode (s : State p) : (closeWriter s).Ends fun t => hideEncode t = hideEncode s := by
  refine ((closeWriter_frame s).and (closeWriter_ends s)).imp ?_
  rintro _ ⟨hframe, rfl⟩
  exact hideEncode_eq (hideEncoder_of_hideWriter hframe) rfl

theorem encodeLoop_hideEncode (n : Nat) (s : State p) : (encodeLoop n s).Ends fun t => hideEncode t = hideEncode s := by
  induction n generalizing s with
  | zero => exact closeWriter_hideEncode s
  | succ n ih =>
    refine Run.ends_bind_hide (symRead_hideEncode s) fun r t _ => ?_
    cases r with
    | none => exact closeWriter_hideEncode t
    | some x => exact Run.ends_bind_hide (encodeSymbol_hideEncode x t) fun _ u _ => ih u

/-- What the body of an encoder command keeps beside `RESULT` (42_encoder.md R121, R122). -/
structure EncoderBodyKeeps (i : Instr) (s t : State p) : Prop where
  frame : hideEncode t = hideEncode s
  encsym : i.op = .encsym → EncsymKeeps s t

theorem bodyOf_encoderKeeps {i : Instr} (hi : i.op ∈ [.encsym, .encode]) (s : State p) :
    (bodyOf i s).Ends (EncoderBodyKeeps i s) := by
  cases i with
  | encsym x =>
    exact Run.ends_bind_done (((encodeSymbol_hideEncode _ s).and (encodeSymbol_keeps _ s)).imp fun _ ⟨hframe, hkeeps⟩ =>
      ⟨hframe, fun _ => hkeeps⟩)
  | encode => exact Run.ends_bind_done ((encodeLoop_hideEncode _ s).imp fun _ hframe => ⟨hframe, fun h => by simp [Instr.op] at h⟩)
  | _ => simp [Instr.op] at hi

/-- Settles O20: the body keeps what its writes and port calls do not name, and `RESULT` unless it refuses a symbol; the frame of the
command writes `STATUS`, `FAULTS` and, with an I/O error only, `IOINFO`. -/
theorem encoderCommandsFrame : Obligations.EncoderCommandsFrame := by
  intro i s t hi h
  obtain ⟨hioinfo, -⟩ := ioinfoHoldsThePortsOwnCode i s t h
  have hresult := result_of_keepsResult h (bodyOf_keepsResult hi s)
  obtain ⟨u, ⟨hframe, hencsym⟩, ht⟩ :=
    exec_next_of_ends h ⟨rfl, fun _ => EncsymKeeps.refl s⟩ (bodyOf_encoderKeeps hi s)
  have hkept {α : Type} (f : State → α) : f (hideEncode u) = f (hideEncode s) := congrArg f hframe
  rw [ht] at hresult ⊢
  exact ⟨hkept State.reader, hkept State.decoder, hkept State.conf, hkept State.mem, hkept State.host,
    hkept (·.regs.cmd), hresult, hioinfo,
    hkept (·.env.source), hkept (·.env.sourceReleased), hkept (·.env.symOut),
    hkept (·.env.sourceReadAns), hkept (·.env.sourceReleaseAns), hkept (·.env.symWriteAns), hkept (·.writer.wleave),
    fun henc => ⟨(hencsym henc).pass.wopenf, (hencsym henc).symIn, (hencsym henc).symReadAns, (hencsym henc).pass.released,
      (hencsym henc).pass.releaseAns⟩⟩

end Sys2Proof.Machine
end

section
/-!
`ENCODE` with a sink and a symbol input that answer without error: what the symbols put in the sink and in the partial byte, up to
the end of the input or to an absent symbol (spec/42_encoder.md R122, 40_bitwriter.md R85).
-/
namespace Sys2Proof.Machine

variable {p : Params}

/-! ## The symbol input put aside -/

/-- The state with another symbol input. -/
def withSymIn (xs : List (Sym p)) (ans : List SymAnswer) (s : State p) : State p :=
  s.setEnv { s.env with symIn := xs, symReadAns := ans }

/-- Writing bits is the same whatever is on the symbol input. -/
theorem Wrote.withSymIn {s t : State p} {bits : List Bool} (h : Wrote s t bits) (xs : List (Sym p)) (ans : List SymAnswer) :
    Wrote (withSymIn xs ans s) (withSymIn xs ans t) bits :=
  ⟨congrArg (Machine.withSymIn xs ans) h.frame, h.wopenf, h.wleave, h.low, h.wbits, h.answers, h.released, h.releaseAns, h.out⟩

/-- From `s` to `t` the encoder has written `bits`, and `rest` is still on the symbol input, which answers every call to come. -/
structure Encoded (s t : State p) (bits : List Bool) (rest : List (Sym p)) : Prop where
  wrote : Wrote (withSymIn rest t.env.symReadAns s) t bits
  answered : ∀ a ∈ t.env.symReadAns, a = SymAnswer.ok

theorem Encoded.symIn {s t : State p} {bits : List Bool} {rest : List (Sym p)} (h : Encoded s t bits rest) :
    t.env.symIn = rest := (congrArg (·.env.symIn) h.wrote.frame :)

theorem Encoded.mem {s t : State p} {bits : List Bool} {rest : List (Sym p)} (h : Encoded s t bits rest) : t.mem = s.mem :=
  (congrArg State.mem h.wrote.frame :)

theorem Encoded.regs {s t : State p} {bits : List Bool} {rest : List (Sym p)} (h : Encoded s t bits rest) : t.regs = s.regs :=
  (congrArg State.regs h.wrote.frame :)

theorem Encoded.refl {s : State p} (hlow : s.writer.wbuf <<< s.writer.wcnt.toNat = 0#8)
    (hsink : ∀ a ∈ s.env.sinkWriteAns, a = PortAnswer.ok) (hsym : ∀ a ∈ s.env.symReadAns, a = SymAnswer.ok) :
    Encoded s s [] s.env.symIn := ⟨Wrote.refl hlow hsink, hsym⟩

theorem Encoded.trans {s t u : State p} {bits bits' : List Bool} {mid rest : List (Sym p)} (h : Encoded s t bits mid)
    (k : Encoded t u bits' rest) : Encoded s u (bits ++ bits') rest :=
  ⟨(h.wrote.withSymIn rest u.env.symReadAns).trans k.wrote, k.answered⟩

/-! ## Rounds -/

/-- What is written after a symbol was taken off the input. -/
theorem Encoded.of_wrote {s t : State p} {bits : List Bool} (h : Wrote (symbolTaken s) t bits)
    (hsym : ∀ a ∈ s.env.symReadAns, a = SymAnswer.ok) : Encoded s t bits s.env.symIn.tail := by
  have hans : t.env.symReadAns = s.env.symReadAns.tail := (congrArg (·.env.symReadAns) h.frame :)
  refine ⟨?_, hans ▸ tail_ok hsym⟩
  rw [hans]
  exact ⟨h.frame, h.wopenf, h.wleave, h.low, h.wbits, h.answers, h.released, h.releaseAns, h.out⟩

/-- A round with a good symbol writes its code (42_encoder.md R121, R122). -/
theorem encodeAll_round {s : State p} {x : Sym p} {rest : List (Sym p)} (hin : s.env.symIn = x :: rest)
    (hgood : GoodEntry (s.mem.codeAt x)) (hlow : s.writer.wbuf <<< s.writer.wcnt.toNat = 0#8)
    (hsink : ∀ a ∈ s.env.sinkWriteAns, a = PortAnswer.ok) (hsym : ∀ a ∈ s.env.symReadAns, a = SymAnswer.ok) :
    ∃ t, encodeAll s = encodeAll t ∧ Encoded s t (codeBits (s.mem.codeAt x).raw (s.mem.codeAt x).len.toNat) rest := by
  obtain ⟨t, ht, hw⟩ := encodeSymbol_wrote (s := symbolTaken s) hgood hlow hsink
  refine ⟨t, by rw [encodeAll_cons (nextSymAnswer_ok hsym) hin, ht, Run.bind_done], ?_⟩
  have henc := Encoded.of_wrote hw hsym
  rwa [hin] at henc

/-- Good symbols at the front of the input are written, one round each (42_encoder.md R122). -/
theorem encodeAll_rounds {good rest : List (Sym p)} {s : State p} (hin : s.env.symIn = good ++ rest)
    (hgood : ∀ x ∈ good, GoodEntry (s.mem.codeAt x)) (hlow : s.writer.wbuf <<< s.writer.wcnt.toNat = 0#8)
    (hsink : ∀ a ∈ s.env.sinkWriteAns, a = PortAnswer.ok) (hsym : ∀ a ∈ s.env.symReadAns, a = SymAnswer.ok) :
    ∃ t, encodeAll s = encodeAll t ∧ Encoded s t (symbolBits s.mem good) rest := by
  induction good generalizing s with
  | nil =>
    obtain rfl : s.env.symIn = rest := hin
    exact ⟨s, rfl, Encoded.refl hlow hsink hsym⟩
  | cons x good ih =>
    obtain ⟨t, ht, hx⟩ := encodeAll_round hin (hgood x List.mem_cons_self) hlow hsink hsym
    obtain ⟨u, hu, hrest⟩ := ih hx.symIn (fun y hy => hx.mem ▸ hgood y (List.mem_cons_of_mem x hy)) hx.wrote.low
      hx.wrote.answers hx.answered
    rw [hx.mem] at hrest
    exact ⟨u, ht.trans hu, hx.trans hrest⟩

/-- With the writer open `ENCODE` is its sub-steps. -/
theorem exec_encode_of_open {s : State} (h : s.writer.wopenf = true) :
    exec .encode s = finish ((encodeAll s).bind fun _ t => .done .none t) := exec_writer_of_open (by simp [Instr.op]) h

/-- Settles O36: every symbol is written in a round of its own, and the close packs what is left. -/
theorem encodeWritesThePackedStream : Obligations.EncodeWritesThePackedStream := by
  intro s hopen hlow hgood ⟨hsink, hrelease⟩ ⟨hsym, _⟩
  obtain ⟨t, ht, hw⟩ := encodeAll_rounds (rest := []) (List.append_nil _).symm hgood hlow hsink hsym
  obtain ⟨out, hout, hbits, -⟩ := hw.wrote.out
  obtain ⟨u, hu, hframe, husink, hreleased, hwriter⟩ := closeWriter_ok (s := symbolTaken t) hw.wrote.low
    ⟨hw.wrote.answers, hw.wrote.releaseAns ▸ hrelease⟩
  have hkept {α : Type} (f : State → α) : f (hideWriter u) = f (hideWriter (symbolTaken t)) := congrArg f hframe
  have hregs : u.regs = s.regs := (hkept State.regs).trans hw.regs
  refine ⟨complete .none u, ?_, ?_, ?_, ?_, ?_⟩
  · rw [exec_encode_of_open hopen, ht, encodeAll_nil (nextSymAnswer_ok hw.answered) hw.symIn, hu]
    rfl
  · calc u.env.sink = t.env.sink ++ pack (heldBits t.writer) := husink
      _ = s.env.sink ++ pack (unpack out ++ heldBits t.writer) := by rw [hout, pack_unpack, List.append_assoc]; rfl
      _ = _ := by rw [hbits]; rfl
  · exact (hkept (·.env.symIn)).trans (congrArg List.tail hw.symIn)
  · exact hreleased.trans (congrArg₂ (fun r l => r || !l) hw.wrote.released hw.wrote.wleave)
  · rw [complete_regs, hregs, complete_writer, hwriter]
    exact ⟨rfl, rfl, rfl, hw.wrote.wbits, rfl⟩

/-- Settles O37: the symbols before `x` are written, one round each; the next round takes `x` off the input and refuses it. -/
theorem encodeStopsAtAnUnknownSymbol : Obligations.EncodeStopsAtAnUnknownSymbol := by
  intro s good rest x hopen hlow hin hgood habsent hsink ⟨hsym, _⟩
  obtain ⟨t, ht, hw⟩ := encodeAll_rounds hin hgood hlow hsink hsym
  obtain ⟨out, hout, hbits, -⟩ := hw.wrote.out
  have hx : ((symbolTaken t).mem.codeAt x).valid = false := by rw [← habsent, ← hw.mem]; rfl
  refine ⟨takeError .unknownSymbol ((symbolTaken t).setResult (x.setWidth 32)), out, ?_, ?_, hout, hbits,
    hw.wrote.wopenf.trans hopen, hw.wrote.released, ?_⟩
  · rw [exec_encode_of_open hopen, ht, encodeAll_cons (nextSymAnswer_ok hw.answered) hw.symIn, encodeSymbol_absent hx]
    rfl
  · exact congrArg List.tail hw.symIn
  · rw [← hw.regs]
    rfl

end Sys2Proof.Machine
end

section
/-!
`ENCODE` and the sequence `ENCSYM` of each symbol, `WCLOSE` (spec/42_encoder.md R122 "Equivalence", 30_encoding.md R65): the two runs
differ only in the symbol input, the call record, `CMD` and, between symbols, `STATUS`, none of which a sub-step reads.
-/
namespace Sys2Proof.Machine

variable {p : Params}

/-! ## Runs alike but for what the writer's sub-steps do not read -/

/-- The state with what the two runs differ in blanked: the symbol input, the call record, `CMD` and `STATUS`. -/
def hideAside (s : State p) : State p :=
  { s with
    regs := { s.regs with cmd := 0#32, status := 0#32 }
    env := { s.env with symIn := [], symReadAns := [], calls := [] } }

section
variable {α β : Type}

/-- The two runs end alike: with the same outcome, in states that differ only in what `hideAside` blanks. -/
inductive Run.Alike : Run p α → Run p α → Prop where
  | done (a : α) {s t : State p} (h : hideAside s = hideAside t) : Run.Alike (.done a s) (.done a t)
  | raise (r : Raise) {s t : State p} (h : hideAside s = hideAside t) : Run.Alike (.raise r s) (.raise r t)
  | never (port : Port) : Run.Alike (.never port) (.never port)

theorem Run.Alike.bind {x y : Run p α} {f g : α → State p → Run p β} (hx : x.Alike y)
    (hf : ∀ a s t, hideAside s = hideAside t → (f a s).Alike (g a t)) : (x.bind f).Alike (y.bind g) := by
  cases hx with
  | done a h => exact hf a _ _ h
  | raise r h => exact .raise r h
  | never port => exact .never port

end

theorem sinkWrite_alike (b : Byte) {s t : State p} (h : hideAside s = hideAside t) : (sinkWrite b s).Alike (sinkWrite b t) := by
  have hans : s.env.sinkWriteAns = t.env.sinkWriteAns := (congrArg (·.env.sinkWriteAns) h :)
  cases hs : nextAnswer s.env.sinkWriteAns with
  | ok =>
    rw [sinkWrite_ok hs, sinkWrite_ok (hans ▸ hs)]
    exact .done _ (congrArg (fun u => u.setEnv { u.env with
      sink := u.env.sink ++ [b], sinkWriteAns := u.env.sinkWriteAns.tail }) h :)
  | ioError e =>
    rw [sinkWrite_ioError hs, sinkWrite_ioError (hans ▸ hs)]
    exact .done _ (congrArg (fun u => u.setEnv { u.env with sinkWriteAns := u.env.sinkWriteAns.tail }) h :)
  | never =>
    rw [sinkWrite_never hs, sinkWrite_never (hans ▸ hs)]
    exact .never _

theorem sinkRelease_alike {s t : State p} (h : hideAside s = hideAside t) : (sinkRelease s).Alike (sinkRelease t) := by
  have hans : s.env.sinkReleaseAns = t.env.sinkReleaseAns := (congrArg (·.env.sinkReleaseAns) h :)
  have hcalled := congrArg (fun u => u.setEnv { u.env with
    sinkReleased := true, sinkReleaseAns := u.env.sinkReleaseAns.tail }) h
  cases hs : nextAnswer s.env.sinkReleaseAns with
  | ok =>
    rw [sinkRelease_ok hs, sinkRelease_ok (hans ▸ hs)]
    exact .done _ hcalled
  | ioError e =>
    rw [sinkRelease_ioError hs, sinkRelease_ioError (hans ▸ hs)]
    exact .done _ hcalled
  | never =>
    rw [sinkRelease_never hs, sinkRelease_never (hans ▸ hs)]
    exact .never _

theorem writer_eq_of_hideAside {s t : State p} (h : hideAside s = hideAside t) : s.writer = t.writer :=
  (congrArg State.writer h :)

theorem hideAside_setWriter {s t : State p} (h : hideAside s = hideAside t) (w : Writer p) :
    hideAside (s.setWriter w) = hideAside (t.setWriter w) := (congrArg (State.setWriter · w) h :)

theorem hideAside_setResult {s t : State p} (h : hideAside s = hideAside t) (v : Word) :
    hideAside (s.setResult v) = hideAside (t.setResult v) := (congrArg (State.setResult · v) h :)

theorem writeBit_alike (b : Bool) {s t : State p} (h : hideAside s = hideAside t) : (writeBit b s).Alike (writeBit b t) := by
  unfold writeBit
  dsimp only
  rw [writer_eq_of_hideAside h]
  split
  · refine (sinkWrite_alike _ (hideAside_setWriter h _)).bind fun r u v huv => ?_
    cases r with
    | ok => rw [writer_eq_of_hideAside huv]; exact .done () (hideAside_setWriter huv _)
    | ioError e => exact .raise _ huv
  · exact .done () (hideAside_setWriter h _)

theorem writeBits_alike {w : Nat} (raw : BitVec w) (n : Nat) {s t : State p} (h : hideAside s = hideAside t) :
    (writeBits raw n s).Alike (writeBits raw n t) := by
  induction n generalizing s t with
  | zero => exact .done () h
  | succ n ih => exact (writeBit_alike _ h).bind fun _ _ _ => ih

theorem encodeSymbol_alike (x : Sym p) {s t : State p} (h : hideAside s = hideAside t) :
    (encodeSymbol x s).Alike (encodeSymbol x t) := by
  have hmem : s.mem = t.mem := (congrArg State.mem h :)
  unfold encodeSymbol
  dsimp only
  rw [hmem]
  split
  · exact .raise _ (hideAside_setResult h _)
  · split
    · exact .raise _ (hideAside_setResult h _)
    · exact writeBits_alike _ _ h

theorem flushPartial_alike {s t : State p} (h : hideAside s = hideAside t) : (flushPartial s).Alike (flushPartial t) := by
  unfold flushPartial
  rw [writer_eq_of_hideAside h]
  split
  · exact .done none h
  · refine (sinkWrite_alike _ (hideAside_setWriter h _)).bind fun r u v huv => ?_
    cases r with
    | ok => rw [writer_eq_of_hideAside huv]; exact .done none (hideAside_setWriter huv _)
    | ioError e => exact .done _ huv

theorem releaseSink_alike (err : Option (IoSub × Word)) {s t : State p} (h : hideAside s = hideAside t) :
    (releaseSink err s).Alike (releaseSink err t) := by
  unfold releaseSink
  rw [writer_eq_of_hideAside h]
  split
  · exact .done err h
  · exact (sinkRelease_alike h).bind fun _ _ _ huv => .done _ huv

theorem closeWriter_alike {s t : State p} (h : hideAside s = hideAside t) : (closeWriter s).Alike (closeWriter t) := by
  refine (flushPartial_alike h).bind fun err u v huv => (releaseSink_alike err huv).bind fun err u v huv => ?_
  have hclosed : hideAside (u.setWriter { u.writer with wopenf := false }) =
      hideAside (v.setWriter { v.writer with wopenf := false }) := writer_eq_of_hideAside huv ▸ hideAside_setWriter huv _
  cases err with
  | none => exact .done () hclosed
  | some err => exact .raise _ hclosed

/-! ## Commands that end alike -/

/-- The two commands end alike: in states that differ only in what `hideAside` blanks but for `STATUS`, or in the same fault. -/
inductive EndAlike : Host.Outcome (State p) Fault Refusal → Host.Outcome (State p) Fault Refusal → Prop where
  | next {s t : State p} (h : hideAside s = hideAside t) (hstatus : s.regs.status = t.regs.status) :
      EndAlike (.next s) (.next t)
  | fault (f : Fault) : EndAlike (.fault f) (.fault f)

theorem hideAside_takeError (r : Raise) {s t : State p} (h : hideAside s = hideAside t) :
    hideAside (takeError r s) = hideAside (takeError r t) := (congrArg (fun u => hideAside (takeError r u)) h :)

theorem finish_alike {x y : Run p ResKind} (h : x.Alike y) : EndAlike (finish x) (finish y) := by
  cases h with
  | done k h => exact .next h rfl
  | raise r h => exact .next (hideAside_takeError r h) rfl
  | never port => exact .fault _

theorem runWhile_singleton (goOn : Word → Bool) (i : Instr) (s : State p) :
    runWhile goOn [i] s = execute (encodeWord i) s := by
  rw [runWhile]
  cases execute (encodeWord i) s with
  | next t => exact ite_self _
  | fault f => rfl
  | refused r => rfl

/-- A command whose `STATUS` says stop ends the sequence. -/
theorem runWhile_cons_stop {goOn : Word → Bool} {i : Instr} {s t : State p} (h : execute (encodeWord i) s = .next t)
    (hstop : goOn t.regs.status = false) (rest : List Instr) : runWhile goOn (i :: rest) s = .next t := by
  rw [runWhile, h]
  exact if_neg (by simp [hstop])

theorem runWhile_cons_fault {goOn : Word → Bool} {i : Instr} {s : State p} {f : Fault}
    (h : execute (encodeWord i) s = .fault f) (rest : List Instr) : runWhile goOn (i :: rest) s = .fault f := by
  rw [runWhile, h]

/-- A command that needs an open writer and finds it so, its word written to `CMD`, runs its body. -/
theorem execute_writer_of_open {i : Instr} {s : State} (hi : i.op ∈ [.wbit, .wbyte, .wclose, .encsym, .encode])
    (h : s.writer.wopenf = true) : execute (encodeWord i) s = finish (bodyOf i (s.setCmd (encodeWord i))) := by
  rw [execute_encodeWord i.wf_default, execIn_default]
  exact exec_writer_of_open (s := s.setCmd (encodeWord i)) hi h

/-- `ENCODESEQ` of no symbol is `WCLOSE`. -/
theorem encodeSeq_nil {s : State} (h : s.writer.wopenf = true) :
    encodeSeq [] s = finish ((closeWriter (s.setCmd (encodeWord .wclose))).bind fun _ t => .done .none t) := by
  rw [encodeSeq, List.map_nil, List.nil_append, runWhile_singleton, execute_writer_of_open (by simp [Instr.op]) h, bodyOf]

theorem encodeSeq_cons (x : Sym) (xs : List Sym) (s : State) :
    encodeSeq (x :: xs) s = runWhile noError
      (.encsym x :: (xs.map (fun y => Instr.encsym (y.setWidth 8)) ++ [Instr.wclose])) s := by
  rw [encodeSeq, List.map_cons, List.cons_append, BitVec.setWidth_eq]

/-- Error entry stops a sequence of commands (30_encoding.md R65). -/
theorem noError_statusOf (r : Raise) : noError (statusOf r) = false := by
  rw [noError, errField_statusOf]
  exact beq_eq_false_iff_ne.mpr r.code_ne_zero

/-- From states that differ only in what is put aside, `ENCODE` of the symbols on the input and the sequence of their commands end
alike: symbol by symbol the sub-steps do, and both runs stop where one raises or is stuck. -/
theorem encodeAll_endAlike_encodeSeq {xs : List Sym} {s u : State} (hin : s.env.symIn = xs) (hopen : s.writer.wopenf = true)
    (hsym : ∀ a ∈ s.env.symReadAns, a = SymAnswer.ok) (h : hideAside s = hideAside u) :
    EndAlike (finish ((encodeAll s).bind fun _ t => .done .none t)) (encodeSeq xs u) := by
  induction xs generalizing s u with
  | nil =>
    rw [encodeAll_nil (nextSymAnswer_ok hsym) hin, encodeSeq_nil (writer_eq_of_hideAside h ▸ hopen)]
    have hclose : (closeWriter (symbolTaken s)).Alike (closeWriter (u.setCmd (encodeWord .wclose))) := closeWriter_alike h
    exact finish_alike (hclose.bind fun _ _ _ h => .done ResKind.none h)
  | cons x xs ih =>
    have halike : (encodeSymbol x (symbolTaken s)).Alike (encodeSymbol x (u.setCmd (encodeWord (.encsym x)))) :=
      encodeSymbol_alike x h
    have hkeeps := encodeSymbol_keeps x (symbolTaken s)
    have hexec := execute_writer_of_open (s := u) (i := .encsym x) (by simp [Instr.op])
      (writer_eq_of_hideAside h ▸ hopen)
    rw [bodyOf, symOperand_default] at hexec
    rw [encodeAll_cons (nextSymAnswer_ok hsym) hin, encodeSeq_cons]
    generalize encodeSymbol x (symbolTaken s) = run at *
    generalize encodeSymbol x (u.setCmd (encodeWord (.encsym x))) = run' at *
    cases halike with
    | @done _ t v htv =>
      have hkeeps : EncsymKeeps (symbolTaken s) t := hkeeps
      rw [runWhile_cons_goOn hexec rfl]
      exact ih (hkeeps.symIn.trans (congrArg List.tail hin)) (hkeeps.pass.wopenf.trans hopen)
        (hkeeps.symReadAns ▸ tail_ok hsym) htv
    | raise r h =>
      rw [runWhile_cons_stop hexec (noError_statusOf r)]
      exact .next (hideAside_takeError r h) rfl
    | never port =>
      rw [runWhile_cons_fault hexec]
      exact .fault _

/-- Settles O38: `encodeAll_endAlike_encodeSeq` from one and the same state. -/
theorem encodeIsTheSequenceOfItsCommands : Obligations.EncodeIsTheSequenceOfItsCommands := by
  intro s hopen hsym
  have halike := encodeAll_endAlike_encodeSeq rfl hopen hsym rfl
  rw [← exec_encode_of_open hopen] at halike
  generalize exec .encode s = o, encodeSeq s.env.symIn s = o' at halike
  cases halike with
  | @next t u h hstatus =>
    have hkept {α : Type} (f : State → α) : f (hideAside t) = f (hideAside u) := congrArg f h
    exact ⟨hkept State.writer, hkept State.reader, hkept State.decoder, hkept State.conf, hkept State.mem,
      hkept (·.env.sink), hkept (·.env.sinkReleased), hkept (·.env.sinkWriteAns), hkept (·.env.sinkReleaseAns), hstatus,
      hkept (·.regs.result), hkept (·.regs.faults), hkept (·.regs.ioinfo)⟩
  | fault f => cases f; rfl

end Sys2Proof.Machine
end

section
/-!
In an environment that answers every call every command ends (spec/43_decoder.md R141, 70_reset_and_hazards.md R212): a command is
stuck only at a port that leaves a call unanswered, and none is refused.
-/
namespace Sys2Proof.Machine

variable {p : Params}

theorem bitToResult_met (r : BitResult) (s : State p) : (bitToResult r s).Met s.env := by
  cases r <;> exact met_done rfl

theorem symbolToResult_met (r : SymResult p) (s : State p) : (symbolToResult r s).Met s.env := by
  cases r <;> exact met_done rfl

theorem decodeAll_met (s : State p) : (decodeAll s).Met s.env := by
  unfold decodeAll
  split
  · exact met_raise rfl
  · exact decodeLoop_met _ s

theorem bodyOf_met (i : Instr) (s : State p) : (bodyOf i s).Met s.env := by
  cases i with
  | wopen leave => exact met_done rfl
  | wbit b => exact (writeBit_met b s).bind fun _ _ => met_done rfl
  | wbyte v => exact (writeBits_met v 8 s).bind fun _ _ => met_done rfl
  | wclose => exact (closeWriter_met s).bind fun _ _ => met_done rfl
  | ropen leave => exact met_done rfl
  | rbit => exact (readBit_met s).bind bitToResult_met
  | rbyte => exact readByteLoop_met 8 0#8 s
  | rclose => exact closeReader_met s
  | encsym x => exact (encodeSymbol_met _ s).bind fun _ _ => met_done rfl
  | encode => exact (encodeLoop_met _ s).bind fun _ _ => met_done rfl
  | decsym => exact (decodeSymbol_met s).bind symbolToResult_met
  | decode => exact decodeAll_met s

/-- No command is refused: each has a meaning in every state. -/
theorem runCommand_ne_refused (pre : Option StateSub) (body : State p → Run p ResKind) (s : State p) (r : Refusal) :
    runCommand pre body s ≠ .refused r := by
  cases pre with
  | some c => exact nofun
  | none => rw [runCommand_none]; cases body s <;> exact nofun

/-- An environment none of whose answers to come is `never` leaves no call unanswered (93_implementation_defined.md U7). -/
theorem not_leavesUnanswered {e : Env p}
    (hbyte : ∀ a ∈ e.sinkWriteAns ++ e.sinkReleaseAns ++ e.sourceReadAns ++ e.sourceReleaseAns, a ≠ PortAnswer.never)
    (hsym : ∀ a ∈ e.symReadAns ++ e.symWriteAns, a ≠ SymAnswer.never) (port : Port) : ¬ leavesUnanswered e port := by
  intro h
  cases port with
  | symRead => exact hsym _ (List.mem_append_left _ h) rfl
  | symWrite => exact hsym _ (List.mem_append_right _ h) rfl
  | _ =>
    refine hbyte .never ?_ rfl
    simp only [leavesUnanswered] at h
    simp [h]

/-- Settles O17: a command that ends in no next state is stuck at a port that leaves a call unanswered, and here none does. -/
theorem everyCommandEndsWhenThePortsAnswer : Obligations.EveryCommandEndsWhenThePortsAnswer := by
  intro i s hbyte hsym
  obtain ⟨-, hstuck⟩ := runCommand_met (pre := preOf i s) (bodyOf_met i s)
  rw [exec_eq_runCommand]
  cases h : runCommand (preOf i s) (bodyOf i) s with
  | next t => exact ⟨t, rfl⟩
  | fault f =>
    obtain ⟨port, -, hport⟩ := hstuck f h
    exact absurd hport (not_leavesUnanswered hbyte hsym port)
  | refused r => exact absurd h (runCommand_ne_refused _ _ s r)

end Sys2Proof.Machine
end

section
/-!
What `DECSYM` and `DECODE` do before any bit is read, and which child a bit selects (spec/43_decoder.md R135, R137, R139 case b).
-/
namespace Sys2Proof.Machine

variable {p : Params}

/-! ## The configuration -/

theorem checkConfig_badMaxLen {s : State p} (h : s.conf.maxlen.toNat = 0 ∨ p.lmax < s.conf.maxlen.toNat) :
    checkConfig s = some .badMaxLen := by
  rw [checkConfig, if_pos h]

theorem checkConfig_rootIsLeaf {s : State p} (h1 : 1 ≤ s.conf.maxlen.toNat) (hmax : s.conf.maxlen.toNat ≤ p.lmax)
    (hroot : isLeaf (s.mem.nodeAt s.conf.root) = true) : checkConfig s = some .rootIsLeaf := by
  rw [checkConfig, if_neg (by omega), if_pos hroot]

/-- The three outcomes of the check exclude each other. -/
theorem checkConfig_eq_none {s : State p} : checkConfig s = none ↔ ConfigOk s := by
  unfold checkConfig
  split
  · simp only [reduceCtorEq, false_iff]
    rintro ⟨h1, hmax, -⟩
    omega
  · split
    · next hroot => simp [ConfigOk, hroot]
    · next hlen hroot => simp only [ConfigOk, true_iff]; exact ⟨by omega, by omega, by simpa using hroot⟩

theorem ConfigOk.maxlen_le {s : State p} (h : ConfigOk s) : s.conf.maxlen.toNat ≤ p.lmax := h.2.1

theorem ConfigOk.root_internal {s : State p} (h : ConfigOk s) : isLeaf (s.mem.nodeAt s.conf.root) = false := h.2.2

/-- The check speaks of the configuration registers and the stores alone. -/
theorem configOk_congr {s t : State p} (hconf : t.conf = s.conf) (hmem : t.mem = s.mem) (h : ConfigOk s) : ConfigOk t := by
  unfold ConfigOk
  rwa [hconf, hmem]

theorem decodeSymbol_badConfig {s : State p} {c : ConfigSub} (h : checkConfig s = some c) :
    decodeSymbol s = .raise (.badConfig c) s := by
  rw [decodeSymbol, h]

theorem decodeAll_badConfig {s : State p} {c : ConfigSub} (h : checkConfig s = some c) :
    decodeAll s = .raise (.badConfig c) s := by
  rw [decodeAll, h]

theorem decodeSymbol_configOk {s : State p} (h : ConfigOk s) : decodeSymbol s = walkLoop (p.lmax + 1) (startWalk s) := by
  rw [decodeSymbol, checkConfig_eq_none.mpr h]

theorem decodeAll_configOk {s : State p} (h : ConfigOk s) : decodeAll s = decodeLoop (bitsLeft s + 1) s := by
  rw [decodeAll, checkConfig_eq_none.mpr h]

/-- With the reader open `DECSYM` is its sub-step. -/
theorem exec_decsym_of_open {s : State} (h : s.reader.ropenf = true) :
    exec .decsym s = finish ((decodeSymbol s).bind symbolToResult) := exec_reader_of_open (by simp [Instr.op]) h

/-- With the reader open `DECODE` is its body. -/
theorem exec_decode_of_open {s : State} (h : s.reader.ropenf = true) : exec .decode s = finish (decodeAll s) :=
  exec_reader_of_open (by simp [Instr.op]) h

/-- Either decoder command ends with what is wrong with the configuration. -/
theorem exec_decoder_badConfig {i : Instr} {s : State} {c : ConfigSub} (hi : i.op ∈ [.decsym, .decode])
    (hopen : s.reader.ropenf = true) (h : checkConfig s = some c) :
    exec i s = .next (takeError (.badConfig c) s) := by
  cases i with
  | decsym => rw [exec_decsym_of_open hopen, decodeSymbol_badConfig h, Run.bind_raise, finish_raise]
  | decode => rw [exec_decode_of_open hopen, decodeAll_badConfig h, finish_raise]
  | _ => simp [Instr.op] at hi

/-- Settles O40: the check answers before any sub-step that reads, and error entry writes `STATUS` and `FAULTS` only. -/
theorem decoderChecksItsConfiguration : Obligations.DecoderChecksItsConfiguration := by
  intro i s hi hopen
  exact ⟨fun h => exec_decoder_badConfig hi hopen (checkConfig_badMaxLen h),
    fun h1 hmax hroot => exec_decoder_badConfig hi hopen (checkConfig_rootIsLeaf h1 hmax hroot)⟩

/-! ## The children -/

/-- Settles O41: bit 0 takes the first of the present children, bit 1 the second, in each case of what is present. -/
theorem childSelection : Obligations.ChildSelection := by
  intro n
  have hchild (b : Bool) : child n b = (presentChildren n)[b.toNat]? := rfl
  have hlist : presentChildren n = (if n.getLsbD 9 then [n.extractLsb' 0 9] else []) ++
      (if n.getLsbD 25 then [n.extractLsb' 16 9] else []) := rfl
  refine ⟨fun hl hr => ?_, fun hl hr => ?_, fun hl hr => ?_, fun hl hr => ?_⟩ <;>
    rw [hchild, hchild, hlist, hl, hr] <;> exact ⟨rfl, rfl⟩

/-! ## The limit -/

theorem limitReached_eq_true {s : State p} :
    limitReached s = true ↔ s.conf.dlimit ≠ 0#32 ∧ s.conf.dlimit.toNat ≤ s.decoder.dcount.toNat := by
  simp [limitReached]

/-- Settles O47: the first round of the loop tests the limit before it decodes. -/
theorem decodeAtTheLimitReadsNothing : Obligations.DecodeAtTheLimitReadsNothing := by
  intro s hopen hconf h0 hlimit
  rw [exec_decode_of_open hopen, decodeAll_configOk hconf, decodeLoop, if_pos (limitReached_eq_true.mpr ⟨h0, hlimit⟩),
    finish_done, complete_eq, statusOk_limit]

end Sys2Proof.Machine
end

section
/-!
What `DECSYM` and `DECODE` leave unchanged (spec/43_decoder.md R138, R139, "State written").
-/
namespace Sys2Proof.Machine

variable {p : Params}

/-- The state with what the decoder commands write blanked: as `hideDecoder`, but `ROPENF`, `RLEAVE` and the release of the source
are shown. -/
def hideDecode (s : State p) : State p :=
  ((hideDecoder s).setReader { Reader.atReset with ropenf := s.reader.ropenf, rleave := s.reader.rleave }).setEnv
    { (hideDecoder s).env with sourceReleased := s.env.sourceReleased, sourceReleaseAns := s.env.sourceReleaseAns }

theorem hideDecode_of_sameReadPass {s t : State p} (h : SameReadPass s t) : hideDecode t = hideDecode s := by
  have hframe : hideDecoder t = hideDecoder s := (congrArg hideDecoder h.frame :)
  rw [hideDecode, hideDecode, hframe, h.ropenf, h.rleave, h.released, h.releaseAns]

theorem readBit_hideDecode (s : State p) : (readBit s).Ends fun t => hideDecode t = hideDecode s :=
  (readBit_sameReadPass s).imp fun _ => hideDecode_of_sameReadPass

/-- Moving the walk leaves what the decoder commands leave. -/
theorem hideDecode_setDecoder (s : State p) (d : Decoder p) : hideDecode (s.setDecoder d) = hideDecode s := rfl

/-- One bit moves the walk and writes nothing else: the bit is appended, and the walk stands where it stood or at a child
(43_decoder.md R138). -/
theorem walkBit_ends (b : Bool) (s : State p) :
    (walkBit b s).Ends fun t => ∃ c, t = s.setDecoder { appendBit s.decoder b with cur := c } := by
  unfold walkBit; dsimp only
  split
  · exact ⟨s.decoder.cur, rfl⟩
  · split <;> exact ⟨_, rfl⟩

theorem walkBit_hideDecode (b : Bool) (s : State p) : (walkBit b s).Ends fun t => hideDecode t = hideDecode s :=
  (walkBit_ends b s).imp fun _ ⟨_, ht⟩ => ht ▸ hideDecode_setDecoder s _

/-- The state after `x` has been emitted: the walk is back at the root with the accumulator empty (43_decoder.md R138). -/
def emitted (x : Sym p) (s : State p) : State p :=
  { s with
    decoder := { accRaw := 0#_, accLen := 0#6, cur := s.conf.root, dcount := s.decoder.dcount + 1 }
    regs := { s.regs with result := x.setWidth 32 }
    env := { s.env with
      symOut := s.env.symOut ++ [x], symWriteAns := s.env.symWriteAns.tail, calls := s.env.calls ++ [.symWrite x] } }

theorem emitSymbol_ok {x : Sym p} {s : State p} (ha : nextSymAnswer s.env.symWriteAns = .ok) :
    emitSymbol x s = .done (.symbol x) (emitted x s) := by
  rw [emitSymbol, symWrite_ok ha]
  rfl

theorem emitSymbol_ends (x : Sym p) (s : State p) : (emitSymbol x s).Ends fun t => t = emitted x s := by
  cases ha : nextSymAnswer s.env.symWriteAns with
  | ok => rw [emitSymbol_ok ha]; exact rfl
  | never => rw [emitSymbol, symWrite_never ha]; trivial

theorem emitSymbol_hideDecode (x : Sym p) (s : State p) : (emitSymbol x s).Ends fun t => hideDecode t = hideDecode s :=
  (emitSymbol_ends x s).imp fun _ ht => ht ▸ rfl

theorem walkLoop_hideDecode (n : Nat) (s : State p) : (walkLoop n s).Ends fun t => hideDecode t = hideDecode s := by
  induction n generalizing s with
  | zero => exact rfl
  | succ n ih =>
    refine Run.ends_bind_hide (readBit_hideDecode s) fun r u _ => ?_
    cases r with
    | endOfInput => dsimp only; split <;> exact rfl
    | bit b =>
      refine Run.ends_bind_hide (walkBit_hideDecode b u) fun node v _ => ?_
      split
      · exact emitSymbol_hideDecode _ v
      · exact ih v

theorem decodeSymbol_hideDecode (s : State p) : (decodeSymbol s).Ends fun t => hideDecode t = hideDecode s := by
  unfold decodeSymbol
  split
  · exact rfl
  · exact walkLoop_hideDecode _ (startWalk s)

theorem decodeLoop_hideDecode (n : Nat) (s : State p) : (decodeLoop n s).Ends fun t => hideDecode t = hideDecode s := by
  induction n generalizing s with
  | zero => exact rfl
  | succ n ih =>
    unfold decodeLoop
    split
    · exact rfl
    · refine Run.ends_bind_hide (decodeSymbol_hideDecode s) fun r u _ => ?_
      cases r with
      | endOfInput => exact rfl
      | symbol x => exact ih u

theorem symbolToResult_hideDecode (r : SymResult p) (s : State p) :
    (symbolToResult r s).Ends fun t => hideDecode t = hideDecode s := by
  cases r <;> exact rfl

theorem decodeAll_hideDecode (s : State p) : (decodeAll s).Ends fun t => hideDecode t = hideDecode s := by
  unfold decodeAll
  split
  · exact rfl
  · exact decodeLoop_hideDecode _ s

theorem bodyOf_hideDecode {i : Instr} (hi : i.op ∈ [.decsym, .decode]) (s : State p) :
    (bodyOf i s).Ends fun t => hideDecode t = hideDecode s := by
  cases i with
  | decsym => exact Run.ends_bind_hide (decodeSymbol_hideDecode s) fun r u _ => symbolToResult_hideDecode r u
  | decode => exact decodeAll_hideDecode s
  | _ => simp [Instr.op] at hi

/-- Settles O22: the body keeps what its writes and port calls do not name, and the frame of the command writes `STATUS`, `FAULTS`
and, with an I/O error only, `IOINFO`. -/
theorem decoderCommandsFrame : Obligations.DecoderCommandsFrame := by
  intro i s t hi h
  obtain ⟨hioinfo, -⟩ := ioinfoHoldsThePortsOwnCode i s t h
  obtain ⟨u, hframe, ht⟩ := exec_next_of_ends (P := fun v => hideDecode v = hideDecode s) h rfl (bodyOf_hideDecode hi s)
  have hkept {α : Type} (f : State → α) : f (hideDecode u) = f (hideDecode s) := congrArg f hframe
  rw [ht]
  exact ⟨hkept State.writer, hkept State.conf, hkept State.mem, hkept State.host, hkept (·.regs.cmd), hioinfo,
    hkept (·.reader.ropenf), hkept (·.reader.rleave), hkept (·.env.sink), hkept (·.env.sinkReleased), hkept (·.env.symIn),
    hkept (·.env.sourceReleased), hkept (·.env.sinkWriteAns), hkept (·.env.sinkReleaseAns), hkept (·.env.sourceReleaseAns),
    hkept (·.env.symReadAns)⟩

end Sys2Proof.Machine
end

section
/-!
The loop of `DECSYM` and its bound (spec/43_decoder.md R138, R141): a round reads a bit and appends it, so the rounds that `ACC_LEN`
leaves are enough, and one `DECSYM` reads at most `MAXLEN` + 1 bits.
-/
namespace Sys2Proof.Machine

variable {p : Params}

/-! ## A round of the walk -/

/-- One round of the loop of `DECSYM`, `next` being what follows when the walk goes on (43_decoder.md R138). -/
def walkRound (next : State p → Run p (SymResult p)) (s : State p) : Run p (SymResult p) :=
  (readBit s).bind fun r s' =>
    match r with
    | .endOfInput => if s'.decoder.accLen = 0#6 then .done .endOfInput s' else .raise (.corrupt .truncated) s'
    | .bit b => (walkBit b s').bind fun node s'' =>
      if isLeaf node then emitSymbol (symOf node p) s'' else next s''

theorem walkLoop_succ (n : Nat) (s : State p) : walkLoop (n + 1) s = walkRound (walkLoop n) s := rfl

/-- The rounds that `ACC_LEN` leaves: the bits still within `MAXLEN`, and one. -/
def roundsLeft (s : State p) : Nat := s.conf.maxlen.toNat + 1 - s.decoder.accLen.toNat

/-- A round goes on only within `MAXLEN`, and then with one bit more in the accumulator (43_decoder.md R138). -/
theorem walkRound_congr {f g : State p → Run p (SymResult p)} {s : State p} (hmax : s.conf.maxlen.toNat ≤ p.lmax)
    (hlen : s.decoder.accLen.toNat ≤ s.conf.maxlen.toNat)
    (hfg : ∀ t, t.conf = s.conf → t.decoder.accLen.toNat ≤ t.conf.maxlen.toNat → roundsLeft t + 1 = roundsLeft s →
      f t = g t) : walkRound f s = walkRound g s := by
  refine Run.bind_congr_ends (readBit_sameReadPass s) fun r u hu => ?_
  have hconf : u.conf = s.conf := (congrArg State.conf hu.frame :)
  cases r with
  | endOfInput => rfl
  | bit b =>
    dsimp only
    obtain hlt | heq := Nat.lt_or_eq_of_le hlen
    · refine Run.bind_congr_ends (walkBit_ends b u) fun node t ⟨c, ht⟩ => ?_
      have hconf' : t.conf = s.conf := by rw [ht]; exact hconf
      have hacc : t.decoder.accLen.toNat = s.decoder.accLen.toNat + 1 := by
        rw [ht, ← hu.decoder]
        exact toNat_add_one (by rw [hu.decoder]; have := p.lmax_le; omega)
      rw [hfg t hconf' (by rw [hconf', hacc]; exact hlt) (by rw [roundsLeft, roundsLeft, hconf', hacc]; omega)]
    · rw [walkBit_tooLong (by rw [hconf, hu.decoder, heq]) (by rw [hconf]; exact hmax), Run.bind_raise, Run.bind_raise]

/-! ## The bound -/

theorem roundsLeft_eq_succ {s : State p} (hlen : s.decoder.accLen.toNat ≤ s.conf.maxlen.toNat) :
    roundsLeft s = s.conf.maxlen.toNat - s.decoder.accLen.toNat + 1 := Nat.sub_add_comm hlen

/-- More rounds than `ACC_LEN` leaves make no difference (43_decoder.md R141). -/
theorem walkLoop_eq_roundsLeft {n : Nat} {s : State p} (hmax : s.conf.maxlen.toNat ≤ p.lmax)
    (hlen : s.decoder.accLen.toNat ≤ s.conf.maxlen.toNat) (hn : roundsLeft s ≤ n) :
    walkLoop n s = walkLoop (roundsLeft s) s := by
  have hsucc := roundsLeft_eq_succ hlen
  induction n generalizing s with
  | zero => omega
  | succ n ih =>
    rw [hsucc, walkLoop_succ, walkLoop_succ]
    refine walkRound_congr hmax hlen fun t hconf hlen' hleft => ?_
    rw [ih (hconf ▸ hmax) hlen' (by omega) (roundsLeft_eq_succ hlen'), Nat.succ.inj (hleft.trans hsucc)]

/-- A round of the loop, and again the rounds that `ACC_LEN` then leaves. -/
theorem walkLoop_roundsLeft {s : State p} (hmax : s.conf.maxlen.toNat ≤ p.lmax)
    (hlen : s.decoder.accLen.toNat ≤ s.conf.maxlen.toNat) :
    walkLoop (roundsLeft s) s = walkRound (fun t => walkLoop (roundsLeft t) t) s := by
  have hsucc := roundsLeft_eq_succ hlen
  rw [hsucc, walkLoop_succ]
  refine walkRound_congr hmax hlen fun t _ _ hleft => ?_
  rw [Nat.succ.inj (hleft.trans hsucc)]

/-- From the root the loop has `MAXLEN` + 1 rounds. -/
theorem decodeSymbol_eq_walkLoop {s : State p} (h : ConfigOk s) :
    decodeSymbol s = walkLoop (s.conf.maxlen.toNat + 1) (startWalk s) := by
  rw [decodeSymbol_configOk h]
  exact walkLoop_eq_roundsLeft (s := startWalk s) h.maxlen_le (Nat.zero_le _) (Nat.succ_le_succ h.maxlen_le)

/-- Settles O46: the bound is the rounds that `ACC_LEN` leaves, at the root and after each round. -/
theorem walkLoopEquation : Obligations.WalkLoopEquation := by
  intro s h
  exact ⟨decodeSymbol_eq_walkLoop h, walkLoop_roundsLeft h.maxlen_le⟩

/-! ## What a bit read does to the counts -/

/-- Everything a bit read can do to the counts: no bit read, or a bit delivered, `RBITS` one more and fewer bits left. -/
theorem readBit_counts (s : State p) :
    (∃ port, readBit s = .never port) ∨
    (∃ r t, readBit s = .raise r t ∧ t.reader.rbits = s.reader.rbits) ∨
    (∃ t, readBit s = .done .endOfInput t ∧ t.reader.rbits = s.reader.rbits) ∨
    (∃ b t, readBit s = .done (.bit b) t ∧ t.reader.rbits = s.reader.rbits + 1 ∧ bitsLeft t < bitsLeft s) := by
  by_cases h0 : s.reader.rcnt = 0#4
  · cases he : s.reader.reof with
    | true => exact .inr (.inr (.inl ⟨_, readBit_after_end h0 he, rfl⟩))
    | false =>
      cases ha : nextAnswer s.env.sourceReadAns with
      | ok =>
        cases hs : s.env.source with
        | nil => exact .inr (.inr (.inl ⟨_, readBit_endOfSource h0 he ha hs, rfl⟩))
        | cons y rest =>
          refine .inr (.inr (.inr ⟨_, _, readBit_byte h0 he ha hs, rfl, ?_⟩))
          rw [bitDelivered_bytePulled]
          show 7 + 8 * rest.length < s.reader.rcnt.toNat + 8 * s.env.source.length
          rw [hs, List.length_cons]
          omega
      | ioError e => exact .inr (.inl ⟨_, _, readBit_ioError h0 he ha, rfl⟩)
      | never => exact .inl ⟨_, readBit_never h0 he ha⟩
  · refine .inr (.inr (.inr ⟨_, _, readBit_held h0, rfl, Nat.add_lt_add_right ?_ _⟩))
    have hpos : s.reader.rcnt.toNat ≠ 0 := fun h => h0 (BitVec.eq_of_toNat_eq h)
    rw [State.setReader_reader, rcnt_delivered h0]
    omega

/-! ## How many bits one `DECSYM` reads -/

/-- From `s` to `t` at most `n` bits were delivered, by the count of `RBITS`. -/
def ReadAtMost (n : Nat) (s t : State p) : Prop := ∃ k ≤ n, t.reader.rbits = s.reader.rbits + BitVec.ofNat p.cntW k

theorem ReadAtMost.trans {m n : Nat} {s t u : State p} (h : ReadAtMost m s t) (k : ReadAtMost n t u) :
    ReadAtMost (m + n) s u := by
  obtain ⟨i, hi, ht⟩ := h
  obtain ⟨j, hj, hu⟩ := k
  exact ⟨i + j, Nat.add_le_add hi hj, by rw [hu, ht, BitVec.ofNat_add, BitVec.add_assoc]⟩

/-- What leaves `RBITS` alone reads nothing. -/
theorem readAtMost_of_rbits {s t : State p} (n : Nat) (h : t.reader.rbits = s.reader.rbits) : ReadAtMost n s t :=
  ⟨0, Nat.zero_le n, h.trans (BitVec.add_zero _).symm⟩

/-- Each round reads one bit at most. -/
theorem walkLoop_readAtMost (n : Nat) (s : State p) : (walkLoop n s).Ends (ReadAtMost n s) := by
  induction n generalizing s with
  | zero => exact readAtMost_of_rbits 0 rfl
  | succ n ih =>
    rw [walkLoop_succ, walkRound]
    obtain ⟨port, hr⟩ | ⟨r, u, hr, hu⟩ | ⟨u, hr, hu⟩ | ⟨b, u, hr, hu, -⟩ := readBit_counts s <;> rw [hr]
    · trivial
    · exact readAtMost_of_rbits _ hu
    · rw [Run.bind_done]
      dsimp only
      split <;> exact readAtMost_of_rbits _ hu
    · have hbit : ReadAtMost 1 s u := ⟨1, le_rfl, hu⟩
      rw [Nat.add_comm n 1, Run.bind_done]
      refine Run.ends_bind (walkBit_ends b u) (fun node v ⟨_, hv⟩ => ?_) fun v ⟨_, hv⟩ =>
        hbit.trans (readAtMost_of_rbits n (by rw [hv]; rfl))
      have hround : ReadAtMost 1 s v := by rw [hv]; exact hbit
      split
      · exact (emitSymbol_ends _ v).imp fun _ ht => hround.trans (readAtMost_of_rbits n (by rw [ht]; rfl))
      · exact (ih v).imp fun _ => hround.trans

/-- One `DECSYM` has at most `MAXLEN` + 1 rounds, and none when the configuration is bad. -/
theorem decodeSymbol_readAtMost (s : State p) :
    ∃ n, n ≤ s.conf.maxlen.toNat + 1 ∧ n ≤ p.lmax + 1 ∧ (decodeSymbol s).Ends (ReadAtMost n s) := by
  cases hc : checkConfig s with
  | some c => exact ⟨0, Nat.zero_le _, Nat.zero_le _, by rw [decodeSymbol_badConfig hc]; exact readAtMost_of_rbits 0 rfl⟩
  | none =>
    have h := checkConfig_eq_none.mp hc
    refine ⟨_, le_rfl, Nat.succ_le_succ h.maxlen_le, ?_⟩
    rw [decodeSymbol_eq_walkLoop h]
    exact walkLoop_readAtMost _ (startWalk s)

theorem symbolToResult_reader (r : SymResult p) (s : State p) : (symbolToResult r s).Ends fun t => t.reader = s.reader := by
  cases r <;> exact rfl

/-- Settles O45: every bit is read in a round of the loop. -/
theorem decsymReadsAtMostMaxlenPlusOneBits : Obligations.DecsymReadsAtMostMaxlenPlusOneBits := by
  intro s t h
  obtain ⟨n, hmaxlen, hlmax, hends⟩ := decodeSymbol_readAtMost s
  have hbody : (bodyOf .decsym s).Ends (ReadAtMost n s) :=
    Run.ends_bind hends (fun r u hu => (symbolToResult_reader r u).imp fun _ ht => hu.trans (readAtMost_of_rbits 0 (by rw [ht])))
      fun _ hu => hu
  obtain ⟨u, ⟨k, hk, hu⟩, ht⟩ := exec_next_of_ends h (readAtMost_of_rbits n rfl) hbody
  exact ⟨k, hk.trans hmaxlen, hk.trans hlmax, by rw [ht]; exact hu⟩

end Sys2Proof.Machine
end

section
/-!
The loop of `DECODE` and its bound (spec/43_decoder.md R139, R141): a symbol takes a bit at least off what the reader can still
deliver.
-/
namespace Sys2Proof.Machine

variable {p : Params}

/-! ## What a sub-step returns -/

section
variable {α β : Type}

/-- If the run returns, `Q` holds of what it returns and where. -/
def Run.IfDone (Q : α → State p → Prop) : Run p α → Prop
  | .done a t => Q a t
  | .raise _ _ => True
  | .never _ => True

theorem Run.IfDone.bind {Q : α → State p → Prop} {R : β → State p → Prop} {x : Run p α} {f : α → State p → Run p β}
    (hx : x.IfDone Q) (hf : ∀ a t, Q a t → (f a t).IfDone R) : (x.bind f).IfDone R := by
  cases x with
  | done a t => exact hf a t hx
  | raise r t => trivial
  | never port => trivial

theorem Run.IfDone.imp {Q R : α → State p → Prop} {x : Run p α} (hx : x.IfDone Q) (h : ∀ a t, Q a t → R a t) :
    x.IfDone R := by
  cases x with
  | done a t => exact h a t hx
  | raise r t => trivial
  | never port => trivial

theorem Run.Ends.ifDone {P : State p → Prop} {x : Run p α} (h : x.Ends P) : x.IfDone fun _ t => P t := by
  cases x with
  | done a t => exact h
  | raise r t => trivial
  | never port => trivial

/-- Two continuations that agree on whatever the first sub-step returns make the same run. -/
theorem Run.IfDone.bind_congr {Q : α → State p → Prop} {x : Run p α} {f g : α → State p → Run p β} (hx : x.IfDone Q)
    (h : ∀ a t, Q a t → f a t = g a t) : x.bind f = x.bind g := by
  cases x with
  | done a t => exact h a t hx
  | raise r t => rfl
  | never port => rfl

end

/-! ## A symbol takes a bit -/

theorem walkLoop_bitsLeft (n : Nat) (s : State p) :
    (walkLoop n s).IfDone fun r t => ∀ x, r = .symbol x → bitsLeft t < bitsLeft s := by
  induction n generalizing s with
  | zero => trivial
  | succ n ih =>
    rw [walkLoop_succ, walkRound]
    obtain ⟨port, hr⟩ | ⟨r, u, hr, -⟩ | ⟨u, hr, -⟩ | ⟨b, u, hr, -, hlt⟩ := readBit_counts s <;> rw [hr]
    · trivial
    · trivial
    · rw [Run.bind_done]
      dsimp only
      split
      · exact nofun
      · trivial
    · refine (walkBit_ends b u).ifDone.bind fun node v ⟨_, hv⟩ => ?_
      have hround : bitsLeft v < bitsLeft s := by rw [hv]; exact hlt
      split
      · exact (emitSymbol_ends _ v).ifDone.imp fun _ t ht _ _ => by rw [ht]; exact hround
      · exact (ih v).imp fun r t ht x hx => (ht x hx).trans hround

/-- A symbol decoded has taken a bit at least. -/
theorem decodeSymbol_bitsLeft (s : State p) :
    (decodeSymbol s).IfDone fun r t => ∀ x, r = .symbol x → bitsLeft t < bitsLeft s := by
  unfold decodeSymbol
  split
  · trivial
  · exact walkLoop_bitsLeft _ (startWalk s)

/-! ## The bound -/

/-- One round of the loop of `DECODE`, `next` being what follows a symbol (43_decoder.md R139). -/
def decodeRound (next : State p → Run p ResKind) (s : State p) : Run p ResKind :=
  if limitReached s then .done .limit s
  else (decodeSymbol s).bind fun r t =>
    match r with
    | .endOfInput => .done .endOfInput t
    | .symbol _ => next t

theorem decodeLoop_succ (n : Nat) (s : State p) : decodeLoop (n + 1) s = decodeRound (decodeLoop n) s := rfl

/-- A round goes on with fewer bits left. -/
theorem decodeRound_congr {f g : State p → Run p ResKind} {s : State p} (hfg : ∀ t, bitsLeft t < bitsLeft s → f t = g t) :
    decodeRound f s = decodeRound g s := by
  unfold decodeRound
  split
  · rfl
  · refine (decodeSymbol_bitsLeft s).bind_congr fun r t ht => ?_
    cases r with
    | endOfInput => rfl
    | symbol x => exact hfg t (ht x rfl)

/-- More rounds than the reader has bits left make no difference (43_decoder.md R141). -/
theorem decodeLoop_eq_bitsLeft {n : Nat} {s : State p} (hn : bitsLeft s < n) :
    decodeLoop n s = decodeLoop (bitsLeft s + 1) s := by
  induction n using Nat.strong_induction_on generalizing s with
  | _ n ih =>
    obtain ⟨k, rfl⟩ := Nat.exists_eq_add_one_of_ne_zero (Nat.ne_zero_of_lt hn)
    rw [decodeLoop_succ, decodeLoop_succ]
    refine decodeRound_congr fun t ht => ?_
    rw [ih k (Nat.lt_succ_self k) (ht.trans_le (Nat.lt_succ_iff.mp hn)), ih (bitsLeft s) hn ht]

/-- A round of the loop, and again the rounds that the bits then left allow. -/
theorem decodeLoop_bitsLeft (s : State p) :
    decodeLoop (bitsLeft s + 1) s = decodeRound (fun t => decodeLoop (bitsLeft t + 1) t) s := by
  rw [decodeLoop_succ]
  exact decodeRound_congr fun t => decodeLoop_eq_bitsLeft

/-- Settles O48: a round that goes on leaves fewer bits than there were, so the bound is never reached. -/
theorem decodeLoopEquation : Obligations.DecodeLoopEquation := by
  intro s
  rw [decodeLoop_bitsLeft, decodeRound]
  simp only [limitReached_eq_true]
  refine if_congr Iff.rfl rfl (congrArg _ (funext₂ fun r t => ?_))
  cases r <;> rfl

end Sys2Proof.Machine
end

section
/-!
One `DECSYM` with a source that answers: the symbol of the Leaf its bits lead to, or how it ends without one (spec/43_decoder.md R136,
R138).
-/
namespace Sys2Proof.Machine

variable {p : Params}

/-- What is still to come once the first bits to come have been delivered. -/
theorem Took.bitsToCome_eq {s t : State p} {c rest : List Bool} (h : Took s t c) (hb : bitsToCome s = c ++ rest) :
    bitsToCome t = rest := List.append_cancel_left (h.come.symm.trans hb)

/-! ## Where a path has led -/

/-- The decoder after the bits `c` have led it from the root to `n` (43_decoder.md R136). -/
def accumulated (d : Decoder p) (c : List Bool) (n : NodeIdx p) : Decoder p :=
  { d with accRaw := bitsToWord c p, accLen := BitVec.ofNat 6 c.length, cur := n }

theorem appendBit_accumulated (d : Decoder p) (c : List Bool) (n : NodeIdx p) (b : Bool) :
    appendBit (accumulated d c n) b = accumulated d (c ++ [b]) n := by
  have hlen : BitVec.ofNat 6 c.length + 1 = BitVec.ofNat 6 (c ++ [b]).length := by
    rw [List.length_append, List.length_singleton, BitVec.ofNat_add]
    rfl
  have hraw : bitsToWord c p <<< 1 ||| (BitVec.ofBool b).setWidth p.lmax = bitsToWord (c ++ [b]) p := by
    rw [bitsToWord, bitsToWord, List.foldl_append]
    rfl
  rw [accumulated, appendBit, hlen, hraw]
  rfl

theorem walked_startWalk (s : State p) (c : List Bool) (n : NodeIdx p) :
    walked (startWalk s).decoder c n = accumulated s.decoder c n := by
  rw [walked, accumulated]
  congr 1
  · exact foldl_appendBit_accRaw _ c
  · rw [foldl_appendBit_accLen]; exact BitVec.zero_add _
  · exact foldl_appendBit_dcount _ c

theorem accumulated_accLen {d : Decoder p} {c : List Bool} {n : NodeIdx p} {m : Nat} (hc : c.length ≤ m) (hm : m ≤ p.lmax) :
    (accumulated d c n).accLen.toNat = c.length := by
  have := p.lmax_le
  rw [accumulated, BitVec.toNat_ofNat, Nat.mod_eq_of_lt (by omega)]

/-- A path to a Leaf from an Internal node has a first bit. -/
theorem path_ne_nil {m : Memory p} {r n : NodeIdx p} {c : List Bool} (hroot : isLeaf (m.nodeAt r) = false)
    (hpath : path m r c = some n) (hleaf : isLeaf (m.nodeAt n) = true) : c ≠ [] := by
  rintro rfl
  obtain rfl : r = n := by simpa [path] using hpath
  simp [hroot] at hleaf

/-- The rounds of the loop are enough for a path within `MAXLEN`, and one is left. -/
theorem lmax_rounds {s : State p} (hconf : ConfigOk s) {k : Nat} (hk : k ≤ s.conf.maxlen.toNat) :
    p.lmax + 1 = p.lmax - k + 1 + k := by
  have := hconf.maxlen_le
  omega

/-- Bits that spell a path within `MAXLEN` take `DECSYM` along it, to emit the symbol of a Leaf or to walk on
(43_decoder.md R136, R138). -/
theorem decodeSymbol_path {s : State p} {c rest : List Bool} {n : NodeIdx p} (h8 : s.reader.rcnt.toNat ≤ 8) (hconf : ConfigOk s)
    (ha : ∀ a ∈ s.env.sourceReadAns, a = PortAnswer.ok) (hb : bitsToCome s = c ++ rest)
    (hpath : path s.mem s.conf.root c = some n) (hne : c ≠ []) (hlen : c.length ≤ s.conf.maxlen.toNat) :
    ∃ t, Took s t c ∧ decodeSymbol s =
      if isLeaf (s.mem.nodeAt n) then emitSymbol (symOf (s.mem.nodeAt n) p) (t.setDecoder (accumulated s.decoder c n))
      else walkLoop (p.lmax - c.length + 1) (t.setDecoder (accumulated s.decoder c n)) := by
  obtain ⟨b, c, rfl⟩ := List.exists_cons_of_ne_nil hne
  obtain ⟨t, ht, hw⟩ := walkLoop_path (s := startWalk s) (p.lmax - (b :: c).length + 1) h8 ha hconf.maxlen_le
    ((Nat.zero_add _).trans_le hlen) hb hpath
  refine ⟨t.setDecoder s.decoder, ht.setDecoder s.decoder, ?_⟩
  rw [decodeSymbol_configOk hconf, lmax_rounds hconf hlen, hw, walked_startWalk]
  rfl

/-! ## The symbol of a Leaf -/

/-- A path to a Leaf within `MAXLEN` is read and no bit more, and the Leaf's symbol is emitted (43_decoder.md R136, R138). -/
theorem decodeSymbol_leaf {s : State p} {c rest : List Bool} {n : NodeIdx p} (h8 : s.reader.rcnt.toNat ≤ 8) (hconf : ConfigOk s)
    (ha : ∀ a ∈ s.env.sourceReadAns, a = PortAnswer.ok) (hsym : nextSymAnswer s.env.symWriteAns = .ok)
    (hb : bitsToCome s = c ++ rest) (hpath : path s.mem s.conf.root c = some n) (hleaf : isLeaf (s.mem.nodeAt n) = true)
    (hlen : c.length ≤ s.conf.maxlen.toNat) :
    ∃ t, Took s t c ∧ decodeSymbol s = .done (.symbol (symOf (s.mem.nodeAt n) p)) (emitted (symOf (s.mem.nodeAt n) p) t) := by
  obtain ⟨t, ht, hrun⟩ := decodeSymbol_path h8 hconf ha hb hpath (path_ne_nil hconf.root_internal hpath hleaf) hlen
  refine ⟨t, ht, ?_⟩
  rw [hrun, if_pos hleaf, emitSymbol_ok (by rw [State.setDecoder_env, ht.symWriteAns]; exact hsym), emitted, emitted, ht.decoder]
  rfl

/-- Settles O42: the walk along the path ends at the Leaf, whose symbol is emitted. -/
theorem decsymEmitsTheLeafReached : Obligations.DecsymEmitsTheLeafReached := by
  intro s c rest n hopen h8 hconf ha hsym hb hpath hleaf hlen
  obtain ⟨t, ht, hrun⟩ := decodeSymbol_leaf h8 hconf ha hsym hb hpath hleaf hlen
  refine ⟨complete .value (emitted (symOf (s.mem.nodeAt n)) t), ?_, ?_, ?_, ?_, ?_, ht.rbits⟩
  · rw [exec_decsym_of_open hopen, hrun]
    rfl
  · exact congrArg (· ++ _) ht.symOut
  · rw [complete_regs, ← ht.regs]
    rfl
  · rw [← ht.conf, ← ht.decoder]
    rfl
  · exact ht.bitsToCome_eq hb

/-! ## The ends without a symbol -/

/-- A path to an Internal node within `MAXLEN` takes the walk there (43_decoder.md R136). -/
theorem decodeSymbol_internal {s : State p} {c rest : List Bool} {n : NodeIdx p} (h8 : s.reader.rcnt.toNat ≤ 8)
    (hconf : ConfigOk s) (ha : ∀ a ∈ s.env.sourceReadAns, a = PortAnswer.ok) (hb : bitsToCome s = c ++ rest)
    (hpath : path s.mem s.conf.root c = some n) (hinner : isLeaf (s.mem.nodeAt n) = false)
    (hlen : c.length ≤ s.conf.maxlen.toNat) :
    ∃ t k, Took s t c ∧ decodeSymbol s = walkRound (walkLoop k) (t.setDecoder (accumulated s.decoder c n)) := by
  obtain rfl | hne := eq_or_ne c []
  · obtain rfl : s.conf.root = n := by simpa [path] using hpath
    exact ⟨s, p.lmax, Took.refl h8 ha, decodeSymbol_configOk hconf⟩
  · obtain ⟨t, ht, hrun⟩ := decodeSymbol_path h8 hconf ha hb hpath hne hlen
    exact ⟨t, _, ht, by rw [hrun, if_neg (by simp [hinner]), walkLoop_succ]⟩

/-- After the bits `c`, when they are all, the next read answers end-of-input, wherever the walk stands. -/
theorem Took.readBit_end {s t : State p} {c : List Bool} (h : Took s t c) (hb : bitsToCome s = c) (d : Decoder p) :
    ∃ u, Took s u c ∧ readBit (t.setDecoder d) = .done .endOfInput (u.setDecoder d) := by
  have hcome : bitsToCome t = [] := h.bitsToCome_eq (by rw [hb, List.append_nil])
  obtain ⟨u, hu, hread, -⟩ := Machine.readBit_end (s := t.setDecoder d) h.rcnt h.answers hcome
  refine ⟨u.setDecoder s.decoder, by simpa using h.trans_setDecoder hread, ?_⟩
  have hd : u.decoder = d := hread.decoder
  rw [hu, State.setDecoder_setDecoder, ← hd, State.setDecoder_self]

/-- After the bits `c` the next read delivers the bit that follows them, wherever the walk stands. -/
theorem Took.readBit_bit {s t : State p} {c rest : List Bool} {b : Bool} (h : Took s t c) (hb : bitsToCome s = c ++ b :: rest)
    (d : Decoder p) : ∃ u, Took s u (c ++ [b]) ∧ readBit (t.setDecoder d) = .done (.bit b) (u.setDecoder d) := by
  obtain ⟨u, hu, hread⟩ := readBit_took (s := t.setDecoder d) h.rcnt h.answers (h.bitsToCome_eq hb)
  refine ⟨u.setDecoder s.decoder, h.trans_setDecoder hread, ?_⟩
  have hd : u.decoder = d := hread.decoder
  rw [hu, State.setDecoder_setDecoder, ← hd, State.setDecoder_self]

/-- With no bit to come the walk ends clean at the root (43_decoder.md R138). -/
theorem decodeSymbol_endOfInput {s : State p} (h8 : s.reader.rcnt.toNat ≤ 8) (hconf : ConfigOk s)
    (ha : ∀ a ∈ s.env.sourceReadAns, a = PortAnswer.ok) (hb : bitsToCome s = []) :
    ∃ t, Took s t [] ∧ decodeSymbol s = .done .endOfInput (t.setDecoder (accumulated s.decoder [] s.conf.root)) := by
  obtain ⟨t, k, ht, hrun⟩ := decodeSymbol_internal (c := []) h8 hconf ha hb rfl hconf.root_internal (Nat.zero_le _)
  obtain ⟨u, hu, hread⟩ := ht.readBit_end hb (accumulated s.decoder [] s.conf.root)
  refine ⟨u, hu, ?_⟩
  rw [hrun, walkRound, hread]
  rfl

/-- When the bits to come end at an Internal node below the root the stream is truncated (43_decoder.md R138). -/
theorem decodeSymbol_truncated {s : State p} {c : List Bool} {n : NodeIdx p} (h8 : s.reader.rcnt.toNat ≤ 8) (hconf : ConfigOk s)
    (ha : ∀ a ∈ s.env.sourceReadAns, a = PortAnswer.ok) (hb : bitsToCome s = c)
    (hpath : path s.mem s.conf.root c = some n) (hinner : isLeaf (s.mem.nodeAt n) = false) (hne : c ≠ [])
    (hlen : c.length ≤ s.conf.maxlen.toNat) :
    ∃ t, Took s t c ∧ decodeSymbol s = .raise (.corrupt .truncated) (t.setDecoder (accumulated s.decoder c n)) := by
  obtain ⟨t, k, ht, hrun⟩ := decodeSymbol_internal (rest := []) h8 hconf ha (by rw [hb, List.append_nil]) hpath hinner hlen
  obtain ⟨u, hu, hread⟩ := ht.readBit_end hb (accumulated s.decoder c n)
  have hacc : (accumulated s.decoder c n).accLen ≠ 0#6 := fun h => hne <| List.eq_nil_of_length_eq_zero <| by
    rw [← accumulated_accLen (d := s.decoder) (n := n) hlen hconf.maxlen_le, h]
    rfl
  refine ⟨u, hu, ?_⟩
  rw [hrun, walkRound, hread]
  exact if_neg hacc

/-- When the bit after the path ends the walk it has been consumed and appended, and `CUR` is where the path ended. -/
theorem decodeSymbol_walkBit_raises {s : State p} {c rest : List Bool} {b : Bool} {n : NodeIdx p} {r : Raise}
    (h8 : s.reader.rcnt.toNat ≤ 8) (hconf : ConfigOk s) (ha : ∀ a ∈ s.env.sourceReadAns, a = PortAnswer.ok)
    (hb : bitsToCome s = c ++ b :: rest) (hpath : path s.mem s.conf.root c = some n) (hinner : isLeaf (s.mem.nodeAt n) = false)
    (hlen : c.length ≤ s.conf.maxlen.toNat)
    (hwalk : ∀ u : State p, u.conf = s.conf → u.mem = s.mem → u.decoder = accumulated s.decoder c n →
      walkBit b u = .raise r (u.setDecoder (appendBit u.decoder b))) :
    ∃ t, Took s t (c ++ [b]) ∧ decodeSymbol s = .raise r (t.setDecoder (accumulated s.decoder (c ++ [b]) n)) := by
  obtain ⟨t, k, ht, hrun⟩ := decodeSymbol_internal h8 hconf ha hb hpath hinner hlen
  obtain ⟨u, hu, hread⟩ := ht.readBit_bit hb (accumulated s.decoder c n)
  refine ⟨u, hu, ?_⟩
  rw [hrun, walkRound, hread, Run.bind_done]
  dsimp only
  rw [hwalk (u.setDecoder (accumulated s.decoder c n)) hu.conf hu.mem rfl, Run.bind_raise, State.setDecoder_decoder,
    appendBit_accumulated, State.setDecoder_setDecoder]

/-- When the bit after the path selects no child the walk is at a dead end (43_decoder.md R138). -/
theorem decodeSymbol_noChild {s : State p} {c rest : List Bool} {b : Bool} {n : NodeIdx p} (h8 : s.reader.rcnt.toNat ≤ 8)
    (hconf : ConfigOk s) (ha : ∀ a ∈ s.env.sourceReadAns, a = PortAnswer.ok) (hb : bitsToCome s = c ++ b :: rest)
    (hpath : path s.mem s.conf.root c = some n) (hinner : isLeaf (s.mem.nodeAt n) = false)
    (hlen : c.length < s.conf.maxlen.toNat) (hchild : child (s.mem.nodeAt n) b p = none) :
    ∃ t, Took s t (c ++ [b]) ∧
      decodeSymbol s = .raise (.corrupt .noChild) (t.setDecoder (accumulated s.decoder (c ++ [b]) n)) := by
  refine decodeSymbol_walkBit_raises h8 hconf ha hb hpath hinner hlen.le fun u hc hm hd => walkBit_noChild ?_ ?_ ?_
  · rw [hd, hc, accumulated_accLen hlen.le hconf.maxlen_le]
    exact hlen
  · rw [hc]
    exact hconf.maxlen_le
  · rw [hm, hd]
    exact hchild

/-- When the path has used up `MAXLEN` the next bit is one too many (43_decoder.md R138). -/
theorem decodeSymbol_tooLong {s : State p} {c rest : List Bool} {b : Bool} {n : NodeIdx p} (h8 : s.reader.rcnt.toNat ≤ 8)
    (hconf : ConfigOk s) (ha : ∀ a ∈ s.env.sourceReadAns, a = PortAnswer.ok) (hb : bitsToCome s = c ++ b :: rest)
    (hpath : path s.mem s.conf.root c = some n) (hinner : isLeaf (s.mem.nodeAt n) = false)
    (hlen : c.length = s.conf.maxlen.toNat) :
    ∃ t, Took s t (c ++ [b]) ∧
      decodeSymbol s = .raise (.corrupt .tooLong) (t.setDecoder (accumulated s.decoder (c ++ [b]) n)) := by
  refine decodeSymbol_walkBit_raises h8 hconf ha hb hpath hinner hlen.le fun u hc _ hd => walkBit_tooLong ?_ ?_
  · rw [hd, hc, accumulated_accLen hlen.le hconf.maxlen_le, hlen]
  · rw [hc]
    exact hconf.maxlen_le

/-- What `DECSYM` leaves when its sub-step ends with `CorruptStream` after the bits `c`. -/
theorem exec_decsym_corrupt {s t : State} {c rest : List Bool} {sub : CorruptSub} {d : Decoder .default}
    (hopen : s.reader.ropenf = true) (ht : Took s t c) (hb : bitsToCome s = c ++ rest)
    (hrun : decodeSymbol s = .raise (.corrupt sub) (t.setDecoder d)) :
    ∃ u, exec .decsym s = .next u ∧
      u.regs = { s.regs with status := statusOf (.corrupt sub), faults := s.regs.faults ||| 0x00000008#32 } ∧
      u.decoder = d ∧ bitsToCome u = rest ∧ u.env.symOut = s.env.symOut := by
  refine ⟨takeError (.corrupt sub) (t.setDecoder d), by rw [exec_decsym_of_open hopen, hrun]; rfl, ?_, rfl, ?_, ht.symOut⟩
  · rw [← ht.regs]
    rfl
  · exact ht.bitsToCome_eq hb

/-- Settles O43: the walk along the path, and the read after it, which finds no bit, no child, or no room. -/
theorem decsymEndsWithoutASymbol : Obligations.DecsymEndsWithoutASymbol := by
  intro s c rest b n hopen h8 hconf ha hpath hinner
  refine ⟨fun hb => ?_, fun hb hne hlen => ?_, fun hb hlen hchild => ?_, fun hb hlen => ?_⟩
  · obtain ⟨t, ht, hrun⟩ := decodeSymbol_endOfInput h8 hconf ha hb
    refine ⟨complete .endOfInput ((t.setDecoder (accumulated s.decoder [] s.conf.root)).setResult 0#32), ?_, ?_, rfl, ?_,
      ht.symOut⟩
    · rw [exec_decsym_of_open hopen, hrun]
      rfl
    · rw [← ht.regs]
      rfl
    · exact ht.bitsToCome_eq hb
  · obtain ⟨t, ht, hrun⟩ := decodeSymbol_truncated h8 hconf ha hb hpath hinner hne hlen
    exact exec_decsym_corrupt hopen ht (by rw [hb, List.append_nil]) hrun
  · obtain ⟨t, ht, hrun⟩ := decodeSymbol_noChild h8 hconf ha hb hpath hinner hlen hchild
    have hend := exec_decsym_corrupt (rest := rest) hopen ht (by simpa using hb) hrun
    rwa [accumulated, List.length_append] at hend
  · obtain ⟨t, ht, hrun⟩ := decodeSymbol_tooLong h8 hconf ha hb hpath hinner hlen
    have hend := exec_decsym_corrupt (rest := rest) hopen ht (by simpa using hb) hrun
    rwa [accumulated, List.length_append] at hend

/-! ## A source error -/

/-- Settles O44: the held bits and those of the bytes pulled take the walk to where it asks the source again, which fails. -/
theorem decsymSourceErrorKeepsTheAccumulator : Obligations.DecsymSourceErrorKeepsTheAccumulator := by
  intro s pulled more e later n hopen h8 he hconf hs ha c hpath hinner hlen
  have hwalk : walkLoop (Params.lmax .default - c.length + 1 + c.length) (startWalk s) =
      walkLoop (Params.lmax .default - c.length + 1) (pulledState (startWalk s) pulled more (.ioError e :: later) n) :=
    walkLoop_pulled (s := startWalk s) _ h8 he hs ha hconf.maxlen_le ((Nat.zero_add _).trans_le hlen) hpath hinner
  have hread : readBit (pulledState (startWalk s) pulled more (.ioError e :: later) n) = .raise (.io .sourceRead e) _ :=
    readBit_ioError rfl he rfl
  rw [exec_decsym_of_open hopen, decodeSymbol_configOk hconf, lmax_rounds hconf hlen, hwalk, walkLoop_succ, walkRound, hread,
    Run.bind_raise, Run.bind_raise, finish_raise, takeError_io, statusOf_sourceRead]
  simp only [pulledState, walked_startWalk, List.replicate_succ', ← List.append_assoc]
  rfl

end Sys2Proof.Machine
end

section
/-!
`DECODE` on bits that spell symbols by the stored tree (spec/43_decoder.md R139, R142, 50_invariants_and_properties.md R164, R165).
-/
namespace Sys2Proof.Machine

variable {p : Params}

/-! ## Bits that spell symbols -/

/-- The bits are paths from the root to Leaves, one after another, none longer than `MAXLEN`, and the symbols those of the Leaves
(50_invariants_and_properties.md R164). -/
inductive Spells (m : Memory p) (conf : Conf p) : List Bool → List (Sym p) → Prop where
  | nil : Spells m conf [] []
  | cons {c bits : List Bool} {n : NodeIdx p} {xs : List (Sym p)} (hpath : path m conf.root c = some n)
      (hleaf : isLeaf (m.nodeAt n) = true) (hlen : c.length ≤ conf.maxlen.toNat) (hrest : Spells m conf bits xs) :
      Spells m conf (c ++ bits) (symOf (m.nodeAt n) p :: xs)

theorem Spells.append {m : Memory p} {conf : Conf p} {bits bits' : List Bool} {xs ys : List (Sym p)} (h : Spells m conf bits xs)
    (k : Spells m conf bits' ys) : Spells m conf (bits ++ bits') (xs ++ ys) := by
  induction h with
  | nil => exact k
  | cons hpath hleaf hlen _ ih => rw [List.append_assoc]; exact .cons hpath hleaf hlen ih

/-- The codes of symbols whose entries agree with the tree spell them. -/
theorem spells_symbolBits {s : State p} {xs : List (Sym p)} (h : ∀ x ∈ xs, ConsistentAt s x) :
    Spells s.mem s.conf (symbolBits s.mem xs) xs := by
  induction xs with
  | nil => exact .nil
  | cons x xs ih =>
    obtain ⟨-, hlen, -, n, hpath, hleaf, hsym⟩ := h x List.mem_cons_self
    have hcons := Spells.cons hpath hleaf (by rwa [codeBits_length]) (ih fun y hy => h y (List.mem_cons_of_mem x hy))
    rwa [hsym, ← symbolBits_cons] at hcons

/-- Whole runs of the zeros that lead to a Leaf spell copies of its symbol (43_decoder.md R142). -/
theorem spells_zeros {m : Memory p} {conf : Conf p} {d : Nat} {n : NodeIdx p}
    (hpath : path m conf.root (List.replicate d false) = some n) (hleaf : isLeaf (m.nodeAt n) = true)
    (hlen : d ≤ conf.maxlen.toNat) (q : Nat) :
    Spells m conf (List.replicate (d * q) false) (List.replicate q (symOf (m.nodeAt n) p)) := by
  induction q with
  | zero => exact .nil
  | succ q ih =>
    rw [Nat.mul_succ, Nat.add_comm, List.replicate_add, List.replicate_succ]
    exact .cons hpath hleaf (by rwa [List.length_replicate]) ih

/-! ## A pass over them -/

/-- From `s` to `t` `DECODE` has read `bits` and emitted `xs`, and every port goes on answering without error. -/
structure Decoded (s t : State p) (bits : List Bool) (xs : List (Sym p)) : Prop where
  conf : t.conf = s.conf
  mem : t.mem = s.mem
  rcnt : t.reader.rcnt.toNat ≤ 8
  come : bitsToCome s = bits ++ bitsToCome t
  rbits : t.reader.rbits = s.reader.rbits + BitVec.ofNat p.cntW bits.length
  answers : ∀ a ∈ t.env.sourceReadAns, a = PortAnswer.ok
  symAnswers : ∀ a ∈ t.env.symWriteAns, a = SymAnswer.ok
  symOut : t.env.symOut = s.env.symOut ++ xs
  dcount : t.decoder.dcount = s.decoder.dcount + BitVec.ofNat p.cntW xs.length
  result : t.regs.result = (xs.map fun x => x.setWidth 32).getLastD s.regs.result

theorem Decoded.refl {s : State p} (h8 : s.reader.rcnt.toNat ≤ 8) (ha : ∀ a ∈ s.env.sourceReadAns, a = PortAnswer.ok)
    (hsym : ∀ a ∈ s.env.symWriteAns, a = SymAnswer.ok) : Decoded s s [] [] :=
  ⟨rfl, rfl, h8, rfl, (BitVec.add_zero _).symm, ha, hsym, (List.append_nil _).symm, (BitVec.add_zero _).symm, rfl⟩

theorem Decoded.trans {s t u : State p} {bits bits' : List Bool} {xs ys : List (Sym p)} (h : Decoded s t bits xs)
    (k : Decoded t u bits' ys) : Decoded s u (bits ++ bits') (xs ++ ys) where
  conf := k.conf.trans h.conf
  mem := k.mem.trans h.mem
  rcnt := k.rcnt
  come := by rw [h.come, k.come, List.append_assoc]
  rbits := by rw [k.rbits, h.rbits, List.length_append, BitVec.ofNat_add, BitVec.add_assoc]
  answers := k.answers
  symAnswers := k.symAnswers
  symOut := by rw [k.symOut, h.symOut, List.append_assoc]
  dcount := by rw [k.dcount, h.dcount, List.length_append, BitVec.ofNat_add, BitVec.add_assoc]
  result := by
    rw [k.result, h.result, List.map_append]
    simp only [List.getLastD_eq_getLast?, List.getLast?_append, Option.getD_or]

theorem Decoded.bitsToCome_eq {s t : State p} {bits rest : List Bool} {xs : List (Sym p)} (h : Decoded s t bits xs)
    (hb : bitsToCome s = bits ++ rest) : bitsToCome t = rest := List.append_cancel_left (h.come.symm.trans hb)

/-- The walk to a Leaf, and its symbol emitted. -/
theorem Took.decoded_emitted {s t : State p} {c : List Bool} (h : Took s t c) (hsym : ∀ a ∈ s.env.symWriteAns, a = SymAnswer.ok)
    (x : Sym p) : Decoded s (emitted x t) c [x] where
  conf := h.conf
  mem := h.mem
  rcnt := h.rcnt
  come := h.come
  rbits := h.rbits
  answers := h.answers
  symAnswers := by
    have htail := tail_ok hsym
    rwa [← h.symWriteAns] at htail
  symOut := congrArg (· ++ [x]) h.symOut
  dcount := congrArg (fun d : Decoder p => d.dcount + 1) h.decoder
  result := rfl

/-- The limit leaves room for so many symbols more (43_decoder.md R139). -/
def RoomFor (k : Nat) (s : State p) : Prop := s.conf.dlimit = 0#32 ∨ s.decoder.dcount.toNat + k ≤ s.conf.dlimit.toNat

theorem RoomFor.limit_not_reached {k : Nat} {s : State p} (h : RoomFor (k + 1) s) : limitReached s = false := by
  rw [← Bool.not_eq_true, limitReached_eq_true]
  rintro ⟨h0, hle⟩
  obtain h | h := h
  · exact h0 h
  · omega

/-- With a good configuration `DECODE` is a round of its loop, and again the loop. -/
theorem decodeAll_eq_decodeRound {s : State p} (h : ConfigOk s) :
    decodeAll s = decodeRound (fun t => decodeLoop (bitsLeft t + 1) t) s := by
  rw [decodeAll_configOk h, decodeLoop_bitsLeft]

/-- A symbol within the limit is a round of its own (43_decoder.md R139). -/
theorem decodeAll_symbol {s t : State p} {x : Sym p} (hconf : ConfigOk s) (hroom : limitReached s = false)
    (hrun : decodeSymbol s = .done (.symbol x) t) (hconf' : ConfigOk t) : decodeAll s = decodeAll t := by
  rw [decodeAll_eq_decodeRound hconf, decodeRound, hroom, hrun, decodeAll_configOk hconf']
  rfl

theorem RoomFor.of_decoded {k : Nat} {s t : State p} {bits : List Bool} {x : Sym p} (h : RoomFor (k + 1) s)
    (hd : Decoded s t bits [x]) : RoomFor k t := by
  unfold RoomFor
  rw [hd.conf, hd.dcount]
  refine h.imp_right fun hle => ?_
  have hadd : (s.decoder.dcount + BitVec.ofNat p.cntW 1).toNat ≤ s.decoder.dcount.toNat + 1 := by
    rw [BitVec.toNat_add, BitVec.toNat_ofNat]
    exact (Nat.mod_le _ _).trans (Nat.add_le_add_left (Nat.mod_le _ _) _)
  exact (Nat.add_le_add_right hadd k).trans (by omega)

/-- Bits that spell symbols, within the limit, are decoded one symbol a round (43_decoder.md R139). -/
theorem decodeAll_spells {m : Memory p} {conf : Conf p} {s : State p} {bits rest : List Bool} {xs : List (Sym p)}
    (h : Spells m conf bits xs) (hm : s.mem = m) (hc : s.conf = conf) (h8 : s.reader.rcnt.toNat ≤ 8) (hconf : ConfigOk s)
    (ha : ∀ a ∈ s.env.sourceReadAns, a = PortAnswer.ok) (hsym : ∀ a ∈ s.env.symWriteAns, a = SymAnswer.ok)
    (hroom : RoomFor xs.length s) (hb : bitsToCome s = bits ++ rest) :
    ∃ t, Decoded s t bits xs ∧ decodeAll s = decodeAll t := by
  induction h generalizing s with
  | nil => exact ⟨s, Decoded.refl h8 ha hsym, rfl⟩
  | @cons c bits n xs hpath hleaf hlen _ ih =>
    subst hm hc
    rw [List.append_assoc] at hb
    obtain ⟨t, ht, hrun⟩ := decodeSymbol_leaf h8 hconf ha (nextSymAnswer_ok hsym) hb hpath hleaf hlen
    have hd := ht.decoded_emitted hsym (symOf (s.mem.nodeAt n) p)
    have hconf' := configOk_congr hd.conf hd.mem hconf
    obtain ⟨u, hu, hrest⟩ := ih hd.mem hd.conf hd.rcnt hconf' hd.answers hd.symAnswers (hroom.of_decoded hd)
      (hd.bitsToCome_eq hb)
    exact ⟨u, hd.trans hu, (decodeAll_symbol hconf hroom.limit_not_reached hrun hconf').trans hrest⟩

/-- Settles O49: each symbol is a round of its own, and the round after the last finds the limit reached. -/
theorem decodeEmitsTheExpectedSymbols : Obligations.DecodeEmitsTheExpectedSymbols := by
  intro s xs rest hopen h8 hconf ha hsym hcons hb h0 hlimit
  obtain ⟨t, ht, hrun⟩ := decodeAll_spells (spells_symbolBits hcons) rfl rfl h8 hconf ha hsym (.inr hlimit.ge) hb
  have hcount : t.decoder.dcount = s.conf.dlimit := by
    apply BitVec.eq_of_toNat_eq
    have hlt : s.decoder.dcount.toNat + xs.length < 2 ^ Params.cntW .default := hlimit ▸ s.conf.dlimit.isLt
    rw [ht.dcount, BitVec.toNat_add, BitVec.toNat_ofNat, Nat.add_mod_mod, Nat.mod_eq_of_lt hlt, hlimit]
  have hreached : limitReached t = true := limitReached_eq_true.mpr ⟨ht.conf ▸ h0, by rw [ht.conf, hcount]⟩
  refine ⟨complete .limit t, ?_, ht.symOut, rfl, ht.bitsToCome_eq hb, hcount, ht.rbits, ht.result⟩
  rw [exec_decode_of_open hopen, hrun, decodeAll_eq_decodeRound (configOk_congr ht.conf ht.mem hconf), decodeRound,
    if_pos hreached, finish_done]

/-! ## Trailing zeros -/

/-- A path goes on from where its first part leads. -/
theorem path_append (m : Memory p) (r : NodeIdx p) (c d : List Bool) :
    path m r (c ++ d) = (path m r c).bind fun n => path m n d := by
  induction c generalizing r with
  | nil => rfl
  | cons b c ih =>
    rw [List.cons_append, path, path]
    split
    · rfl
    · cases child (m.nodeAt r) b p with
      | none => rfl
      | some k => exact ih k

/-- Part of a path ends at an Internal node. -/
theorem path_internal {m : Memory p} {r n : NodeIdx p} {c : List Bool} {b : Bool} {d : List Bool}
    (h : path m r (c ++ b :: d) = some n) : ∃ k, path m r c = some k ∧ isLeaf (m.nodeAt k) = false := by
  rw [path_append, Option.bind_eq_some_iff] at h
  obtain ⟨k, hk, hrest⟩ := h
  refine ⟨k, hk, ?_⟩
  rw [path] at hrest
  split at hrest
  · cases hrest
  · next hinner => exact Bool.eq_false_iff.mpr hinner

/-- With no limit and no bit to come `DECODE` ends clean (43_decoder.md R139). -/
theorem decodeAll_endOfInput {s : State p} (h8 : s.reader.rcnt.toNat ≤ 8) (hconf : ConfigOk s)
    (ha : ∀ a ∈ s.env.sourceReadAns, a = PortAnswer.ok) (hroom : limitReached s = false) (hb : bitsToCome s = []) :
    ∃ t, Took s t [] ∧ decodeAll s = .done .endOfInput (t.setDecoder (accumulated s.decoder [] s.conf.root)) := by
  obtain ⟨t, ht, hrun⟩ := decodeSymbol_endOfInput h8 hconf ha hb
  refine ⟨t, ht, ?_⟩
  rw [decodeAll_eq_decodeRound hconf, decodeRound, hroom, hrun]
  rfl

/-- With no limit and bits to come that end at an Internal node below the root, `DECODE` ends truncated. -/
theorem decodeAll_truncated {s : State p} {c : List Bool} {n : NodeIdx p} (h8 : s.reader.rcnt.toNat ≤ 8) (hconf : ConfigOk s)
    (ha : ∀ a ∈ s.env.sourceReadAns, a = PortAnswer.ok) (hroom : limitReached s = false) (hb : bitsToCome s = c)
    (hpath : path s.mem s.conf.root c = some n) (hinner : isLeaf (s.mem.nodeAt n) = false) (hne : c ≠ [])
    (hlen : c.length ≤ s.conf.maxlen.toNat) :
    ∃ t, Took s t c ∧ decodeAll s = .raise (.corrupt .truncated) (t.setDecoder (accumulated s.decoder c n)) := by
  obtain ⟨t, ht, hrun⟩ := decodeSymbol_truncated h8 hconf ha hb hpath hinner hne hlen
  refine ⟨t, ht, ?_⟩
  rw [decodeAll_eq_decodeRound hconf, decodeRound, hroom, hrun]
  rfl

/-- Fewer zeros than lead to a Leaf lead to an Internal node. -/
theorem path_zeros_internal {m : Memory p} {r n : NodeIdx p} {d k : Nat} (hk : k < d)
    (h : path m r (List.replicate d false) = some n) :
    ∃ i, path m r (List.replicate k false) = some i ∧ isLeaf (m.nodeAt i) = false := by
  have hsplit : List.replicate d false = List.replicate k false ++ false :: List.replicate (d - k - 1) false := by
    rw [← List.replicate_succ, ← List.replicate_add]
    congr 1
    omega
  exact path_internal (hsplit ▸ h)

/-- How `DECODE` ends once only `k` zeros are left, which lead to an Internal node (43_decoder.md R142). -/
theorem finish_decodeAll_zeros {s : State} {k : Nat} {n : NodeIdx} (h8 : s.reader.rcnt.toNat ≤ 8) (hconf : ConfigOk s)
    (ha : ∀ a ∈ s.env.sourceReadAns, a = PortAnswer.ok) (hroom : limitReached s = false)
    (hb : bitsToCome s = List.replicate k false) (hpath : path s.mem s.conf.root (List.replicate k false) = some n)
    (hinner : isLeaf (s.mem.nodeAt n) = false) (hlen : k ≤ s.conf.maxlen.toNat) :
    ∃ t, finish (decodeAll s) = .next t ∧ t.env.symOut = s.env.symOut ∧ bitsToCome t = [] ∧
      (k = 0 → t.regs.status = 0x00000020#32 ∧ t.decoder.accLen = 0#6) ∧
      (k ≠ 0 → t.regs.status = 0x00000103#32 ∧ t.decoder.accLen = BitVec.ofNat 6 k) := by
  obtain rfl | hk := eq_or_ne k 0
  · obtain ⟨t, ht, hrun⟩ := decodeAll_endOfInput h8 hconf ha hroom hb
    exact ⟨complete .endOfInput (t.setDecoder (accumulated s.decoder [] s.conf.root)), by rw [hrun, finish_done], ht.symOut,
      ht.bitsToCome_eq hb, fun _ => ⟨rfl, rfl⟩, fun h => absurd rfl h⟩
  · obtain ⟨t, ht, hrun⟩ := decodeAll_truncated h8 hconf ha hroom hb hpath hinner (by simpa using hk)
      (by rwa [List.length_replicate])
    refine ⟨takeError (.corrupt .truncated) (t.setDecoder (accumulated s.decoder (List.replicate k false) n)),
      by rw [hrun, finish_raise], ht.symOut, ht.bitsToCome_eq (by rw [hb, List.append_nil]), fun h => absurd h hk,
      fun _ => ⟨rfl, ?_⟩⟩
    rw [takeError_decoder, State.setDecoder_decoder, accumulated, List.length_replicate]

/-- Settles O50: the codes and the whole runs of zeros spell symbols; what is left over is part of a run, a path to an Internal
node. -/
theorem trailingZerosDecodeAsTheLeftmostSymbol : Obligations.TrailingZerosDecodeAsTheLeftmostSymbol := by
  intro s xs p d n hopen h8 hconf ha hsym hcons hb hpath hleaf hlen h0
  have hd : 0 < d := Nat.pos_of_ne_zero fun h => path_ne_nil hconf.root_internal hpath hleaf (by rw [h]; rfl)
  have hzeros : List.replicate p false = List.replicate (d * (p / d)) false ++ List.replicate (p % d) false := by
    rw [← List.replicate_add, Nat.div_add_mod]
  rw [hzeros, ← List.append_assoc] at hb
  obtain ⟨t, ht, hrun⟩ := decodeAll_spells ((spells_symbolBits hcons).append (spells_zeros hpath hleaf hlen (p / d))) rfl rfl h8
    hconf ha hsym (.inl h0) hb
  have hroom : limitReached t = false := RoomFor.limit_not_reached (k := 0) (.inl (ht.conf ▸ h0))
  obtain ⟨k, hk, hinner⟩ := path_zeros_internal (Nat.mod_lt p hd) hpath
  rw [← ht.mem, ← ht.conf] at hk
  obtain ⟨u, hu, hout, hend⟩ := finish_decodeAll_zeros ht.rcnt (configOk_congr ht.conf ht.mem hconf) ht.answers hroom
    (ht.bitsToCome_eq hb) hk (by rw [ht.mem]; exact hinner) (by rw [ht.conf]; exact (Nat.mod_lt p hd).le.trans hlen)
  refine ⟨u, by rw [exec_decode_of_open hopen, hrun, hu], ?_, hend⟩
  rw [hout, ht.symOut, List.append_assoc]

end Sys2Proof.Machine
end

section
/-!
Invariants of the unit, packaged once: what speaks of the writer, the reader, the decoder and `FAULTS` alone, holds after reset, and is
kept by every body and by error entry, is kept by every step (spec/50_invariants_and_properties.md R160 to R162).
-/
namespace Sys2Proof.Machine

variable {p : Params}

/-! ## Where a run leaves the unit -/

section
variable {α β : Type}

/-- `Q` holds of the state the run returns in, `P` of the one error entry makes of the state it raises in (60_exceptions.md R184). -/
def Run.Leaves (Q P : State p → Prop) : Run p α → Prop
  | .done _ t => Q t
  | .raise r t => P (takeError r t)
  | .never _ => True

theorem Run.Leaves.bind {Q R P : State p → Prop} {x : Run p α} {f : α → State p → Run p β} (hx : x.Leaves Q P)
    (hf : ∀ a t, Q t → (f a t).Leaves R P) : (x.bind f).Leaves R P := by
  cases x with
  | done a t => exact hf a t hx
  | raise r t => exact hx
  | never port => trivial

/-- What holds wherever the run ends, and outlives error entry. -/
theorem Run.Ends.leaves {Q P : State p → Prop} {x : Run p α} (hx : x.Ends Q) (herr : ∀ r t, Q t → P (takeError r t)) :
    x.Leaves Q P := by
  cases x with
  | done a t => exact hx
  | raise r t => exact herr r t hx
  | never port => trivial

end

/-- Error entry clears no bit of `FAULTS` (10_state.md R31). -/
theorem fault_clear_before_error {r : Raise} {s : State p} {k : Nat} (h : (takeError r s).regs.faults.getLsbD k = false) :
    s.regs.faults.getLsbD k = false := by
  rw [takeError_faults, BitVec.getLsbD_or, Bool.or_eq_false_iff] at h
  exact h.1

/-! ## The package -/

/-- From `s` to `t` nothing has changed that an invariant of the unit speaks of. -/
structure SameUnit (s t : State p) : Prop where
  writer : t.writer = s.writer
  reader : t.reader = s.reader
  decoder : t.decoder = s.decoder
  faults : t.regs.faults = s.regs.faults

/-- `P` is an invariant of the unit. -/
structure UnitInvariant (P : State p → Prop) : Prop where
  reset : P (State.resetOf p)
  congr : ∀ s t, SameUnit s t → P s → P t
  error : ∀ r s, P s → P (takeError r s)
  body : ∀ i s, preOf i s = none → P s → (bodyOf i s).Leaves P P

section
variable {P : State p → Prop} {s t : State p}

theorem UnitInvariant.keptBy_execIn (h : UnitInvariant P) {i : Instr} (hrun : execIn i s = .next t) (hs : P s) : P t := by
  rw [execIn_eq_runCommand, runCommand_eq_next] at hrun
  obtain ⟨c, -, rfl⟩ | ⟨hpre, hend⟩ := hrun
  · exact h.error _ s hs
  · have hbody := h.body i s hpre hs
    obtain ⟨k, u, hu, rfl⟩ | ⟨r, u, hu, rfl⟩ := hend <;> rw [hu] at hbody
    · exact h.congr u _ ⟨rfl, rfl, rfl, rfl⟩ hbody
    · exact hbody

theorem UnitInvariant.keptBy_execute (h : UnitInvariant P) {w : Word} (hrun : execute w s = .next t) (hs : P s) : P t := by
  have hcmd : P (s.setCmd w) := h.congr s _ ⟨rfl, rfl, rfl, rfl⟩ hs
  unfold execute at hrun
  split at hrun
  · obtain rfl := Host.Outcome.next.inj hrun
    exact h.error _ _ hcmd
  · exact h.keptBy_execIn hrun hcmd

theorem UnitInvariant.keptBy_hostAct (h : UnitInvariant P) {a : HostAction p} (hact : hostAct a s = .next t) (hs : P s) :
    P t := by
  cases hostAct_effect hact with
  | command w hrun => exact h.keptBy_execute hrun hs
  | register r v ht =>
    obtain ⟨hwriter, hreader, hdecoder, hregs, -, -⟩ := writeReg_leaves r v s
    exact ht ▸ h.congr s _ ⟨hwriter, hreader, hdecoder, congrArg Regs.faults hregs⟩ hs
  | reset ha ht => exact ht ▸ h.congr (State.resetOf p) _ ⟨rfl, rfl, rfl, rfl⟩ h.reset
  | outside ht => rw [ht]; exact h.congr s _ ⟨rfl, rfl, rfl, rfl⟩ hs

/-- Every step keeps an invariant of the unit. -/
theorem UnitInvariant.keptBy_nextAction (h : UnitInvariant P) (hstep : nextAction s = .next t) (hs : P s) : P t := by
  obtain rfl | ⟨a, rest, -, ha⟩ := nextAction_eq_next hstep
  · exact hs
  · exact h.keptBy_hostAct ha (h.congr s _ ⟨rfl, rfl, rfl, rfl⟩ hs)

end

/-! ## The half of the unit a command leaves alone -/

/-- Writer and encoder commands leave the reader and the decoder (40_bitwriter.md, 42_encoder.md, "State written"). -/
theorem bodyOf_keeps_reader_decoder {i : Instr} (hi : i.op ∈ [.wopen, .wbit, .wbyte, .wclose, .encsym, .encode]) (s : State p) :
    (bodyOf i s).Ends fun t => t.reader = s.reader ∧ t.decoder = s.decoder := by
  by_cases hw : i.op ∈ [.wopen, .wbit, .wbyte, .wclose]
  · exact (bodyOf_writerKeeps hw s).imp fun _ h => ⟨(congrArg State.reader h.frame :), (congrArg State.decoder h.frame :)⟩
  · have he : i.op ∈ [.encsym, .encode] := by
      simp only [List.mem_cons] at hi hw ⊢
      tauto
    exact (bodyOf_encoderKeeps he s).imp fun _ h => ⟨(congrArg State.reader h.frame :), (congrArg State.decoder h.frame :)⟩

/-- Reader and decoder commands leave the writer (41_bitreader.md, 43_decoder.md, "State written"). -/
theorem bodyOf_keeps_writer {i : Instr} (hi : i.op ∈ [.ropen, .rbit, .rbyte, .rclose, .decsym, .decode]) (s : State p) :
    (bodyOf i s).Ends fun t => t.writer = s.writer := by
  by_cases hr : i.op ∈ [.ropen, .rbit, .rbyte, .rclose]
  · exact (bodyOf_readerKeeps hr s).imp fun _ h => (congrArg State.writer h.frame :)
  · have hd : i.op ∈ [.decsym, .decode] := by
      simp only [List.mem_cons] at hi hr ⊢
      tauto
    exact (bodyOf_hideDecode hd s).imp fun _ h => (congrArg State.writer h :)

end Sys2Proof.Machine
end

section
/-!
Every step keeps the writer invariants (spec/50_invariants_and_properties.md R160). While the writer is open the bits below the held
ones are 0, and until an I/O error the counters agree; the close empties the partial byte.
-/
namespace Sys2Proof.Machine

variable {p : Params}

/-! ## An open writer -/

/-- The writer is open and meets its invariants (50_invariants_and_properties.md R160 b, d). -/
structure WriterOpen (s : State p) : Prop where
  wopenf : s.writer.wopenf = true
  low : s.writer.wbuf <<< s.writer.wcnt.toNat = 0#8
  counts : s.regs.faults.getLsbD 5 = false →
    s.writer.wbits = 8#p.cntW * s.writer.wbytes + s.writer.wcnt.setWidth p.cntW

theorem WriterOpen.writerInv {s : State p} (h : WriterOpen s) : WriterInv s :=
  ⟨h.low, fun hclosed => absurd h.wopenf (by simp [hclosed]), fun _ => h.counts⟩

theorem writerOpen_of_writerInv {s : State p} (hopen : s.writer.wopenf = true) (h : WriterInv s) : WriterOpen s := by
  obtain ⟨hlow, -, hcounts⟩ := h
  exact ⟨hopen, hlow, hcounts hopen⟩

theorem WriterOpen.congr {s t : State p} (h : WriterOpen s) (hwriter : t.writer = s.writer)
    (hfaults : t.regs.faults = s.regs.faults) : WriterOpen t :=
  ⟨hwriter ▸ h.wopenf, hwriter ▸ h.low, by rw [hwriter, hfaults]; exact h.counts⟩

theorem writerInv_congr {s t : State p} (hwriter : t.writer = s.writer) (hfaults : t.regs.faults = s.regs.faults)
    (h : WriterInv s) : WriterInv t := by
  unfold WriterInv
  rw [hwriter, hfaults]
  exact h

theorem writerInv_takeError (r : Raise) (s : State p) (h : WriterInv s) : WriterInv (takeError r s) := by
  obtain ⟨hlow, hclosed, hcounts⟩ := h
  exact ⟨hlow, hclosed, fun hopen hclear => hcounts hopen (fault_clear_before_error hclear)⟩

/-- Once an I/O error is recorded the counters are free (50_invariants_and_properties.md R160 d). -/
theorem writerInv_takeError_io (c : IoSub) (e : Word) {s : State p} (hopen : s.writer.wopenf = true)
    (hlow : s.writer.wbuf <<< s.writer.wcnt.toNat = 0#8) : WriterInv (takeError (.io c e) s) := by
  refine ⟨hlow, fun hclosed => absurd hopen (by simp [show s.writer.wopenf = false from hclosed]), fun _ hclear => ?_⟩
  rw [takeError_faults, BitVec.getLsbD_or, Bool.or_eq_false_iff] at hclear
  exact absurd hclear.2 (show ¬ (0x00000020#32).getLsbD 5 = false by decide)

/-! ## Writing bits -/

/-- A bit held is a bit counted (40_bitwriter.md R82 case a). -/
theorem counts_held {w : Nat} {c : BitVec 3} (h7 : c ≠ 7#3) : (c + 1).setWidth w = c.setWidth w + 1#w := by
  rw [← BitVec.ofNat_toNat, ← BitVec.ofNat_toNat, toNat_add_one_wcnt h7, BitVec.ofNat_add]

/-- Seven bits held and the eighth make the byte counted (40_bitwriter.md R82 case b). -/
theorem counts_byte {w : Nat} (x : BitVec w) : 8#w * x + (7#3).setWidth w + 1#w = 8#w * (x + 1#w) + (0#3).setWidth w := by
  have h7 : (7#3).setWidth w + 1#w = 8#w := by
    rw [← BitVec.ofNat_toNat]
    exact (BitVec.ofNat_add 7 1).symm
  have h0 : (0#3).setWidth w = 0#w := by simp
  rw [BitVec.add_assoc, h7, h0, BitVec.add_zero, BitVec.mul_add, BitVec.mul_one]

theorem writeBit_writerOpen (b : Bool) {s : State p} (h : WriterOpen s) : (writeBit b s).Leaves WriterOpen WriterInv := by
  by_cases h7 : s.writer.wcnt = 7#3
  · cases ha : nextAnswer s.env.sinkWriteAns with
    | ok =>
      rw [writeBit_full h7 ha]
      refine ⟨h.wopenf, BitVec.zero_shiftLeft _, fun hclear => ?_⟩
      exact (congrArg (· + 1) (h7 ▸ h.counts hclear)).trans (counts_byte _)
    | ioError e => rw [writeBit_ioError h7 ha]; exact writerInv_takeError_io _ e h.wopenf (BitVec.zero_shiftLeft _)
    | never => rw [writeBit_never h7 ha]; trivial
  · rw [writeBit_short h7]
    refine ⟨h.wopenf, place_low_zero b h.low h7, fun hclear => ?_⟩
    show s.writer.wbits + 1 = 8#p.cntW * s.writer.wbytes + (s.writer.wcnt + 1).setWidth p.cntW
    rw [h.counts hclear, counts_held h7, ← BitVec.add_assoc]
    rfl

theorem writeBits_writerOpen {w : Nat} (raw : BitVec w) (n : Nat) {s : State p} (h : WriterOpen s) :
    (writeBits raw n s).Leaves WriterOpen WriterInv := by
  induction n generalizing s with
  | zero => exact h
  | succ n ih => exact (writeBit_writerOpen _ h).bind fun _ _ => ih

theorem encodeSymbol_writerOpen (x : Sym p) {s : State p} (h : WriterOpen s) :
    (encodeSymbol x s).Leaves WriterOpen WriterInv := by
  obtain ⟨r, -, hrefused⟩ | hwritten := encodeSymbol_refused_or_written x s
  · rw [hrefused]
    exact writerInv_takeError r _ (h.congr rfl rfl).writerInv
  · rw [hwritten]
    exact writeBits_writerOpen _ _ h

theorem symRead_writerOpen {s : State p} (h : WriterOpen s) : (symRead s).Leaves WriterOpen WriterInv := by
  cases ha : nextSymAnswer s.env.symReadAns with
  | never => rw [symRead_never ha]; trivial
  | ok => rw [symRead_answered ha]; exact h.congr rfl rfl

/-! ## The close -/

/-- However the ports answer, the close leaves the writer closed and its partial byte empty (40_bitwriter.md R84). -/
theorem writerInv_closedAfterAll {s : State p} (hlow : s.writer.wbuf <<< s.writer.wcnt.toNat = 0#8) :
    WriterInv (closedAfterAll s) := by
  have hempty : (closedAfterAll s).writer.wbuf = 0#8 := by
    show (if s.writer.wcnt ≠ 0#3 then 0#8 else s.writer.wbuf) = 0#8
    split
    · rfl
    · next h0 => simpa [not_not.mp h0] using hlow
  exact ⟨by rw [hempty, BitVec.zero_shiftLeft], fun _ => ⟨rfl, hempty⟩, fun hopen => absurd hopen (by simp [closedAfterAll])⟩

theorem closeWriter_writerInv {s : State p} (h : WriterOpen s) : (closeWriter s).Leaves WriterInv WriterInv :=
  ((closeWriter_ends s).imp fun _ ht => ht ▸ writerInv_closedAfterAll h.low).leaves writerInv_takeError

theorem encodeLoop_writerInv (n : Nat) {s : State p} (h : WriterOpen s) : (encodeLoop n s).Leaves WriterInv WriterInv := by
  induction n generalizing s with
  | zero => exact closeWriter_writerInv h
  | succ n ih =>
    refine (symRead_writerOpen h).bind fun r t ht => ?_
    cases r with
    | none => exact closeWriter_writerInv ht
    | some x => exact (encodeSymbol_writerOpen x ht).bind fun _ _ => ih

/-! ## The commands -/

theorem bodyOf_writerInv (i : Instr) (s : State p) (hpre : preOf i s = none) (hs : WriterInv s) :
    (bodyOf i s).Leaves WriterInv WriterInv := by
  have hopened (hi : i.op ∈ [.wbit, .wbyte, .wclose, .encsym, .encode]) : WriterOpen s :=
    writerOpen_of_writerInv (needWriterOpen_eq_none.mp ((preOf_writer hi s).symm.trans hpre)) hs
  have hother (hi : i.op ∈ [.ropen, .rbit, .rbyte, .rclose, .decsym, .decode]) : (bodyOf i s).Leaves WriterInv WriterInv :=
    (((bodyOf_keeps_writer hi s).and (bodyOf_keeps i s)).imp fun _ ⟨hwriter, hkeeps⟩ =>
      writerInv_congr hwriter hkeeps.faults hs).leaves writerInv_takeError
  cases i with
  | wopen leave => exact ⟨BitVec.zero_shiftLeft _, fun _ => ⟨rfl, rfl⟩, fun _ _ => by simp [openedWriter]⟩
  | wbit b => exact (writeBit_writerOpen b (hopened (by simp [Instr.op]))).bind fun _ _ => WriterOpen.writerInv
  | wbyte v => exact (writeBits_writerOpen v 8 (hopened (by simp [Instr.op]))).bind fun _ _ => WriterOpen.writerInv
  | wclose => exact (closeWriter_writerInv (hopened (by simp [Instr.op]))).bind fun _ _ => id
  | encsym x => exact (encodeSymbol_writerOpen _ (hopened (by simp [Instr.op]))).bind fun _ _ => WriterOpen.writerInv
  | encode => exact (encodeLoop_writerInv _ (hopened (by simp [Instr.op]))).bind fun _ _ => id
  | _ => exact hother (by simp [Instr.op])

theorem unitInvariant_writerInv : UnitInvariant (WriterInv (p := .default)) where
  reset := have ⟨h, _⟩ := resetMeetsEveryInvariant; h
  congr _ _ h := writerInv_congr h.writer h.faults
  error := writerInv_takeError
  body := bodyOf_writerInv

/-- Settles O55: `WOPEN` begins with an empty partial byte, every bit written keeps the counters in step or ends in an I/O error, and
the close empties the partial byte. -/
theorem everyStepKeepsTheWriterInvariant : Obligations.EveryStepKeepsTheWriterInvariant :=
  fun _ _ hs hstep => unitInvariant_writerInv.keptBy_nextAction hstep hs

end Sys2Proof.Machine
end

section
/-!
Every step keeps the reader invariants (spec/50_invariants_and_properties.md R161). All of them are kept by one bit read, and the other
sub-steps of the reader and the decoder move the reader by bit reads alone.
-/
namespace Sys2Proof.Machine

variable {p : Params}

theorem readerInv_congr {s t : State p} (hreader : t.reader = s.reader) (h : ReaderInv s) : ReaderInv t := by
  unfold ReaderInv
  rw [hreader]
  exact h

/-- Error entry does not touch the reader. -/
theorem Run.Ends.leaves_readerInv {α : Type} {x : Run p α} (h : x.Ends ReaderInv) : x.Leaves ReaderInv ReaderInv :=
  h.leaves fun _ _ => readerInv_congr rfl

/-! ## One bit -/

/-- A held bit delivered: one bit more counted and one less held (41_bitreader.md R102). -/
theorem readerInv_bitDelivered {s : State p} (h0 : s.reader.rcnt ≠ 0#4) (h : ReaderInv s) :
    ReaderInv (s.setReader (bitDelivered s.reader)) := by
  obtain ⟨hle, hend, hcounts⟩ := h
  refine ⟨?_, fun he => absurd (hend he) h0, ?_⟩
  · rw [State.setReader_reader, rcnt_delivered h0]
    omega
  · show s.reader.rbits + 1 + (s.reader.rcnt - 1).setWidth p.cntW = 8#p.cntW * s.reader.rbytes
    rw [BitVec.add_assoc, setWidth_sub_one _ h0, hcounts]

/-- A byte pulled when no bit is held: eight bits held for a byte counted (41_bitreader.md R102). -/
theorem readerInv_bytePulled {s : State p} (y : Byte) (h0 : s.reader.rcnt = 0#4) (he : s.reader.reof = false)
    (h : ReaderInv s) : ReaderInv (s.setReader (bytePulled s.reader y)) := by
  obtain ⟨-, -, hcounts⟩ := h
  have hnone : (0#4).setWidth p.cntW = 0#p.cntW := by simp
  have height : (8#4).setWidth p.cntW = 8#p.cntW := (BitVec.ofNat_toNat p.cntW (8#4)).symm
  rw [h0, hnone, BitVec.add_zero] at hcounts
  refine ⟨le_refl 8, fun hend => absurd hend (by simp [bytePulled, he]), ?_⟩
  show s.reader.rbits + (8#4).setWidth p.cntW = 8#p.cntW * (s.reader.rbytes + 1#p.cntW)
  rw [hcounts, height, BitVec.mul_add, BitVec.mul_one]

theorem readBit_readerInv {s : State p} (h : ReaderInv s) : (readBit s).Ends ReaderInv := by
  by_cases h0 : s.reader.rcnt = 0#4
  · cases he : s.reader.reof with
    | true => rw [readBit_after_end h0 he]; exact h
    | false =>
      cases ha : nextAnswer s.env.sourceReadAns with
      | ok =>
        cases hs : s.env.source with
        | nil =>
          rw [readBit_endOfSource h0 he ha hs]
          obtain ⟨hle, -, hcounts⟩ := h
          exact ⟨hle, fun _ => h0, hcounts⟩
        | cons y rest =>
          rw [readBit_byte h0 he ha hs]
          have hdelivered := readerInv_bitDelivered (by simp [bytePulled]) (readerInv_bytePulled y h0 he h)
          exact readerInv_congr rfl hdelivered
      | ioError e => rw [readBit_ioError h0 he ha]; exact readerInv_congr rfl h
      | never => rw [readBit_never h0 he ha]; trivial
  · rw [readBit_held h0]
    exact readerInv_bitDelivered h0 h

/-- A bit read, and what follows it. -/
theorem readBit_bind_readerInv {α : Type} {f : BitResult → State p → Run p α} {s : State p} (h : ReaderInv s)
    (hf : ∀ r t, ReaderInv t → (f r t).Ends ReaderInv) : ((readBit s).bind f).Ends ReaderInv :=
  Run.ends_bind (readBit_readerInv h) hf fun _ => id

/-! ## The commands -/

theorem readByteLoop_readerInv (n : Nat) (v : Byte) {s : State p} (h : ReaderInv s) : (readByteLoop n v s).Ends ReaderInv := by
  induction n generalizing v s with
  | zero => exact readerInv_congr rfl h
  | succ n ih =>
    refine readBit_bind_readerInv h fun r t ht => ?_
    cases r with
    | bit b => exact ih _ ht
    | endOfInput => exact readerInv_congr rfl ht

theorem bitToResult_readerInv (r : BitResult) (s : State p) (h : ReaderInv s) : (bitToResult r s).Ends ReaderInv := by
  cases r <;> exact readerInv_congr rfl h

theorem closeReader_readerInv {s : State p} (h : ReaderInv s) : (closeReader s).Ends ReaderInv := by
  refine (closeReader_ends s).imp ?_
  rintro _ ⟨_, _, _, rfl⟩
  exact h

theorem walkLoop_readerInv (n : Nat) {s : State p} (h : ReaderInv s) : (walkLoop n s).Ends ReaderInv := by
  induction n generalizing s with
  | zero => exact h
  | succ n ih =>
    refine readBit_bind_readerInv h fun r t ht => ?_
    cases r with
    | endOfInput => dsimp only; split <;> exact ht
    | bit b =>
      have hwalk : (walkBit b t).Ends ReaderInv := (walkBit_ends b t).imp fun _ ⟨_, hu⟩ => readerInv_congr (by rw [hu]; rfl) ht
      refine Run.ends_bind hwalk (fun node u hu => ?_) fun _ => id
      split
      · exact (emitSymbol_ends _ u).imp fun _ hv => readerInv_congr (by rw [hv]; rfl) hu
      · exact ih hu

theorem decodeSymbol_readerInv {s : State p} (h : ReaderInv s) : (decodeSymbol s).Ends ReaderInv := by
  unfold decodeSymbol
  split
  · exact h
  · exact walkLoop_readerInv _ (readerInv_congr rfl h)

theorem decodeLoop_readerInv (n : Nat) {s : State p} (h : ReaderInv s) : (decodeLoop n s).Ends ReaderInv := by
  induction n generalizing s with
  | zero => exact h
  | succ n ih =>
    unfold decodeLoop
    split
    · exact h
    · refine Run.ends_bind (decodeSymbol_readerInv h) (fun r t ht => ?_) fun _ => id
      cases r with
      | endOfInput => exact ht
      | symbol x => exact ih ht

theorem decodeAll_readerInv {s : State p} (h : ReaderInv s) : (decodeAll s).Ends ReaderInv := by
  unfold decodeAll
  split
  · exact h
  · exact decodeLoop_readerInv _ h

theorem bodyOf_readerInv (i : Instr) {s : State p} (h : ReaderInv s) : (bodyOf i s).Ends ReaderInv := by
  have hother (hi : i.op ∈ [.wopen, .wbit, .wbyte, .wclose, .encsym, .encode]) : (bodyOf i s).Ends ReaderInv :=
    (bodyOf_keeps_reader_decoder hi s).imp fun _ ⟨hreader, _⟩ => readerInv_congr hreader h
  cases i with
  | ropen leave => exact ⟨Nat.zero_le 8, fun _ => rfl, by simp [openedReader]⟩
  | rbit => exact readBit_bind_readerInv h bitToResult_readerInv
  | rbyte => exact readByteLoop_readerInv 8 0#8 h
  | rclose => exact closeReader_readerInv h
  | decsym =>
    exact Run.ends_bind (decodeSymbol_readerInv h) (fun r t ht => (symbolToResult_reader r t).imp fun _ hu =>
      readerInv_congr hu ht) fun _ => id
  | decode => exact decodeAll_readerInv h
  | _ => exact hother (by simp [Instr.op])

theorem unitInvariant_readerInv : UnitInvariant (ReaderInv (p := .default)) where
  reset := have ⟨_, h, _⟩ := resetMeetsEveryInvariant; h
  congr _ _ h := readerInv_congr h.reader
  error _ _ := readerInv_congr rfl
  body i _ _ hs := (bodyOf_readerInv i hs).leaves_readerInv

/-- Settles O56: a bit read moves a bit from the held ones to the delivered ones, having pulled a byte if none was held, and
`EndOfInput` is recorded only when none is. -/
theorem everyStepKeepsTheReaderInvariant : Obligations.EveryStepKeepsTheReaderInvariant :=
  fun _ _ hs hstep => unitInvariant_readerInv.keptBy_nextAction hstep hs

end Sys2Proof.Machine
end

section
/-!
Every step keeps the decoder invariants (spec/10_state.md R20, 50_invariants_and_properties.md R162). `DECSYM` begins with the
accumulator empty; every end of it that leaves bits there takes `CorruptStream` or `IoError`.
-/
namespace Sys2Proof.Machine

variable {p : Params}

theorem decoderInv_congr {s t : State p} (hdecoder : t.decoder = s.decoder) (hfaults : t.regs.faults = s.regs.faults)
    (h : DecoderInv s) : DecoderInv t := by
  unfold DecoderInv
  rw [hdecoder, hfaults]
  exact h

theorem decoderInv_takeError (r : Raise) (s : State p) (h : DecoderInv s) : DecoderInv (takeError r s) := by
  obtain ⟨hle, hempty⟩ := h
  exact ⟨hle, fun hcorrupt hio => hempty (fault_clear_before_error hcorrupt) (fault_clear_before_error hio)⟩

/-- An empty accumulator meets the invariants whatever has been recorded. -/
theorem decoderInv_of_empty {s : State p} (hraw : s.decoder.accRaw = 0#p.lmax) (hlen : s.decoder.accLen = 0#6) :
    DecoderInv s := ⟨by rw [hlen]; exact Nat.zero_le _, fun _ _ => ⟨hraw, hlen⟩⟩

/-- Error entry with `CorruptStream` or `IoError` records that the accumulator may not be empty (10_state.md R31). -/
theorem decoderInv_takeError_recorded {r : Raise} {s : State p} (hr : r.kind = .corruptStream ∨ r.kind = .ioError)
    (hle : s.decoder.accLen.toNat ≤ p.lmax + 1) : DecoderInv (takeError r s) := by
  refine ⟨hle, fun hcorrupt hio => ?_⟩
  rw [takeError_faults, BitVec.getLsbD_or, Bool.or_eq_false_iff] at hcorrupt hio
  obtain hk | hk := hr <;> rw [hk] at hcorrupt hio
  · exact absurd hcorrupt.2 (by decide)
  · exact absurd hio.2 (by decide)

/-! ## The walk -/

/-- The walk is within `MAXLEN`, and its accumulator is empty when no bit is counted (43_decoder.md R138). -/
structure Walking (s : State p) : Prop where
  maxlen : s.conf.maxlen.toNat ≤ p.lmax
  len : s.decoder.accLen.toNat ≤ s.conf.maxlen.toNat
  raw : s.decoder.accLen = 0#6 → s.decoder.accRaw = 0#p.lmax

theorem Walking.startWalk {s : State p} (h : ConfigOk s) : Walking (startWalk s) :=
  ⟨h.maxlen_le, Nat.zero_le _, fun _ => rfl⟩

theorem Walking.accLen_le {s : State p} (h : Walking s) : s.decoder.accLen.toNat ≤ p.lmax + 1 :=
  h.len.trans (h.maxlen.trans (Nat.le_succ _))

theorem Walking.congr {s t : State p} (h : Walking s) (hconf : t.conf = s.conf) (hdecoder : t.decoder = s.decoder) :
    Walking t := ⟨hconf ▸ h.maxlen, by rw [hconf, hdecoder]; exact h.len, hdecoder ▸ h.raw⟩

/-- Within `MAXLEN` a bit appended is a bit counted: `ACC_LEN` does not wrap. -/
theorem Walking.appendBit_accLen {s : State p} (h : Walking s) (b : Bool) :
    (appendBit s.decoder b).accLen.toNat = s.decoder.accLen.toNat + 1 :=
  toNat_add_one (h.len.trans (h.maxlen.trans p.lmax_le))

theorem readBit_walking {s : State p} (h : Walking s) : (readBit s).Leaves Walking DecoderInv := by
  have hends := readBit_sameReadPass s
  have hraises := readBit_raises s
  cases hr : readBit s with
  | never port => trivial
  | done r t => rw [hr] at hends; exact h.congr (congrArg State.conf hends.frame :) hends.decoder
  | raise r t =>
    rw [hr] at hends hraises
    exact decoderInv_takeError_recorded (.inr hraises) (by rw [hends.decoder]; exact h.accLen_le)

/-- One bit moves the walk on within `MAXLEN`, or ends it with the bit appended (43_decoder.md R138). -/
theorem walkBit_walking (b : Bool) {s : State p} (h : Walking s) : (walkBit b s).Leaves Walking DecoderInv := by
  have happend := h.appendBit_accLen b
  have hle : (appendBit s.decoder b).accLen.toNat ≤ p.lmax + 1 := happend ▸ Nat.succ_le_succ (h.len.trans h.maxlen)
  unfold walkBit
  dsimp only
  split
  · exact decoderInv_takeError_recorded (.inl rfl) hle
  · next hlen =>
    split
    · exact decoderInv_takeError_recorded (.inl rfl) hle
    · refine ⟨h.maxlen, not_lt.mp hlen, fun hzero => ?_⟩
      have h0 : (appendBit s.decoder b).accLen.toNat = 0 := congrArg BitVec.toNat hzero
      omega

theorem emitSymbol_decoderInv (x : Sym p) (s : State p) : (emitSymbol x s).Ends DecoderInv :=
  (emitSymbol_ends x s).imp fun _ ht => by rw [ht]; exact decoderInv_of_empty rfl rfl

theorem walkLoop_decoderInv (n : Nat) {s : State p} (h : Walking s) : (walkLoop n s).Leaves DecoderInv DecoderInv := by
  induction n generalizing s with
  | zero => exact decoderInv_takeError_recorded (.inl rfl) h.accLen_le
  | succ n ih =>
    refine (readBit_walking h).bind fun r t ht => ?_
    cases r with
    | endOfInput =>
      dsimp only
      split
      · next hzero => exact decoderInv_of_empty (ht.raw hzero) hzero
      · exact decoderInv_takeError_recorded (.inl rfl) ht.accLen_le
    | bit b =>
      refine (walkBit_walking b ht).bind fun node u hu => ?_
      split
      · exact (emitSymbol_decoderInv _ u).leaves decoderInv_takeError
      · exact ih hu

/-! ## The commands -/

theorem decodeSymbol_decoderInv {s : State p} (h : DecoderInv s) : (decodeSymbol s).Leaves DecoderInv DecoderInv := by
  cases hc : checkConfig s with
  | some c => rw [decodeSymbol_badConfig hc]; exact decoderInv_takeError _ s h
  | none =>
    have hconf := checkConfig_eq_none.mp hc
    rw [decodeSymbol_configOk hconf]
    exact walkLoop_decoderInv _ (Walking.startWalk hconf)

theorem decodeLoop_decoderInv (n : Nat) {s : State p} (h : DecoderInv s) : (decodeLoop n s).Leaves DecoderInv DecoderInv := by
  induction n generalizing s with
  | zero => exact h
  | succ n ih =>
    rw [decodeLoop_succ, decodeRound]
    split
    · exact h
    · refine (decodeSymbol_decoderInv h).bind fun r t ht => ?_
      cases r with
      | endOfInput => exact ht
      | symbol x => exact ih ht

theorem decodeAll_decoderInv {s : State p} (h : DecoderInv s) : (decodeAll s).Leaves DecoderInv DecoderInv := by
  cases hc : checkConfig s with
  | some c => rw [decodeAll_badConfig hc]; exact decoderInv_takeError _ s h
  | none => rw [decodeAll_configOk (checkConfig_eq_none.mp hc)]; exact decodeLoop_decoderInv _ h

theorem symbolToResult_decoderInv (r : SymResult p) {s : State p} (h : DecoderInv s) :
    (symbolToResult r s).Leaves DecoderInv DecoderInv := by
  cases r with
  | symbol x => exact h
  | endOfInput => exact decoderInv_congr rfl rfl h

theorem bodyOf_decoderInv (i : Instr) {s : State p} (h : DecoderInv s) : (bodyOf i s).Leaves DecoderInv DecoderInv := by
  have hother (hdecoder : (bodyOf i s).Ends fun t => t.decoder = s.decoder) : (bodyOf i s).Leaves DecoderInv DecoderInv :=
    ((hdecoder.and (bodyOf_keeps i s)).imp fun _ ⟨ht, hkeeps⟩ => decoderInv_congr ht hkeeps.faults h).leaves decoderInv_takeError
  have hwriter (hi : i.op ∈ [.wopen, .wbit, .wbyte, .wclose, .encsym, .encode]) : (bodyOf i s).Leaves DecoderInv DecoderInv :=
    hother ((bodyOf_keeps_reader_decoder hi s).imp fun _ ht => ht.2)
  have hreader (hi : i.op ∈ [.ropen, .rbit, .rbyte, .rclose]) (hne : i.op ≠ .ropen) :
      (bodyOf i s).Leaves DecoderInv DecoderInv :=
    hother ((bodyOf_readerKeeps hi s).imp fun _ ht => (ht.pass hne).1)
  cases i with
  | ropen leave => exact decoderInv_of_empty rfl rfl
  | rbit => exact hreader (by simp [Instr.op]) (by simp [Instr.op])
  | rbyte => exact hreader (by simp [Instr.op]) (by simp [Instr.op])
  | rclose => exact hreader (by simp [Instr.op]) (by simp [Instr.op])
  | decsym => exact (decodeSymbol_decoderInv h).bind fun r _ => symbolToResult_decoderInv r
  | decode => exact decodeAll_decoderInv h
  | _ => exact hwriter (by simp [Instr.op])

theorem unitInvariant_decoderInv : UnitInvariant (DecoderInv (p := .default)) where
  reset := have ⟨_, _, h, _⟩ := resetMeetsEveryInvariant; h
  congr _ _ h := decoderInv_congr h.decoder h.faults
  error := decoderInv_takeError
  body i _ _ hs := bodyOf_decoderInv i hs

/-- Settles O57: a walk begins empty and counts no more than `MAXLEN` + 1 bits; a symbol or a clean end leaves the accumulator empty,
and every other end is recorded in `FAULTS`. -/
theorem everyStepKeepsTheDecoderInvariant : Obligations.EveryStepKeepsTheDecoderInvariant :=
  fun _ _ hs hstep => unitInvariant_decoderInv.keptBy_nextAction hstep hs

end Sys2Proof.Machine
end

section
/-!
Packing and unpacking, and the codes of a consistent table (spec/50_invariants_and_properties.md R163, R164, R166).
-/
namespace Sys2Proof.Machine

variable {p : Params}

/-! ## Packing -/

@[simp] theorem pack_length (bits : List Bool) : (pack bits).length = (bits.length + 7) / 8 := by simp [pack]

/-- Fewer than eight bits are packed into one byte at most, zeros after them. -/
theorem unpack_pack_short {bits : List Bool} (h : bits.length < 8) :
    unpack (pack bits) = bits ++ List.replicate (8 * ((bits.length + 7) / 8) - bits.length) false := by
  obtain rfl | hne := eq_or_ne bits []
  · rfl
  · have hpos : bits.length ≠ 0 := fun h0 => hne (List.eq_nil_of_length_eq_zero h0)
    have hone : (bits.length + 7) / 8 = 1 := by omega
    have hpack : pack bits = [byteOfBits bits] := by simp [pack, hone]
    rw [hpack, hone, unpack_cons, unpack_nil, List.append_nil, byteBits_byteOfBits h.le]

/-- Eight bits and more are the bits of a byte and the rest. -/
theorem exists_byteBits_append {bits : List Bool} (h : 8 ≤ bits.length) :
    ∃ y rest, bits = byteBits y ++ rest ∧ bits.length = rest.length + 8 := by
  have hlen : (bits.take 8).length = 8 := by rw [List.length_take, min_eq_left h]
  have hbyte : byteBits (byteOfBits (bits.take 8)) = bits.take 8 := by
    rw [byteBits_byteOfBits hlen.le, hlen, Nat.sub_self, List.replicate_zero, List.append_nil]
  refine ⟨byteOfBits (bits.take 8), bits.drop 8, ?_, ?_⟩
  · rw [hbyte, List.take_append_drop]
  · rw [List.length_drop, Nat.sub_add_cancel h]

/-- Unpacking what was packed gives the bits and the padding zeros (50_invariants_and_properties.md R163). -/
theorem unpack_pack (bits : List Bool) :
    unpack (pack bits) = bits ++ List.replicate (8 * ((bits.length + 7) / 8) - bits.length) false := by
  induction hn : bits.length using Nat.strong_induction_on generalizing bits with
  | _ n ih =>
    subst hn
    obtain hlt | hge := Nat.lt_or_ge bits.length 8
    · exact unpack_pack_short hlt
    · obtain ⟨y, rest, rfl, hlen⟩ := exists_byteBits_append hge
      have hpad : 8 * ((rest.length + 8 + 7) / 8) - (rest.length + 8) = 8 * ((rest.length + 7) / 8) - rest.length := by omega
      rw [pack_byteBits, unpack_cons, ih rest.length (by omega) rest rfl, hlen, hpad, List.append_assoc]

/-- Settles O51: bits go into bytes eight at a time, and the last byte is filled with zeros. -/
theorem unpackAfterPackAddsThePadding : Obligations.UnpackAfterPackAddsThePadding :=
  fun bits => ⟨unpack_pack bits, pack_length bits⟩

/-! ## Codes -/

/-- No path to a Leaf goes on from another Leaf (50_invariants_and_properties.md R166). -/
theorem eq_of_leaf_prefix {m : Memory p} {r n k : NodeIdx p} {c d : List Bool} (hc : path m r c = some n)
    (hleaf : isLeaf (m.nodeAt n) = true) (hd : path m r d = some k) (hprefix : c <+: d) : n = k := by
  obtain ⟨rest, rfl⟩ := hprefix
  cases rest with
  | nil => rw [List.append_nil, hc] at hd; exact Option.some.inj hd
  | cons b rest =>
    obtain ⟨i, hi, hinner⟩ := path_internal hd
    obtain rfl : n = i := Option.some.inj (hc.symm.trans hi)
    simp [hleaf] at hinner

/-- Settles O52: a code that begins with another leads to the same Leaf, which has one symbol. -/
theorem consistentCodesArePrefixFree : Obligations.ConsistentCodesArePrefixFree := by
  intro s x y hcons hx hy hne hprefix
  obtain ⟨-, -, -, n, hn, hleaf, hsymx⟩ := hcons x hx
  obtain ⟨-, -, -, k, hk, -, hsymy⟩ := hcons y hy
  obtain rfl := eq_of_leaf_prefix hn hleaf hk hprefix
  exact hne (hsymx.symm.trans hsymy)

end Sys2Proof.Machine
end

section
/-!
Whole passes: what a pass encoded decodes to the same symbols, and an empty pass is clean (spec/50_invariants_and_properties.md R165,
R170).
-/
namespace Sys2Proof.Machine

variable {p : Params}

/-! ## The two openings -/

/-- The state after `ROPEN` (41_bitreader.md R101). -/
def readPassBegun (leave : Bool) (s : State p) : State p :=
  complete .none ((s.setReader (openedReader leave)).setDecoder
    { accRaw := 0#_, accLen := 0#6, cur := s.conf.root, dcount := 0#_ })

/-- The state after `WOPEN` (40_bitwriter.md R81). -/
def writePassBegun (leave : Bool) (s : State p) : State p := complete .none (s.setWriter (openedWriter leave))

theorem exec_wopen_begins {s : State} (h : s.writer.wopenf = false) (leave : Bool) :
    exec (.wopen leave) s = .next (writePassBegun leave s) := exec_wopen_of_closed rfl h

theorem exec_ropen_begins {s : State} (h : s.reader.ropenf = false) (leave : Bool) :
    exec (.ropen leave) s = .next (readPassBegun leave s) := exec_ropen_of_closed rfl h

/-- A pass that begins holds no bit, so the bits to come are those of the source. -/
theorem bitsToCome_readPassBegun (leave : Bool) (s : State p) : bitsToCome (readPassBegun leave s) = unpack s.env.source := rfl

/-- With no symbol counted no limit is reached (43_decoder.md R139). -/
theorem limitReached_of_dcount_zero {s : State p} (h : s.decoder.dcount = 0#_) : limitReached s = false := by
  rw [← Bool.not_eq_true, limitReached_eq_true, h]
  rintro ⟨h0, hle⟩
  exact h0 (BitVec.eq_of_toNat_eq (by simpa using hle))

/-! ## The round trip -/

/-- A present symbol of a consistent table has a Code that `ENCSYM` accepts. -/
theorem ConsistentAt.goodEntry {s : State p} {x : Sym p} (h : ConsistentAt s x) (hvalid : (s.mem.codeAt x).valid = true) :
    GoodEntry (s.mem.codeAt x) := by
  obtain ⟨hpos, hle, hmax, -⟩ := h
  exact ⟨hvalid, hpos, hle.trans hmax⟩

/-- A symbol's entry and the tree agree by the stores, `ROOT` and `MAXLEN` alone. -/
theorem ConsistentAt.congr {s t : State p} {x : Sym p} (h : ConsistentAt s x) (hmem : t.mem = s.mem) (hconf : t.conf = s.conf) :
    ConsistentAt t x := by
  unfold ConsistentAt
  rwa [hmem, hconf]

/-- The codes of a symbol sequence and no bit more, with no limit: `DECODE` emits the symbols and ends clean (43_decoder.md R139). -/
theorem exec_decode_to_the_end {s : State} {xs : List Sym} (hopen : s.reader.ropenf = true) (h8 : s.reader.rcnt.toNat ≤ 8)
    (hconf : ConfigOk s) (ha : ∀ a ∈ s.env.sourceReadAns, a = PortAnswer.ok) (hsym : ∀ a ∈ s.env.symWriteAns, a = SymAnswer.ok)
    (hcons : ∀ x ∈ xs, ConsistentAt s x) (hb : bitsToCome s = symbolBits s.mem xs) (h0 : s.conf.dlimit = 0#32) :
    ∃ t, exec .decode s = .next t ∧ t.env.symOut = s.env.symOut ++ xs ∧ t.regs.status = 0x00000020#32 := by
  have hbits : bitsToCome s = symbolBits s.mem xs ++ [] := by rw [hb, List.append_nil]
  obtain ⟨t, ht, hrun⟩ := decodeAll_spells (spells_symbolBits hcons) rfl rfl h8 hconf ha hsym (.inl h0) hbits
  have hroom : limitReached t = false := RoomFor.limit_not_reached (k := 0) (.inl (ht.conf ▸ h0))
  obtain ⟨u, hu, hend⟩ := decodeAll_endOfInput ht.rcnt (configOk_congr ht.conf ht.mem hconf) ht.answers hroom
    (ht.bitsToCome_eq hbits)
  refine ⟨complete .endOfInput (u.setDecoder (accumulated t.decoder [] t.conf.root)), ?_, hu.symOut.trans ht.symOut, rfl⟩
  rw [exec_decode_of_open hopen, hrun, hend, finish_done]

/-- A read pass over the packed codes of a symbol sequence decodes it, with their number as the limit, or with none when the codes
fill whole bytes (50_invariants_and_properties.md R165 a, b). -/
theorem readPass_decodes {s : State} {xs : List Sym} (leave : Bool) (hclosed : s.reader.ropenf = false) (hconf : ConfigOk s)
    (hcons : ∀ x ∈ xs, ConsistentAt s x) (ha : ∀ a ∈ s.env.sourceReadAns, a = PortAnswer.ok)
    (hsym : ∀ a ∈ s.env.symWriteAns, a = SymAnswer.ok) (hsource : s.env.source = pack (symbolBits s.mem xs))
    (hout : s.env.symOut = [])
    (hlimit : (s.conf.dlimit.toNat = xs.length ∧ 1 ≤ xs.length) ∨
      (s.conf.dlimit = 0#32 ∧ (symbolBits s.mem xs).length % 8 = 0)) :
    ∃ reopened decoded, exec (.ropen leave) s = .next reopened ∧ exec .decode reopened = .next decoded ∧
      decoded.env.symOut = xs ∧ decoded.regs.status = (if s.conf.dlimit = 0#32 then 0x00000020#32 else 0x00000030#32) := by
  have hbits : bitsToCome (readPassBegun leave s) = symbolBits s.mem xs ++ _ :=
    (congrArg unpack hsource).trans (unpack_pack _)
  refine ⟨readPassBegun leave s, ?_⟩
  obtain ⟨hnum, hpos⟩ | ⟨h0, hwhole⟩ := hlimit
  · have hne : s.conf.dlimit ≠ 0#32 := fun h => by rw [h, BitVec.toNat_zero] at hnum; omega
    obtain ⟨t, hrun, hsymOut, hstatus, -⟩ := decodeEmitsTheExpectedSymbols (readPassBegun leave s) xs _ rfl (Nat.zero_le 8) hconf
      ha hsym hcons hbits hne (hnum.trans (Nat.zero_add _).symm)
    exact ⟨t, exec_ropen_begins hclosed leave, hrun, hsymOut.trans (congrArg (· ++ xs) hout), by rw [if_neg hne, hstatus]⟩
  · have hpad : 8 * (((symbolBits s.mem xs).length + 7) / 8) - (symbolBits s.mem xs).length = 0 := by omega
    rw [hpad, List.replicate_zero, List.append_nil] at hbits
    obtain ⟨t, hrun, hsymOut, hstatus⟩ := exec_decode_to_the_end (s := readPassBegun leave s) (xs := xs) rfl (Nat.zero_le 8) hconf
      ha hsym hcons hbits h0
    exact ⟨t, exec_ropen_begins hclosed leave, hrun, hsymOut.trans (congrArg (· ++ xs) hout), by rw [if_pos h0, hstatus]⟩

/-- Settles O53: `ENCODE` packs the codes of the symbols, the bytes unpack to the codes and the padding, and `DECODE` of the codes
gives the symbols. -/
theorem roundTrip : Obligations.RoundTrip := by
  intro s leave rleave hwclosed hrclosed hconf hcons hvalid hsink hsym hempty hout
  have hat : ∀ x ∈ s.env.symIn, ConsistentAt s x := fun x hx => hcons x (hvalid x hx)
  obtain ⟨t, hrun, htsink, -⟩ := encodeWritesThePackedStream (writePassBegun leave s) rfl (BitVec.zero_shiftLeft _)
    (fun x hx => (hat x hx).goodEntry (hvalid x hx)) hsink hsym
  obtain ⟨hreader, -, htconf, htmem, -, -, -, -, -, -, htout, -, -, htans, -⟩ :=
    encoderCommandsFrame .encode _ t (by simp [Instr.op]) hrun
  have hpacked : t.env.sink = pack (symbolBits s.mem s.env.symIn) :=
    htsink.trans (congrArg (· ++ pack (symbolBits s.mem s.env.symIn)) hempty)
  replace htconf : t.conf = s.conf := htconf
  replace htmem : t.mem = s.mem := htmem
  have hconf' : ConfigOk t := configOk_congr htconf htmem hconf
  have hat' : ∀ x ∈ s.env.symIn, ConsistentAt t x := fun x hx => (hat x hx).congr htmem htconf
  refine ⟨writePassBegun leave s, t, exec_wopen_begins hwclosed leave, hrun, hpacked, fun limit hlimit => ?_⟩
  refine readPass_decodes (xs := s.env.symIn) rleave ?_ hconf' hat' (fun _ h => absurd h List.not_mem_nil) ?_ ?_ ?_ ?_
  · exact (congrArg Reader.ropenf hreader).trans hrclosed
  · exact fun a ha => hsym.2 a (htans ▸ ha)
  · exact hpacked.trans (congrArg (fun m => pack (symbolBits m s.env.symIn)) htmem.symm)
  · exact htout.trans hout
  · exact htmem ▸ hlimit

/-! ## Empty passes -/

/-- `DECODE` of an empty source: one call, which answers `EndOfInput` at the root (43_decoder.md R139). -/
theorem decodeAll_emptySource {s : State p} (hconf : ConfigOk s) (hroom : limitReached s = false) (h0 : s.reader.rcnt = 0#4)
    (he : s.reader.reof = false) (ha : nextAnswer s.env.sourceReadAns = .ok) (hs : s.env.source = []) :
    decodeAll s = .done .endOfInput (((startWalk s).setReader { s.reader with reof := true }).setEnv { s.env with
      sourceReadAns := s.env.sourceReadAns.tail, calls := s.env.calls ++ [.sourceRead] }) := by
  have hread := readBit_endOfSource (s := startWalk s) h0 he ha hs
  rw [decodeAll_eq_decodeRound hconf, decodeRound, hroom, decodeSymbol_configOk hconf, walkLoop_succ, walkRound, hread]
  rfl

/-- Settles O54: the close of an empty write pass has nothing to flush, and the first bit read of an empty read pass finds no byte. -/
theorem emptyPassesAreClean : Obligations.EmptyPassesAreClean := by
  constructor
  · intro s hclosed hin ⟨hwrite, hrelease⟩ ⟨hread, _⟩
    obtain ⟨t, hrun, -, hsink, hreleased, hwriter⟩ := closeWriter_ok (s := symbolTaken (writePassBegun false s))
      (BitVec.zero_shiftLeft _) ⟨hwrite, hrelease⟩
    have hencode : encodeAll (writePassBegun false s) = .done () t := by
      rw [encodeAll_nil (s := writePassBegun false s) (nextSymAnswer_ok hread) hin, hrun]
    rw [show pack (heldBits (symbolTaken (writePassBegun false s)).writer) = [] from congrArg pack (heldBits_nil rfl)]
      at hsink hwriter
    refine ⟨writePassBegun false s, complete .none t, exec_wopen_begins hclosed false, ?_, ?_, ?_, ?_, ?_, rfl⟩
    · rw [exec_encode_of_open rfl, hencode, Run.bind_done, finish_done]
    · exact hsink.trans (List.append_nil _)
    · exact hreleased.trans (Bool.or_true _)
    · rw [complete_writer, hwriter]; rfl
    · rw [complete_writer, hwriter]; rfl
  · intro s leave hclosed hsource hconf ⟨hread, _⟩
    have hdecode := decodeAll_emptySource (s := readPassBegun leave s) hconf (limitReached_of_dcount_zero rfl) rfl rfl
      (nextAnswer_ok hread) hsource
    exact ⟨readPassBegun leave s, _, exec_ropen_begins hclosed leave,
      (exec_decode_of_open rfl).trans (congrArg finish hdecode), rfl, rfl, rfl⟩

end Sys2Proof.Machine
end

section
/-!
Bytes accepted and symbols delivered stay, and the inputs are only consumed from the front (spec/60_exceptions.md R185, 20_memory.md
R44, R48): a command changes the streams by its port calls alone, and each of them adds behind or takes off the front.
-/
namespace Sys2Proof.Machine

variable {p : Params}

/-- From `e` to `e'` the outputs and the record of calls have only grown at the end, the inputs only shrunk at the front. A field not
given says that its stream is as it was. -/
structure StreamsAdvance (e e' : Env p) : Prop where
  sink : e.sink <+: e'.sink := by exact List.prefix_rfl
  symOut : e.symOut <+: e'.symOut := by exact List.prefix_rfl
  calls : e.calls <+: e'.calls := by exact List.prefix_rfl
  source : e'.source <:+ e.source := by exact List.suffix_rfl
  symIn : e'.symIn <:+ e.symIn := by exact List.suffix_rfl

theorem StreamsAdvance.refl (e : Env p) : StreamsAdvance e e := {}

theorem StreamsAdvance.trans {e e' e'' : Env p} (h : StreamsAdvance e e') (k : StreamsAdvance e' e'') : StreamsAdvance e e'' :=
  ⟨h.sink.trans k.sink, h.symOut.trans k.symOut, h.calls.trans k.calls, k.source.trans h.source, k.symIn.trans h.symIn⟩

section
variable {α β : Type}

/-- The run, begun with the environment `e`, ends with the streams advanced. -/
def Run.Advances (e : Env p) (x : Run p α) : Prop := x.Ends fun t => StreamsAdvance e t.env

theorem Run.Advances.bind {e : Env p} {x : Run p α} {f : α → State p → Run p β} (hx : x.Advances e)
    (hf : ∀ a t, (f a t).Advances t.env) : (x.bind f).Advances e :=
  Run.ends_bind hx (fun a t ht => (hf a t).imp fun _ => ht.trans) fun _ => id

theorem advances_done {a : α} {s t : State p} (h : StreamsAdvance s.env t.env) : (Run.done a t).Advances s.env := h

theorem advances_raise {r : Raise} {s t : State p} (h : StreamsAdvance s.env t.env) :
    (Run.raise r t : Run p α).Advances s.env := h

theorem advances_never {e : Env p} {port : Port} : (Run.never port : Run p α).Advances e := trivial

end

/-! ## The writer and the encoder -/

/-- Of the sub-step `WBIT` the eighth bit alone calls a port (40_bitwriter.md R82). -/
theorem writeBit_advances (b : Bool) (s : State p) : (writeBit b s).Advances s.env := by
  by_cases h7 : s.writer.wcnt = 7#3
  · cases ha : nextAnswer s.env.sinkWriteAns with
    | ok =>
      rw [writeBit_full h7 ha]
      exact advances_done { sink := List.prefix_append _ _, calls := List.prefix_append _ _ }
    | ioError e => rw [writeBit_ioError h7 ha]; exact advances_raise { calls := List.prefix_append _ _ }
    | never => rw [writeBit_never h7 ha]; exact advances_never
  · rw [writeBit_short h7]; exact advances_done {}

theorem writeBits_advances {w : Nat} (raw : BitVec w) (n : Nat) (s : State p) : (writeBits raw n s).Advances s.env := by
  induction n generalizing s with
  | zero => exact StreamsAdvance.refl _
  | succ n ih => exact (writeBit_advances _ s).bind fun _ t => ih t

theorem streamsAdvance_closedAfterAll (s : State p) : StreamsAdvance s.env (closedAfterAll s).env where
  sink := by
    show s.env.sink <+: if _ then s.env.sink ++ [s.writer.wbuf] else s.env.sink
    split
    · exact List.prefix_append _ _
    · exact List.prefix_rfl
  calls := (List.prefix_append _ _).trans (List.prefix_append _ _)

theorem closeWriter_advances (s : State p) : (closeWriter s).Advances s.env :=
  (closeWriter_ends s).imp fun _ ht => ht ▸ streamsAdvance_closedAfterAll s

theorem encodeSymbol_advances (x : Sym p) (s : State p) : (encodeSymbol x s).Advances s.env := by
  obtain ⟨r, -, hrefused⟩ | hwritten := encodeSymbol_refused_or_written x s
  · rw [hrefused]; exact StreamsAdvance.refl _
  · rw [hwritten]; exact writeBits_advances _ _ s

theorem symRead_advances (s : State p) : (symRead s).Advances s.env := by
  cases ha : nextSymAnswer s.env.symReadAns with
  | ok => rw [symRead_answered ha]; exact advances_done { symIn := List.tail_suffix _, calls := List.prefix_append _ _ }
  | never => rw [symRead_never ha]; exact advances_never

theorem encodeLoop_advances (n : Nat) (s : State p) : (encodeLoop n s).Advances s.env := by
  induction n generalizing s with
  | zero => exact closeWriter_advances s
  | succ n ih =>
    refine (symRead_advances s).bind fun r t => ?_
    cases r with
    | none => exact closeWriter_advances t
    | some x => exact (encodeSymbol_advances x t).bind fun _ u => ih u

/-! ## The reader and the decoder -/

/-- The sub-step `RBIT` calls a port only when it holds no bit and has not met the end (41_bitreader.md R102). -/
theorem readBit_advances (s : State p) : (readBit s).Advances s.env := by
  by_cases h0 : s.reader.rcnt = 0#4
  · cases he : s.reader.reof with
    | true => rw [readBit_after_end h0 he]; exact StreamsAdvance.refl _
    | false =>
      cases ha : nextAnswer s.env.sourceReadAns with
      | ok =>
        cases hs : s.env.source with
        | nil => rw [readBit_endOfSource h0 he ha hs]; exact advances_done { calls := List.prefix_append _ _ }
        | cons y rest =>
          rw [readBit_byte h0 he ha hs]
          exact advances_done { source := hs ▸ List.suffix_cons y rest, calls := List.prefix_append _ _ }
      | ioError e => rw [readBit_ioError h0 he ha]; exact advances_raise { calls := List.prefix_append _ _ }
      | never => rw [readBit_never h0 he ha]; exact advances_never
  · rw [readBit_held h0]; exact StreamsAdvance.refl _

theorem readByteLoop_advances (n : Nat) (v : Byte) (s : State p) : (readByteLoop n v s).Advances s.env := by
  induction n generalizing v s with
  | zero => exact StreamsAdvance.refl _
  | succ n ih =>
    refine (readBit_advances s).bind fun r t => ?_
    cases r with
    | endOfInput => exact StreamsAdvance.refl _
    | bit b => exact ih _ t

theorem closeReader_advances (s : State p) : (closeReader s).Advances s.env := by
  cases hl : s.reader.rleave with
  | true => rw [closeReader_of_rleave hl]; exact StreamsAdvance.refl _
  | false =>
    cases ha : nextAnswer s.env.sourceReleaseAns with
    | ok => rw [closeReader_ok hl ha]; exact advances_done { calls := List.prefix_append _ _ }
    | ioError e => rw [closeReader_ioError hl ha]; exact advances_raise { calls := List.prefix_append _ _ }
    | never => rw [closeReader_never hl ha]; exact advances_never

theorem walkBit_advances (b : Bool) (s : State p) : (walkBit b s).Advances s.env :=
  (walkBit_ends b s).imp fun _ ⟨_, ht⟩ => ht ▸ StreamsAdvance.refl _

theorem emitSymbol_advances (x : Sym p) (s : State p) : (emitSymbol x s).Advances s.env :=
  (emitSymbol_ends x s).imp fun _ ht => ht ▸ { symOut := List.prefix_append _ _, calls := List.prefix_append _ _ }

theorem walkLoop_advances (n : Nat) (s : State p) : (walkLoop n s).Advances s.env := by
  induction n generalizing s with
  | zero => exact StreamsAdvance.refl _
  | succ n ih =>
    refine (readBit_advances s).bind fun r t => ?_
    cases r with
    | endOfInput => dsimp only; split <;> exact StreamsAdvance.refl _
    | bit b =>
      refine (walkBit_advances b t).bind fun node u => ?_
      split
      · exact emitSymbol_advances _ u
      · exact ih u

theorem decodeSymbol_advances (s : State p) : (decodeSymbol s).Advances s.env := by
  unfold decodeSymbol
  split
  · exact StreamsAdvance.refl _
  · exact walkLoop_advances _ (startWalk s)

theorem decodeLoop_advances (n : Nat) (s : State p) : (decodeLoop n s).Advances s.env := by
  induction n generalizing s with
  | zero => exact StreamsAdvance.refl _
  | succ n ih =>
    unfold decodeLoop
    split
    · exact StreamsAdvance.refl _
    · refine (decodeSymbol_advances s).bind fun r t => ?_
      cases r with
      | endOfInput => exact StreamsAdvance.refl _
      | symbol x => exact ih t

theorem decodeAll_advances (s : State p) : (decodeAll s).Advances s.env := by
  unfold decodeAll
  split
  · exact StreamsAdvance.refl _
  · exact decodeLoop_advances _ s

/-! ## The commands -/

theorem bitToResult_advances (r : BitResult) (s : State p) : (bitToResult r s).Advances s.env := by
  cases r <;> exact StreamsAdvance.refl _

theorem symbolToResult_advances (r : SymResult p) (s : State p) : (symbolToResult r s).Advances s.env := by
  cases r <;> exact StreamsAdvance.refl _

/-- Whatever a body returns or raises in, the streams have advanced. -/
theorem bodyOf_advances (i : Instr) (s : State p) : (bodyOf i s).Advances s.env := by
  cases i with
  | wopen leave => exact StreamsAdvance.refl _
  | wbit b => exact Run.ends_bind_done (writeBit_advances b s)
  | wbyte v => exact Run.ends_bind_done (writeBits_advances v 8 s)
  | wclose => exact Run.ends_bind_done (closeWriter_advances s)
  | ropen leave => exact StreamsAdvance.refl _
  | rbit => exact (readBit_advances s).bind bitToResult_advances
  | rbyte => exact readByteLoop_advances 8 0#8 s
  | rclose => exact closeReader_advances s
  | encsym x => exact Run.ends_bind_done (encodeSymbol_advances _ s)
  | encode => exact Run.ends_bind_done (encodeLoop_advances _ s)
  | decsym => exact (decodeSymbol_advances s).bind symbolToResult_advances
  | decode => exact decodeAll_advances s

/-- Settles O23: the body only advances the streams, also when it ends in a `raise`, and the frame of the command writes registers
alone. -/
theorem nothingDeliveredIsTakenBack : Obligations.NothingDeliveredIsTakenBack := by
  intro i s t h
  obtain ⟨u, ⟨hsink, hsymOut, hcalls, hsource, hsymIn⟩, ht⟩ :=
    exec_next_of_ends (P := fun v => StreamsAdvance s.env v.env) h (StreamsAdvance.refl _) (bodyOf_advances i s)
  rw [ht]
  exact ⟨hsink, hsymOut, hcalls, hsource, hsymIn⟩

end Sys2Proof.Machine
end

section
/-!
A command whose port call is never answered never completes (spec/70_reset_and_hazards.md R212, 93_implementation_defined.md U7):
for each command the call that stops it, every call before it answered.
-/
namespace Sys2Proof.Machine

variable {p : Params}

/-! ## A command that is stuck -/

theorem finish_eq_fault {x : Run p ResKind} {f : Fault} :
    finish x = .fault f ↔ ∃ port, f = .portNeverAnswered port ∧ x = .never port := by
  cases x with
  | done k t => simp
  | raise r t => simp
  | never port => simp [eq_comm]

/-- A command is stuck exactly when its precondition holds and its body waits for a port (60_exceptions.md R184). -/
theorem exec_eq_fault {i : Instr} {s : State} {f : Fault} :
    exec i s = .fault f ↔ ∃ port, f = .portNeverAnswered port ∧ preOf i s = none ∧ bodyOf i s = .never port := by
  cases hpre : preOf i s with
  | some c => simp [exec_of_preOf_some hpre]
  | none => simp [exec_of_preOf_none hpre, finish_eq_fault]

theorem exec_writer_stuck {i : Instr} {s : State} {port : Port} (hi : i.op ∈ [.wbit, .wbyte, .wclose, .encsym, .encode])
    (hopen : s.writer.wopenf = true) (hbody : bodyOf i s = .never port) : exec i s = .fault (.portNeverAnswered port) := by
  rw [exec_writer_of_open hi hopen, hbody, finish_never]

theorem exec_reader_stuck {i : Instr} {s : State} {port : Port} (hi : i.op ∈ [.rbit, .rbyte, .rclose, .decsym, .decode])
    (hopen : s.reader.ropenf = true) (hbody : bodyOf i s = .never port) : exec i s = .fault (.portNeverAnswered port) := by
  rw [exec_reader_of_open hi hopen, hbody, finish_never]

/-- What waits goes on waiting, whatever was to follow. -/
theorem Run.bind_of_never {α β : Type} {x : Run p α} {port : Port} (h : x = .never port) (f : α → State p → Run p β) :
    x.bind f = .never port := by
  rw [h, Run.bind_never]

/-! ## Bits written, by their number alone -/

/-- The sink accepts each byte that the next `n` bits complete. -/
def SinkAccepts (s : State p) (n : Nat) : Prop :=
  ∀ a ∈ s.env.sinkWriteAns.take ((s.writer.wcnt.toNat + n) / 8), a = PortAnswer.ok

/-- From `s` to `t` the writer has taken `n` bits, whatever it held, and used up one answer for each byte they complete
(40_bitwriter.md R82). -/
structure Passed (s t : State p) (n : Nat) : Prop where
  wcnt : t.writer.wcnt.toNat = (s.writer.wcnt.toNat + n) % 8
  answers : t.env.sinkWriteAns = s.env.sinkWriteAns.drop ((s.writer.wcnt.toNat + n) / 8)

theorem SinkAccepts.of_all_ok {s : State p} (ha : ∀ a ∈ s.env.sinkWriteAns, a = PortAnswer.ok) (n : Nat) : SinkAccepts s n :=
  fun a h => ha a (List.mem_of_mem_take h)

/-- Bits that complete no more than `j` bytes, the first `j` of which the sink accepts. -/
theorem SinkAccepts.of_replicate {s : State p} {j n : Nat} {rest : List PortAnswer}
    (ha : s.env.sinkWriteAns = List.replicate j .ok ++ rest) (hj : (s.writer.wcnt.toNat + n) / 8 ≤ j) : SinkAccepts s n := by
  intro a h
  rw [ha, List.take_append_of_le_length (by simpa using hj)] at h
  exact List.eq_of_mem_replicate (List.mem_of_mem_take h)

theorem Passed.answers_replicate {s t : State p} {j n : Nat} {rest : List PortAnswer} (h : Passed s t n)
    (ha : s.env.sinkWriteAns = List.replicate j .ok ++ rest) (hj : (s.writer.wcnt.toNat + n) / 8 ≤ j) :
    t.env.sinkWriteAns = List.replicate (j - (s.writer.wcnt.toNat + n) / 8) .ok ++ rest := by
  rw [h.answers, ha, List.drop_append_of_le_length (by simpa using hj), List.drop_replicate]

theorem Passed.refl (s : State p) : Passed s s 0 := by
  have := s.writer.wcnt.isLt
  refine ⟨by omega, ?_⟩
  rw [Nat.div_eq_of_lt (by omega), List.drop_zero]

/-- The bytes that `m` bits complete and then `n` more. -/
theorem Passed.bytes_add {s t : State p} {m : Nat} (h : Passed s t m) (n : Nat) :
    (s.writer.wcnt.toNat + (m + n)) / 8 = (s.writer.wcnt.toNat + m) / 8 + (t.writer.wcnt.toNat + n) / 8 := by
  rw [h.wcnt]
  omega

theorem Passed.trans {s t u : State p} {m n : Nat} (h : Passed s t m) (k : Passed t u n) : Passed s u (m + n) := by
  refine ⟨by rw [k.wcnt, h.wcnt]; omega, ?_⟩
  rw [k.answers, h.answers, h.bytes_add, List.drop_drop]

theorem SinkAccepts.mono {s : State p} {m n : Nat} (h : SinkAccepts s n) (hmn : m ≤ n) : SinkAccepts s m :=
  fun a ha => h a (List.take_subset_take_left _ (Nat.div_le_div_right (by omega)) ha)

theorem SinkAccepts.after {s t : State p} {m n : Nat} (h : SinkAccepts s (m + n)) (k : Passed s t m) : SinkAccepts t n := by
  intro a ha
  refine h a ?_
  rw [k.bytes_add, List.take_add]
  exact List.mem_append_right _ (k.answers ▸ ha)

/-- One bit, the sink accepting the byte it may complete (40_bitwriter.md R82 cases a, b). -/
theorem writeBit_passed {b : Bool} {s : State p} (ha : SinkAccepts s 1) : ∃ t, writeBit b s = .done () t ∧ Passed s t 1 := by
  by_cases h7 : s.writer.wcnt = 7#3
  · have hnext : nextAnswer s.env.sinkWriteAns = .ok := by
      rw [SinkAccepts, h7] at ha
      cases hl : s.env.sinkWriteAns with
      | nil => rfl
      | cons a l => exact ha a (by rw [hl]; exact List.mem_cons_self)
    refine ⟨_, writeBit_full h7 hnext, ?_, ?_⟩ <;> rw [h7]
    · rfl
    · exact List.drop_one.symm
  · have hadd : (s.writer.wcnt + 1).toNat = s.writer.wcnt.toNat + 1 := toNat_add_one_wcnt h7
    have := (s.writer.wcnt + 1).isLt
    refine ⟨_, writeBit_short h7, ?_, ?_⟩
    · exact hadd.trans (by omega)
    · rw [Nat.div_eq_of_lt (by omega), List.drop_zero]
      rfl

/-- Bits all of whose bytes the sink accepts are written (40_bitwriter.md R83, 42_encoder.md R123). -/
theorem writeBits_passed {w : Nat} {raw : BitVec w} {n : Nat} {s : State p} (ha : SinkAccepts s n) :
    ∃ t, writeBits raw n s = .done () t ∧ Passed s t n := by
  induction n generalizing s with
  | zero => exact ⟨s, rfl, Passed.refl s⟩
  | succ n ih =>
    rw [Nat.add_comm] at ha ⊢
    obtain ⟨t, ht, hbit⟩ := writeBit_passed (b := raw.getLsbD n) (ha.mono (Nat.le_add_right 1 n))
    obtain ⟨u, hu, hrest⟩ := ih (ha.after hbit)
    exact ⟨u, by rw [Nat.add_comm, writeBits, ht, Run.bind_done, hu], hbit.trans hrest⟩

/-! ## The encoder -/

theorem GoodEntry.encodeSymbol_eq {x : Sym p} {s : State p} (h : GoodEntry (s.mem.codeAt x)) :
    encodeSymbol x s = writeBits (s.mem.codeAt x).raw (s.mem.codeAt x).len.toNat s :=
  encodeSymbol_accepted h.1 h.badCodeLen_eq_false

/-- `ENCSYM` of a good symbol is stuck at the first byte of its code that the sink never answers (42_encoder.md R121). -/
theorem encodeSymbol_never {x : Sym p} {s : State p} {j : Nat} {later : List PortAnswer} (hgood : GoodEntry (s.mem.codeAt x))
    (ha : s.env.sinkWriteAns = List.replicate j .ok ++ .never :: later)
    (hj : j < (s.writer.wcnt.toNat + (s.mem.codeAt x).len.toNat) / 8) : encodeSymbol x s = .never .sinkWrite := by
  rw [hgood.encodeSymbol_eq, writeBits_never ha hj]

/-- The close is stuck at the release when the flush, if there is one, is answered (40_bitwriter.md R84). -/
theorem closeWriter_never_release {s : State p} (hflush : ¬(s.writer.wcnt ≠ 0#3 ∧ nextAnswer s.env.sinkWriteAns = .never))
    (hleave : s.writer.wleave = false) (hrelease : nextAnswer s.env.sinkReleaseAns = .never) :
    closeWriter s = .never .sinkRelease := by
  obtain ⟨err, hf⟩ := flushPartial_answered hflush
  exact closeWriter_stuck_at_release hf (releaseSink_never hleave hrelease)

theorem closeWriter_never_flush {s : State p} (h0 : s.writer.wcnt ≠ 0#3) (ha : nextAnswer s.env.sinkWriteAns = .never) :
    closeWriter s = .never .sinkWrite :=
  Run.bind_of_never (flushPartial_never h0 ha) _

/-- From `s` to `t` the loop of `ENCODE` has gone `k` rounds, which wrote `n` bits (42_encoder.md R122). -/
structure Rounds (s t : State p) (k n : Nat) : Prop where
  symIn : t.env.symIn = s.env.symIn.drop k
  symReadAns : t.env.symReadAns = s.env.symReadAns.drop k
  mem : t.mem = s.mem
  pass : SamePass s t
  passed : Passed s t n

theorem Rounds.refl (s : State p) : Rounds s s 0 0 := ⟨rfl, rfl, rfl, SamePass.refl s, Passed.refl s⟩

theorem Rounds.trans {s t u : State p} {k l m n : Nat} (h : Rounds s t k m) (h' : Rounds t u l n) :
    Rounds s u (k + l) (m + n) where
  symIn := by rw [h'.symIn, h.symIn, List.drop_drop]
  symReadAns := by rw [h'.symReadAns, h.symReadAns, List.drop_drop]
  mem := h'.mem.trans h.mem
  pass := h.pass.trans h'.pass
  passed := h.passed.trans h'.passed

/-- A round with a good symbol whose bytes the sink accepts (42_encoder.md R121, R122). -/
theorem encodeAll_good {s : State p} {x : Sym p} {rest : List (Sym p)} (hin : s.env.symIn = x :: rest)
    (hread : nextSymAnswer s.env.symReadAns = .ok) (hgood : GoodEntry (s.mem.codeAt x))
    (ha : SinkAccepts s (s.mem.codeAt x).len.toNat) :
    ∃ t, encodeAll s = encodeAll t ∧ Rounds s t 1 (s.mem.codeAt x).len.toNat := by
  obtain ⟨t, ht, hpassed⟩ := writeBits_passed (raw := (s.mem.codeAt x).raw) (s := symbolTaken s) ha
  have hrun : encodeSymbol x (symbolTaken s) = .done () t := (GoodEntry.encodeSymbol_eq (s := symbolTaken s) hgood).trans ht
  have hkeeps : EncsymKeeps (symbolTaken s) t := by
    have h := encodeSymbol_keeps x (symbolTaken s)
    rwa [hrun] at h
  refine ⟨t, by rw [encodeAll_cons hread hin, hrun, Run.bind_done], ?_, ?_, ?_, ?_, ?_⟩
  · exact hkeeps.symIn.trans List.drop_one.symm
  · exact hkeeps.symReadAns.trans List.drop_one.symm
  · exact (congrArg State.mem hkeeps.frame :)
  · exact ⟨hkeeps.pass.wopenf, hkeeps.pass.wleave, hkeeps.pass.released, hkeeps.pass.releaseAns⟩
  · exact ⟨hpassed.wcnt, hpassed.answers⟩

theorem length_symbolBits_cons (m : Memory p) (x : Sym p) (xs : List (Sym p)) :
    (symbolBits m (x :: xs)).length = (m.codeAt x).len.toNat + (symbolBits m xs).length := by
  rw [symbolBits_cons, List.length_append, codeBits_length]

/-- Good symbols at the front of the input, with their calls of `SymRead` answered and their bytes accepted, take a round each. -/
theorem encodeAll_goods {good rest : List (Sym p)} {s : State p} (hin : s.env.symIn = good ++ rest)
    (hread : ∀ a ∈ s.env.symReadAns.take good.length, a = SymAnswer.ok) (hgood : ∀ x ∈ good, GoodEntry (s.mem.codeAt x))
    (ha : SinkAccepts s (symbolBits s.mem good).length) :
    ∃ t, encodeAll s = encodeAll t ∧ Rounds s t good.length (symbolBits s.mem good).length := by
  induction good generalizing s with
  | nil => exact ⟨s, rfl, Rounds.refl s⟩
  | cons x good ih =>
    rw [length_symbolBits_cons] at ha ⊢
    rw [List.length_cons, Nat.add_comm, List.take_add] at hread
    have hnext : nextSymAnswer s.env.symReadAns = .ok := by
      cases hl : s.env.symReadAns with
      | nil => rfl
      | cons a l => exact hread a (by simp [hl])
    obtain ⟨t, ht, hround⟩ := encodeAll_good hin hnext (hgood x List.mem_cons_self) (ha.mono (Nat.le_add_right _ _))
    obtain ⟨u, hu, hrest⟩ := ih (s := t) (by rw [hround.symIn, hin]; rfl)
      (fun a h => hread a (List.mem_append_right _ (hround.symReadAns ▸ h)))
      (fun y hy => hround.mem ▸ hgood y (List.mem_cons_of_mem x hy)) (hround.mem ▸ ha.after hround.passed)
    rw [hround.mem] at hrest
    exact ⟨u, ht.trans hu, by rw [List.length_cons, Nat.add_comm]; exact hround.trans hrest⟩

/-- `ENCODE` is stuck at the first byte that the sink never answers: one that the good symbols at the front of the input complete,
or, when they are all, the partial byte of the flush (42_encoder.md R122). -/
theorem encodeAll_never_sinkWrite {good more : List (Sym p)} {s : State p} {j : Nat} {later : List PortAnswer}
    (hin : s.env.symIn = good ++ more) (hread : ∀ a ∈ s.env.symReadAns, a = SymAnswer.ok)
    (hgood : ∀ x ∈ good, GoodEntry (s.mem.codeAt x)) (ha : s.env.sinkWriteAns = List.replicate j .ok ++ .never :: later)
    (hj : j < (s.writer.wcnt.toNat + (symbolBits s.mem good).length) / 8 ∨
      (more = [] ∧ j < (s.writer.wcnt.toNat + (symbolBits s.mem good).length + 7) / 8)) :
    encodeAll s = .never .sinkWrite := by
  induction good generalizing s j with
  | nil =>
    have := s.writer.wcnt.isLt
    rw [symbolBits_nil, List.length_nil] at hj
    obtain ⟨rfl, hflush⟩ := hj.resolve_left (by omega)
    obtain rfl : j = 0 := by omega
    have h0 : s.writer.wcnt ≠ 0#3 := fun h => by simp [h] at hflush
    rw [encodeAll_nil (nextSymAnswer_ok hread) hin]
    exact closeWriter_never_flush (s := symbolTaken s) h0 (congrArg nextAnswer ha)
  | cons x good ih =>
    have hx := hgood x List.mem_cons_self
    by_cases hcode : j < (s.writer.wcnt.toNat + (s.mem.codeAt x).len.toNat) / 8
    · rw [encodeAll_cons (nextSymAnswer_ok hread) hin]
      exact Run.bind_of_never (encodeSymbol_never (s := symbolTaken s) hx ha hcode) _
    · have hj' := Nat.not_lt.mp hcode
      obtain ⟨t, ht, hround⟩ := encodeAll_good hin (nextSymAnswer_ok hread) hx (SinkAccepts.of_replicate ha hj')
      have hwcnt := hround.passed.wcnt
      rw [length_symbolBits_cons] at hj
      rw [ht]
      refine ih (by rw [hround.symIn, hin]; rfl) (hround.symReadAns ▸ fun a h => hread a (List.mem_of_mem_drop h))
        (fun y hy => hround.mem ▸ hgood y (List.mem_cons_of_mem x hy))
        (hround.passed.answers_replicate ha hj') ?_
      rw [hround.mem]
      exact hj.imp (by omega) (And.imp_right (by omega))

/-- `ENCODE` is stuck at the call of `SymRead` that is never answered, every byte before it accepted (42_encoder.md R122). -/
theorem encodeAll_never_symRead {good more : List (Sym p)} {s : State p} {later : List SymAnswer}
    (hin : s.env.symIn = good ++ more) (hgood : ∀ x ∈ good, GoodEntry (s.mem.codeAt x))
    (ha : ∀ a ∈ s.env.sinkWriteAns, a = PortAnswer.ok)
    (hread : s.env.symReadAns = List.replicate good.length .ok ++ .never :: later) : encodeAll s = .never .symRead := by
  obtain ⟨t, ht, hrounds⟩ := encodeAll_goods hin
    (fun a h => List.eq_of_mem_replicate (by rwa [hread, List.take_left' (List.length_replicate ..)] at h)) hgood
    (SinkAccepts.of_all_ok ha _)
  rw [ht]
  refine encodeAll_stuck ?_
  rw [hrounds.symReadAns, hread, List.drop_left' (List.length_replicate ..)]
  rfl

/-- `ENCODE` is stuck at the release when that is all the environment leaves unanswered (42_encoder.md R122). -/
theorem encodeAll_never_release {s : State p} (hleave : s.writer.wleave = false)
    (hgood : ∀ x ∈ s.env.symIn, GoodEntry (s.mem.codeAt x)) (hread : ∀ a ∈ s.env.symReadAns, a = SymAnswer.ok)
    (ha : ∀ a ∈ s.env.sinkWriteAns, a = PortAnswer.ok) (hrelease : nextAnswer s.env.sinkReleaseAns = .never) :
    encodeAll s = .never .sinkRelease := by
  obtain ⟨t, ht, hrounds⟩ := encodeAll_goods (List.append_nil _).symm (fun a h => hread a (List.mem_of_mem_take h)) hgood
    (SinkAccepts.of_all_ok ha _)
  have hread' : ∀ a ∈ t.env.symReadAns, a = SymAnswer.ok :=
    hrounds.symReadAns ▸ fun a h => hread a (List.mem_of_mem_drop h)
  have ha' : ∀ a ∈ t.env.sinkWriteAns, a = PortAnswer.ok :=
    hrounds.passed.answers ▸ fun a h => ha a (List.mem_of_mem_drop h)
  rw [ht, encodeAll_nil (nextSymAnswer_ok hread') (by rw [hrounds.symIn, List.drop_length])]
  refine closeWriter_never_release (s := symbolTaken t) (fun ⟨_, hflush⟩ => ?_) (hrounds.pass.wleave.trans hleave)
    ((congrArg nextAnswer hrounds.pass.releaseAns).trans hrelease)
  rw [show nextAnswer (symbolTaken t).env.sinkWriteAns = .ok from nextAnswer_ok ha'] at hflush
  cases hflush

/-! ## The reader and the decoder -/

/-- `RBYTE` with fewer bits held than it needs takes them and is stuck at the source (41_bitreader.md R103). -/
theorem readByteLoop_never {n : Nat} {v : Byte} {s : State p} (hn : s.reader.rcnt.toNat < n) (he : s.reader.reof = false)
    (ha : nextAnswer s.env.sourceReadAns = .never) : readByteLoop n v s = .never .sourceRead := by
  induction n generalizing v s with
  | zero => exact absurd hn (Nat.not_lt_zero _)
  | succ n ih =>
    by_cases h0 : s.reader.rcnt = 0#4
    · exact Run.bind_of_never (readBit_never h0 he ha) _
    · rw [readByteLoop, readBit_held h0, Run.bind_done]
      have hpos : s.reader.rcnt.toNat ≠ 0 := fun h => h0 (BitVec.eq_of_toNat_eq h)
      exact ih (s := s.setReader (bitDelivered s.reader)) (by rw [State.setReader_reader, rcnt_delivered h0]; omega) he ha

/-- `DECSYM` is stuck where the held bits and those of the bytes pulled have led it to an Internal node within `MAXLEN` and the
source never answers (43_decoder.md R138). -/
theorem decodeSymbol_never_sourceRead {s : State p} {pulled more : List Byte} {later : List PortAnswer} {n : NodeIdx p}
    (h8 : s.reader.rcnt.toNat ≤ 8) (he : s.reader.reof = false) (hconf : ConfigOk s) (hs : s.env.source = pulled ++ more)
    (ha : s.env.sourceReadAns = List.replicate pulled.length .ok ++ .never :: later)
    (hpath : path s.mem s.conf.root (unreadBits s.reader ++ unpack pulled) = some n)
    (hinner : isLeaf (s.mem.nodeAt n) = false)
    (hlen : (unreadBits s.reader ++ unpack pulled).length ≤ s.conf.maxlen.toNat) :
    decodeSymbol s = .never .sourceRead := by
  have hread : readBit (pulledState (startWalk s) pulled more (.never :: later) n) = .never .sourceRead :=
    readBit_never rfl he rfl
  rw [decodeSymbol_configOk hconf, lmax_rounds hconf hlen]
  exact (walkLoop_pulled (s := startWalk s) _ h8 he hs ha hconf.maxlen_le ((Nat.zero_add _).trans_le hlen) hpath hinner).trans
    (Run.bind_of_never hread _)

/-- `DECSYM` is stuck at the Leaf it reaches when `SymWrite` is never answered (43_decoder.md R138). -/
theorem decodeSymbol_never_symWrite {s : State p} {c rest : List Bool} {n : NodeIdx p} (h8 : s.reader.rcnt.toNat ≤ 8)
    (hconf : ConfigOk s) (ha : ∀ a ∈ s.env.sourceReadAns, a = PortAnswer.ok) (hb : bitsToCome s = c ++ rest)
    (hpath : path s.mem s.conf.root c = some n) (hleaf : isLeaf (s.mem.nodeAt n) = true) (hlen : c.length ≤ s.conf.maxlen.toNat)
    (hsym : nextSymAnswer s.env.symWriteAns = .never) : decodeSymbol s = .never .symWrite := by
  obtain ⟨t, ht, hrun⟩ := decodeSymbol_path h8 hconf ha hb hpath (path_ne_nil hconf.root_internal hpath hleaf) hlen
  rw [hrun, if_pos hleaf, emitSymbol, symWrite_never (by rw [State.setDecoder_env, ht.symWriteAns]; exact hsym), Run.bind_never]

theorem bind_symbolToResult_eq_never {x : Run p (SymResult p)} {port : Port} :
    x.bind symbolToResult = .never port ↔ x = .never port := by
  cases x with
  | done r t => cases r <;> simp [symbolToResult]
  | raise r t => simp
  | never q => simp

/-- A `DECSYM` that does not raise has found the configuration good (43_decoder.md R135). -/
theorem configOk_of_decodeSymbol {s : State p} (h : ∀ r t, decodeSymbol s ≠ .raise r t) : ConfigOk s := by
  cases hc : checkConfig s with
  | none => exact checkConfig_eq_none.mp hc
  | some c => exact absurd (decodeSymbol_badConfig hc) (h _ s)

/-- `DECODE` within its limit is stuck where its next `DECSYM` is (43_decoder.md R139). -/
theorem decodeAll_never {s : State p} {port : Port} (hroom : limitReached s = false) (h : decodeSymbol s = .never port) :
    decodeAll s = .never port := by
  rw [decodeAll_eq_decodeRound (configOk_of_decodeSymbol (by simp [h])), decodeRound, hroom]
  exact Run.bind_of_never h _

/-- After a symbol within its limit `DECODE` is stuck where `DECODE` begun from there is (43_decoder.md R139). -/
theorem exec_decode_fault_of_symbol {s t : State} {x : Sym} {f : Fault} (hroom : limitReached s = false)
    (hrun : decodeSymbol s = .done (.symbol x) t) (h : exec .decode t = .fault f) : exec .decode s = .fault f := by
  have hkept : hideDecode t = hideDecode s := by
    have hends := decodeSymbol_hideDecode s
    rwa [hrun] at hends
  have hconf : ConfigOk s := configOk_of_decodeSymbol (by simp [hrun])
  have hconf' : ConfigOk t := configOk_congr (congrArg State.conf hkept :) (congrArg State.mem hkept :) hconf
  obtain ⟨port, rfl, hpre, hbody⟩ := exec_eq_fault.mp h
  have hopen : s.reader.ropenf = true :=
    (congrArg (·.reader.ropenf) hkept.symm :).trans (needReaderOpen_eq_none.mp hpre)
  exact exec_reader_stuck (by simp [Instr.op]) hopen ((decodeAll_symbol hconf hroom hrun hconf').trans hbody)

theorem exec_decode_fault_of_decsym {s : State} {f : Fault} (hroom : limitReached s = false) (h : exec .decsym s = .fault f) :
    exec .decode s = .fault f := by
  obtain ⟨port, rfl, hpre, hbody⟩ := exec_eq_fault.mp h
  exact exec_eq_fault.mpr ⟨port, rfl, hpre, decodeAll_never hroom (bind_symbolToResult_eq_never.mp hbody)⟩

/-- Settles O18: each command's body waits at the named call, and what a body has met it has answered. -/
theorem unansweredPortCallsAreStuck : Obligations.UnansweredPortCallsAreStuck := by
  intro s
  have hwriter {i : Instr} {port : Port} := exec_writer_stuck (i := i) (s := s) (port := port)
  have hreader {i : Instr} {port : Port} := exec_reader_stuck (i := i) (s := s) (port := port)
  refine ⟨?wbit, ?wbyte, ?wcloseFlush, ?wcloseRelease, ?encsym, ?encodeByte, ?encodeSymRead, ?encodeRelease, ?rbit, ?rbyte,
    ?rclose, ?decsymSourceRead, ?decsymSymWrite, ?decode, ?met, ?stuck⟩
  case wbit =>
    intro b hopen h7 ha
    exact hwriter (by simp [Instr.op]) hopen (Run.bind_of_never (writeBit_never h7 ha) _)
  case wbyte =>
    intro v hopen ha
    exact hwriter (by simp [Instr.op]) hopen (Run.bind_of_never (writeBits_eight_never ha) _)
  case wcloseFlush =>
    intro hopen h0 ha
    exact hwriter (by simp [Instr.op]) hopen (Run.bind_of_never (closeWriter_never_flush h0 ha) _)
  case wcloseRelease =>
    intro hopen hflush hleave ha
    exact hwriter (by simp [Instr.op]) hopen (Run.bind_of_never (closeWriter_never_release hflush hleave ha) _)
  case encsym =>
    intro x j later hopen hgood ha hj
    rw [exec_encsym_of_open hopen, Run.bind_of_never (encodeSymbol_never hgood ha hj), finish_never]
  case encodeByte =>
    intro good more j later hopen hin hgood hread ha hj
    exact hwriter (by simp [Instr.op]) hopen (Run.bind_of_never (encodeAll_never_sinkWrite hin hread hgood ha hj) _)
  case encodeSymRead =>
    intro good more later hopen hin hgood ha hread
    exact hwriter (by simp [Instr.op]) hopen (Run.bind_of_never (encodeAll_never_symRead hin hgood ha hread) _)
  case encodeRelease =>
    intro hopen hleave hgood hread ha hrelease
    exact hwriter (by simp [Instr.op]) hopen (Run.bind_of_never (encodeAll_never_release hleave hgood hread ha hrelease) _)
  case rbit =>
    intro hopen h0 he ha
    exact hreader (by simp [Instr.op]) hopen (Run.bind_of_never (readBit_never h0 he ha) _)
  case rbyte =>
    intro hopen hlt he ha
    exact hreader (by simp [Instr.op]) hopen (readByteLoop_never hlt he ha)
  case rclose =>
    intro hopen hleave ha
    exact hreader (by simp [Instr.op]) hopen (closeReader_never hleave ha)
  case decsymSourceRead =>
    intro pulled more later n hopen h8 he hconf hs ha hpath hinner hlen
    exact hreader (by simp [Instr.op]) hopen
      (Run.bind_of_never (decodeSymbol_never_sourceRead h8 he hconf hs ha hpath hinner hlen) _)
  case decsymSymWrite =>
    intro c rest n hopen h8 hconf ha hb hpath hleaf hlen hsym
    exact hreader (by simp [Instr.op]) hopen
      (Run.bind_of_never (decodeSymbol_never_symWrite h8 hconf ha hb hpath hleaf hlen hsym) _)
  case decode =>
    intro f hlimit h
    have hroom : limitReached s = false := by rwa [← Bool.not_eq_true, limitReached_eq_true]
    obtain h | ⟨x, t, hrun, h⟩ := h
    · exact exec_decode_fault_of_decsym hroom h
    · exact exec_decode_fault_of_symbol hroom hrun h
  case met =>
    intro i
    rw [exec_eq_runCommand]
    exact (runCommand_met (bodyOf_met i s)).1
  case stuck =>
    intro i
    rw [exec_eq_runCommand]
    exact (runCommand_met (bodyOf_met i s)).2

end Sys2Proof.Machine
end
